-- ==== Sys2Proof/Word.lean ====
section
/-! DEFINITION. The words of the machine: bytes, 64-bit lanes and addresses, the storage of one vector register. Bit 0 is
the least significant bit of every value (00_scope.md R9). -/

namespace Sys2Proof

/-- A byte of memory: 8 bits (20_memory.md R50). -/
abbrev Byte := BitVec 8

/-- A 64-bit lane: the pattern of a double-precision value (40_numerics_double_add.md R130). -/
abbrev Double := BitVec 64

/-- A linear or effective address, or the instruction pointer, in a 64-bit container (10_state.md R32, 20_memory.md R50). -/
abbrev Addr := BitVec 64

/-- The storage of one vector register: 512 bits, the widest `MAXVL` (10_state.md R20); an implementation with a smaller
`MAXVL` has only the low `MAXVL` bits of it. -/
abbrev VecReg := BitVec 512

end Sys2Proof
end

