-- ==== Sys2Proof/Config.lean ====
section
/-! DEFINITION. What an implementation fixes (00_scope.md R8): the parameters that are no register of the machine, as plain
data, and the free values, which the spec leaves to the implementation within bounds (92_eei_decisions.md, 'Draws'). -/

namespace Sys2Proof

/-- The processor modes the spec names. Only `mode64` and `mode32` are in scope (00_scope.md R5, R8); the others are named
by R6 and refused. -/
inductive Mode where
  /-- 64-bit mode. -/
  | mode64
  /-- 32-bit protected or compatibility mode with 32-bit default sizes. -/
  | mode32
  /-- Real-address mode: the mode after reset (10_state.md R45); out of scope (R6). -/
  | realAddress
  /-- Virtual-8086 mode: out of scope (R6). -/
  | virtual8086
  /-- System-management mode: out of scope (R6). -/
  | systemManagement
  /-- A 16-bit code segment: out of scope (R6). -/
  | code16
deriving DecidableEq, Repr

/-- The six segment registers, in the order of their numbers 0 to 5 (10_state.md R31). -/
inductive Seg where
  | es | cs | ss | ds | fs | gs
deriving DecidableEq, Repr

/-- The width of a canonical linear address in 64-bit mode, `Cfg.VABITS`: 48 or 57 (00_scope.md R8). -/
inductive VaBits where
  | va48 | va57
deriving DecidableEq, Repr

/-- The kind of an access as `Cfg.Translate` sees it (20_memory.md R63). -/
inductive AccessKind where
  | dataRead | fetch
deriving DecidableEq, Repr

/-- One entry of the page-fault map: `Cfg.Translate` answers `PF(code)` for the linear addresses `lo` to `hi`, both
included, at this kind of access and privilege level. -/
structure PageFaultRange where
  lo : Addr
  hi : Addr
  kind : AccessKind
  cpl : BitVec 2
  code : BitVec 32
deriving DecidableEq, Repr

/-- One entry of the segment-check map: `Cfg.SegCheck` fails for the accesses of segment `seg` at the effective addresses `lo`
to `hi` with `minSize` to `maxSize` bytes, all bounds included. -/
structure SegDenied where
  seg : Seg
  lo : Addr
  hi : Addr
  minSize : Nat
  maxSize : Nat
deriving DecidableEq, Repr

/-- The configuration record, less the fields that are registers of the machine and stand in State (00_scope.md R8):
CPUID flags, `VABITS`, fault suppression, `SegCheck`, `Translate` and `END`. It is plain data: the two functions of R8 are
held as finite maps over their finite domains, whose readings are `segCheck` and `translate` of Machine/Ops.lean.
`MAXVL` and `NVEC` are determined by the rest (`maxvl`, `nvec` of Machine/Ops.lean). -/
structure Cfg where
  sse2 : Bool
  avx : Bool
  avx512f : Bool
  avx512vl : Bool
  vabits : VaBits
  faultSuppression : Bool
  segDenied : List SegDenied
  pageFaults : List PageFaultRange
  endRip : Addr
deriving DecidableEq, Repr

/-- The constraints among the CPUID flags (00_scope.md R8). -/
def Cfg.flagsOk (c : Cfg) : Bool :=
  (!c.avx512vl || c.avx512f) && (!c.avx512f || c.avx) && (!c.avx || c.sse2)

/-- The error codes `Cfg.Translate` may answer for a read-only access (60_exceptions.md R205): bit 1 (W/R) is 0, bit 2 (U/S)
says whether the access was made at level 3, bit 4 (I/D) is 0 for an operand read. -/
def PageFaultRange.codeOk (e : PageFaultRange) : Bool :=
  !e.code.getLsbD 1 && (e.code.getLsbD 2 == (e.cpl == 3#2)) && (e.kind == .fetch || !e.code.getLsbD 4)

/-- The configuration is one the spec admits. -/
def Cfg.wf (c : Cfg) : Bool :=
  c.flagsOk && c.pageFaults.all PageFaultRange.codeOk

/-- The configuration the spec's instruction vectors start from (95_test_vectors.md section 4): every feature present,
48-bit canonical addresses, fault suppression asserted, no page fault, no segment check failing. `endRip` is the model's
choice (DESIGN CHOICE, log entry 3). -/
def Cfg.common : Cfg where
  sse2 := true
  avx := true
  avx512f := true
  avx512vl := true
  vabits := .va48
  faultSuppression := true
  segDenied := []
  pageFaults := []
  endRip := 0xFFFFFFFFFFFFFFFF#64

/-- FREE VALUE: which of the seen but not causing MXCSR flags a SIMD floating-point fault also sets
(40_numerics_double_add.md R153, 92_eei_decisions.md D14; log entry 5). Nothing constrains it. -/
opaque Config.freeSimdFlags : Nat → BitVec 32

/-- FREE VALUE: whether the tie of a misaligned and non-canonical stack operand of ADDPD is reported as #GP(0)
(20_memory.md R64, 92_eei_decisions.md D13; log entry 6). Nothing constrains it. -/
opaque Config.freeTieIsGp : Nat → Bool

/-- FREE VALUE: whether an override of ES, CS, SS or DS counts, in 64-bit mode, for the exception of a non-canonical operand:
20_memory.md R61, 30_encoding.md R96 and 60_exceptions.md R203 say that it does, 30_encoding.md R83 and R122 that it has no
effect, and nothing decides (log entry 22). Nothing constrains it. -/
opaque Config.freeOverrideCounts : Nat → Bool

/-- FREE VALUE: which of the faulting bytes of an operand a page fault reports, where more than one would fault
(20_memory.md R65, 93_implementation_defined.md U15; log entry 13). Nothing constrains it. -/
opaque Config.freeFaultByte : Nat → Nat

end Sys2Proof
end

