-- ==== Sys2Proof/Syntax.lean ====
section
/-! DEFINITION. The instructions: one constructor for each row of spec/opcode_table.json, its fields those of the row
(30_encoding.md R128). Fields the encoding stores inverted stand here as true values (R103, R113). -/

namespace Sys2Proof

/-- The optional prefix bytes every row admits: one segment override and one `67` (30_encoding.md R81, R87). -/
structure Prefixes where
  seg : Option Seg
  a67 : Bool
deriving DecidableEq, Repr

/-- A displacement: none, one byte (`mod = 01`) or four bytes (`mod = 10`) (30_encoding.md R92, R94). -/
inductive Disp where
  | none
  | disp8 (d : BitVec 8)
  | disp32 (d : BitVec 32)
deriving DecidableEq, Repr

/-- A memory operand as ModRM, SIB and displacement spell it (30_encoding.md R92, R93). -/
inductive MemOperand where
  /-- `[base + disp]`, no SIB byte; `rm` is the low 3 bits of the base register number. -/
  | base (rm : BitVec 3) (disp : Disp)
  /-- `[base + index * 2^scale + disp]`, with a SIB byte. -/
  | sib (scale : BitVec 2) (index base : BitVec 3) (disp : Disp)
  /-- `[index * 2^scale + disp32]`: a SIB byte with `mod = 00` and `base = 101`. -/
  | sibNoBase (scale : BitVec 2) (index : BitVec 3) (disp : BitVec 32)
  /-- `mod = 00`, `rm = 101`: RIP-relative in 64-bit mode, absolute in 32-bit mode. -/
  | dispOnly (disp : BitVec 32)
deriving DecidableEq, Repr

/-- The ModRM:r/m operand: a vector register (its low 3 bits) when `mod = 3`, memory otherwise (30_encoding.md R91, R92). -/
inductive RmOperand where
  | reg (rm : BitVec 3)
  | mem (m : MemOperand)
deriving DecidableEq, Repr

/-- The REX byte `0100WRXB` (30_encoding.md R85). -/
structure Rex where
  w : Bool
  r : Bool
  x : Bool
  b : Bool
deriving DecidableEq, Repr

/-- The fields of the two-byte VEX prefix, less `L` and `pp` (30_encoding.md R100). -/
structure Vex2 where
  r : Bool
  vvvv : BitVec 4
deriving DecidableEq, Repr

/-- The fields of the three-byte VEX prefix, less `mmmmm`, `L` and `pp` (30_encoding.md R101). -/
structure Vex3 where
  r : Bool
  x : Bool
  b : Bool
  w : Bool
  vvvv : BitVec 4
deriving DecidableEq, Repr

/-- The fields of the EVEX prefix that every EVEX row has (30_encoding.md R107): `r'` is written `rr`, `V'` is `vv`. -/
structure Evex where
  r : Bool
  x : Bool
  b : Bool
  rr : Bool
  vvvv : BitVec 4
  vv : Bool
  z : Bool
  aaa : BitVec 3
deriving DecidableEq, Repr

/-- The instructions: the ten rows of spec/opcode_table.json. `reg` is ModRM:reg, `rm` the ModRM:r/m operand, `bcast` is
`EVEX.b` with a memory operand, `rc` is `EVEX.RC` (30_encoding.md R82, R110, R111). -/
inductive Instr where
  /-- ADDPD.SSE: `66 0F 58 /r`. -/
  | addpdSse (p : Prefixes) (reg : BitVec 3) (rm : RmOperand)
  /-- ADDPD.SSE.REX: `66 REX 0F 58 /r`. -/
  | addpdSseRex (p : Prefixes) (rex : Rex) (reg : BitVec 3) (rm : RmOperand)
  /-- VADDPD.VEX128.C5: `C5 v1 58 /r`, `L = 0`. -/
  | vaddpdVex128C5 (p : Prefixes) (v : Vex2) (reg : BitVec 3) (rm : RmOperand)
  /-- VADDPD.VEX128.C4: `C4 v1 v2 58 /r`, `L = 0`. -/
  | vaddpdVex128C4 (p : Prefixes) (v : Vex3) (reg : BitVec 3) (rm : RmOperand)
  /-- VADDPD.VEX256.C5: `C5 v1 58 /r`, `L = 1`. -/
  | vaddpdVex256C5 (p : Prefixes) (v : Vex2) (reg : BitVec 3) (rm : RmOperand)
  /-- VADDPD.VEX256.C4: `C4 v1 v2 58 /r`, `L = 1`. -/
  | vaddpdVex256C4 (p : Prefixes) (v : Vex3) (reg : BitVec 3) (rm : RmOperand)
  /-- VADDPD.EVEX128: `62 P0 P1 P2 58 /r`, `L'L = 00`. -/
  | vaddpdEvex128 (p : Prefixes) (e : Evex) (bcast : Bool) (reg : BitVec 3) (rm : RmOperand)
  /-- VADDPD.EVEX256: `62 P0 P1 P2 58 /r`, `L'L = 01`. -/
  | vaddpdEvex256 (p : Prefixes) (e : Evex) (bcast : Bool) (reg : BitVec 3) (rm : RmOperand)
  /-- VADDPD.EVEX512: `62 P0 P1 P2 58 /r`, `L'L = 10`. -/
  | vaddpdEvex512 (p : Prefixes) (e : Evex) (bcast : Bool) (reg : BitVec 3) (rm : RmOperand)
  /-- VADDPD.EVEX512.ER: `62 P0 P1 P2 58 /r` with `mod = 3`, `b = 1`: `L'L` is the rounding mode; `rm` is a register. -/
  | vaddpdEvex512Er (p : Prefixes) (e : Evex) (rc : BitVec 2) (reg rm : BitVec 3)
deriving DecidableEq, Repr

end Sys2Proof
end

