-- ==== Sys2Proof/WellFormed.lean ====
section
/-! DEFINITION. Which instructions an encoding can spell, in each mode (30_encoding.md R92, R93, R97, R104, R110, R112, R114). -/

namespace Sys2Proof

/-- A memory operand the ModRM and SIB bytes can spell: `rm = 100` always means a SIB byte, `rm = 101` and SIB `base = 101`
need a displacement (30_encoding.md R92, R93). -/
def MemOperand.wf : MemOperand → Bool
  | .base rm disp => rm != 4#3 && (disp != .none || rm != 5#3)
  | .sib _ _ lo disp => disp != .none || lo != 5#3
  | .sibNoBase _ _ _ => true
  | .dispOnly _ => true

def RmOperand.isMem : RmOperand → Bool
  | .reg _ => false
  | .mem _ => true

def RmOperand.wf : RmOperand → Bool
  | .reg _ => true
  | .mem m => m.wf

/-- `z = 1` with `aaa = 000` is reserved (30_encoding.md R112). -/
def Evex.maskOk (e : Evex) : Bool := !e.z || e.aaa != 0#3

/-- In 32-bit mode the register-extension bits are admitted only with the stored value 1 (30_encoding.md R104, R114). -/
def Vex2.low (v : Vex2) : Bool := !v.r && !v.vvvv.getLsbD 3

def Vex3.low (v : Vex3) : Bool := !v.r && !v.x && !v.b && !v.vvvv.getLsbD 3

def Evex.low (e : Evex) : Bool := !e.r && !e.x && !e.b && !e.rr && !e.vvvv.getLsbD 3 && !e.vv

/-- In 32-bit mode a `67` prefix would select 16-bit addressing, which is refused; with a register operand it is ignored
(30_encoding.md R97, R122). -/
def Prefixes.sizeOk (p : Prefixes) (m : Mode) (isMem : Bool) : Bool := !(m == .mode32 && p.a67 && isMem)

/-- The mode is 64-bit mode, or it is 32-bit mode and the extension bits are low (30_encoding.md R104, R114). -/
def Mode.admits (m : Mode) (low : Bool) : Bool := m == .mode64 || (m == .mode32 && low)

/-- An instruction that some encoding spells in mode `m`. -/
def Instr.wf (m : Mode) : Instr → Bool
  | .addpdSse p _ rm => m.admits true && rm.wf && p.sizeOk m rm.isMem
  | .addpdSseRex _ _ _ rm => m.admits false && rm.wf
  | .vaddpdVex128C5 p v _ rm | .vaddpdVex256C5 p v _ rm => m.admits v.low && rm.wf && p.sizeOk m rm.isMem
  | .vaddpdVex128C4 p v _ rm | .vaddpdVex256C4 p v _ rm => m.admits v.low && rm.wf && p.sizeOk m rm.isMem
  | .vaddpdEvex128 p e bc _ rm | .vaddpdEvex256 p e bc _ rm | .vaddpdEvex512 p e bc _ rm =>
      m.admits e.low && e.maskOk && (!bc || rm.isMem) && rm.wf && p.sizeOk m rm.isMem
  | .vaddpdEvex512Er _ e _ _ _ => m.admits e.low && e.maskOk

end Sys2Proof
end

