-- ==== Sys2Proof/Decode.lean ====
section
/-! DEFINITION. The decoder of 30_encoding.md R116, total on any bytes, and after it the encoder, written from the same
tables (R81 to R115). -/

namespace Sys2Proof

/-- Bit `i` of a byte. -/
def bitAt (b : Byte) (i : Nat) : Bool := b.getLsbD i

/-- The two ModRM fields that select the operand form, and ModRM:reg (30_encoding.md R90); the SIB fields have the same
places (R93). -/
def fieldHi (b : Byte) : BitVec 2 := b.extractLsb' 6 2
def fieldMid (b : Byte) : BitVec 3 := b.extractLsb' 3 3
def fieldLo (b : Byte) : BitVec 3 := b.extractLsb' 0 3

/-- Why a byte sequence is given no meaning. -/
inductive DecodeRefusal where
  /-- The bytes spell an instruction out of scope, or none (30_encoding.md R121). -/
  | otherInstruction
  /-- A repeated prefix, two segment overrides, or a legacy prefix after a REX byte (30_encoding.md R87). -/
  | redundantPrefix
  /-- A register-extension bit stored as 0 in 32-bit mode (30_encoding.md R104, R114). -/
  | mode32Extension
  /-- 16-bit addressing: a `67` prefix in 32-bit mode with a memory operand (30_encoding.md R97). -/
  | address16
  /-- A mode out of scope (00_scope.md R6). -/
  | modeOutOfScope
deriving DecidableEq, Repr

/-- What the decoder answers. -/
inductive Decoded where
  /-- The instruction and its length in bytes (30_encoding.md R117). -/
  | ok (i : Instr) (len : Nat)
  /-- An encoding that raises #UD (30_encoding.md R120). -/
  | ud
  | refused (r : DecodeRefusal)
  /-- The instruction has more bytes than were given. -/
  | short
deriving DecidableEq, Repr

/-- The prefix bytes of step 1 of R116. -/
inductive PrefixByte where
  | seg (s : Seg)
  | addressSize
  | operandSize
  | lock
  | repne
  | rep
deriving DecidableEq, Repr

/-- Which prefix a byte is, if it is one (30_encoding.md R83). -/
def prefixByte (b : Byte) : Option PrefixByte :=
  if b = 0x26#8 then some (.seg .es)
  else if b = 0x2E#8 then some (.seg .cs)
  else if b = 0x36#8 then some (.seg .ss)
  else if b = 0x3E#8 then some (.seg .ds)
  else if b = 0x64#8 then some (.seg .fs)
  else if b = 0x65#8 then some (.seg .gs)
  else if b = 0x67#8 then some .addressSize
  else if b = 0x66#8 then some .operandSize
  else if b = 0xF0#8 then some .lock
  else if b = 0xF2#8 then some .repne
  else if b = 0xF3#8 then some .rep
  else none

/-- The prefixes seen so far. -/
structure PrefixScan where
  seg : Option Seg := none
  a67 : Bool := false
  p66 : Bool := false
  lock : Bool := false
  f2 : Bool := false
  f3 : Bool := false
deriving DecidableEq, Repr

/-- One more prefix; `none` where it repeats one, or is a second segment override (30_encoding.md R87). -/
def PrefixScan.add (a : PrefixScan) : PrefixByte → Option PrefixScan
  | .seg s => if a.seg.isSome then none else some { a with seg := some s }
  | .addressSize => if a.a67 then none else some { a with a67 := true }
  | .operandSize => if a.p66 then none else some { a with p66 := true }
  | .lock => if a.lock then none else some { a with lock := true }
  | .repne => if a.f2 then none else some { a with f2 := true }
  | .rep => if a.f3 then none else some { a with f3 := true }

def PrefixScan.prefixes (a : PrefixScan) : Prefixes := ⟨a.seg, a.a67⟩

inductive ScanResult where
  | short
  | redundant
  | done (a : PrefixScan) (rest : List Byte)
deriving DecidableEq, Repr

/-- Step 1 of R116: reads prefix bytes until a byte that is none. A repeat is refused where it stands, even where repeats make
the instruction longer than 15 bytes: R87 and step 1 of R116, where R88 and the table of R120 say #GP(0) (DESIGN CHOICE, log
entry 25). -/
def scanPrefixes : List Byte → PrefixScan → ScanResult
  | [], _ => .short
  | b :: bs, a =>
    match prefixByte b with
    | none => .done a (b :: bs)
    | some p =>
      match a.add p with
      | none => .redundant
      | some a' => scanPrefixes bs a'

/-- A four-byte displacement, least significant byte first (30_encoding.md R94, 20_memory.md R53). -/
def readDisp32 : List Byte → Option (BitVec 32 × List Byte)
  | b0 :: b1 :: b2 :: b3 :: rest => some (b3 ++ b2 ++ b1 ++ b0, rest)
  | _ => none

/-- The displacement that `mod` selects (30_encoding.md R92). -/
def readDisp (mod : BitVec 2) (bs : List Byte) : Option (Disp × List Byte) :=
  if mod = 0#2 then some (.none, bs)
  else if mod = 1#2 then
    match bs with
    | [] => none
    | b :: rest => some (.disp8 b, rest)
  else (readDisp32 bs).map fun d => (.disp32 d.1, d.2)

/-- The memory operand after a SIB byte (30_encoding.md R93). -/
def readSib (mod : BitVec 2) (sib : Byte) (bs : List Byte) : Option (MemOperand × List Byte) :=
  if mod = 0#2 ∧ fieldLo sib = 5#3 then
    (readDisp32 bs).map fun d => (.sibNoBase (fieldHi sib) (fieldMid sib) d.1, d.2)
  else
    (readDisp mod bs).map fun d => (.sib (fieldHi sib) (fieldMid sib) (fieldLo sib) d.1, d.2)

/-- The ModRM:r/m operand of the ModRM byte `modrm`, read from the bytes after it (30_encoding.md R91, R92). -/
def readOperand (modrm : Byte) (bs : List Byte) : Option (RmOperand × List Byte) :=
  if fieldHi modrm = 3#2 then some (.reg (fieldLo modrm), bs)
  else if fieldLo modrm = 4#3 then
    match bs with
    | [] => none
    | sib :: rest => (readSib (fieldHi modrm) sib rest).map fun m => (.mem m.1, m.2)
  else if fieldHi modrm = 0#2 ∧ fieldLo modrm = 5#3 then
    (readDisp32 bs).map fun d => (.mem (.dispOnly d.1), d.2)
  else
    (readDisp (fieldHi modrm) bs).map fun d => (.mem (.base (fieldLo modrm) d.1), d.2)

/-- Step 4 of R116, from the ModRM byte on. `ill` says that the bytes before it already make the encoding #UD, `bad` whether
the ModRM byte does; the rest of the instruction is read first, because a fetch fault on any of its bytes comes before #UD
(60_exceptions.md R211). Where a `67` prefix in 32-bit mode selects 16-bit addressing the length is not given by the spec, and
nothing is read after ModRM: #UD where the encoding is #UD, else the refusal (DESIGN CHOICE, log entry 15). `total` is how many
bytes were given. -/
def finish (mode : Mode) (total : Nat) (a67 ill : Bool) (bad : Byte → Bool) (mk : BitVec 3 → RmOperand → Instr) :
    List Byte → Decoded
  | [] => .short
  | modrm :: rest =>
    if mode = .mode32 ∧ a67 = true ∧ fieldHi modrm ≠ 3#2 then
      if ill || bad modrm then .ud else .refused .address16
    else
      match readOperand modrm rest with
      | none => .short
      | some (rm, rest') =>
        if ill || bad modrm then .ud else .ok (mk (fieldMid modrm) rm) (total - rest'.length)

/-- The common end of the prefix schemes: an illegal encoding whose opcode is another's is #UD at once, a legal one is
another instruction (30_encoding.md R116 step 3). -/
def selectForm (ill mismatch restricted : Bool) (k : Decoded) : Decoded :=
  if mismatch then (if ill then .ud else .refused .otherInstruction)
  else if restricted && !ill then .refused .mode32Extension
  else k

/-- The legacy scheme after the byte `0F` (30_encoding.md R85, R86, R116). -/
def decodeLegacy (mode : Mode) (total : Nat) (a : PrefixScan) (rex : Option Rex) : List Byte → Decoded
  | [] => .short
  | op :: rest =>
    if op ≠ 0x58#8 then .refused .otherInstruction
    else selectForm a.lock (a.f2 || a.f3 || !a.p66) false
      (finish mode total a.a67 a.lock (fun _ => false)
        (match rex with
          | none => .addpdSse a.prefixes
          | some r => .addpdSseRex a.prefixes r) rest)

/-- A prefix that makes a VEX or EVEX encoding #UD: `66`, `F2`, `F3`, LOCK or REX (30_encoding.md R105, R115). -/
def PrefixScan.illegalBeforeVex (a : PrefixScan) (rex : Option Rex) : Bool :=
  a.p66 || a.lock || a.f2 || a.f3 || rex.isSome

def vex2Of (v1 : Byte) : Vex2 := ⟨!bitAt v1 7, ~~~(v1.extractLsb' 3 4)⟩

def vex3Of (v1 v2 : Byte) : Vex3 :=
  ⟨!bitAt v1 7, !bitAt v1 6, !bitAt v1 5, bitAt v2 7, ~~~(v2.extractLsb' 3 4)⟩

/-- The two-byte VEX scheme after `C5` (30_encoding.md R100, R102). -/
def decodeVex2 (mode : Mode) (total : Nat) (a : PrefixScan) (rex : Option Rex) : List Byte → Decoded
  | v1 :: op :: rest =>
    let ill := a.illegalBeforeVex rex
    let v := vex2Of v1
    selectForm ill (v1.extractLsb' 0 2 != 1#2 || op != 0x58#8) (mode == .mode32 && !v.low)
      (finish mode total a.a67 ill (fun _ => false)
        (if bitAt v1 2 then .vaddpdVex256C5 a.prefixes v else .vaddpdVex128C5 a.prefixes v) rest)
  | _ => .short

/-- The three-byte VEX scheme after `C4` (30_encoding.md R101, R102). -/
def decodeVex3 (mode : Mode) (total : Nat) (a : PrefixScan) (rex : Option Rex) : List Byte → Decoded
  | v1 :: v2 :: op :: rest =>
    let ill := a.illegalBeforeVex rex
    let v := vex3Of v1 v2
    selectForm ill (v1.extractLsb' 0 5 != 1#5 || v2.extractLsb' 0 2 != 1#2 || op != 0x58#8) (mode == .mode32 && !v.low)
      (finish mode total a.a67 ill (fun _ => false)
        (if bitAt v2 2 then .vaddpdVex256C4 a.prefixes v else .vaddpdVex128C4 a.prefixes v) rest)
  | _ => .short

def evexOf (p0 p1 p2 : Byte) : Evex where
  r := !bitAt p0 7
  x := !bitAt p0 6
  b := !bitAt p0 5
  rr := !bitAt p0 4
  vvvv := ~~~(p1.extractLsb' 3 4)
  vv := !bitAt p2 3
  z := bitAt p2 7
  aaa := p2.extractLsb' 0 3

/-- The form an EVEX encoding selects (30_encoding.md R109): embedded rounding with a register operand and `b = 1`, else by
`L'L`; `L'L = 11` never gets here. -/
def evexForm (p : Prefixes) (e : Evex) (ll : BitVec 2) (b : Bool) (reg : BitVec 3) (rm : RmOperand) : Instr :=
  match rm, b with
  | .reg r, true => .vaddpdEvex512Er p e ll reg r
  | rm, b =>
    if ll = 0#2 then .vaddpdEvex128 p e b reg rm
    else if ll = 1#2 then .vaddpdEvex256 p e b reg rm
    else .vaddpdEvex512 p e b reg rm

/-- The encodings that are #UD once ModRM is known: `L'L = 11` without embedded rounding, and `z = 1` with `aaa = 000`
(30_encoding.md R109, R112). -/
def evexIllegal (e : Evex) (ll : BitVec 2) (b : Bool) (modrm : Byte) : Bool :=
  (ll == 3#2 && !(b && fieldHi modrm == 3#2)) || !e.maskOk

/-- The EVEX scheme after `62` (30_encoding.md R107 to R116). -/
def decodeEvex (mode : Mode) (total : Nat) (a : PrefixScan) (rex : Option Rex) : List Byte → Decoded
  | p0 :: p1 :: p2 :: op :: rest =>
    let ill := a.illegalBeforeVex rex || p0.extractLsb' 2 2 != 0#2 || !bitAt p1 2
    let e := evexOf p0 p1 p2
    let ll := p2.extractLsb' 5 2
    let b := bitAt p2 4
    selectForm ill (p0.extractLsb' 0 2 != 1#2 || p1.extractLsb' 0 2 != 1#2 || !bitAt p1 7 || op != 0x58#8)
      (mode == .mode32 && !e.low)
      (finish mode total a.a67 ill (evexIllegal e ll b) (evexForm a.prefixes e ll b) rest)
  | _ => .short

/-- Whether `C4`, `C5` or `62` begins a VEX or EVEX prefix: always in 64-bit mode, in 32-bit mode when bits 7:6 of the next
byte are both 1 (30_encoding.md R104, R114); `none` when that byte is needed and was not given. -/
def escapeByte (mode : Mode) : List Byte → Option Bool
  | [] => if mode = .mode64 then some true else none
  | b :: _ => some (mode == .mode64 || fieldHi b == 3#2)

/-- Step 3 of R116: the opcode byte or the first byte of a VEX or EVEX prefix. -/
def decodeOpcode (mode : Mode) (total : Nat) (a : PrefixScan) (rex : Option Rex) : List Byte → Decoded
  | [] => .short
  | op :: rest =>
    if op = 0x0F#8 then decodeLegacy mode total a rex rest
    else if op = 0xC5#8 ∨ op = 0xC4#8 ∨ op = 0x62#8 then
      match escapeByte mode rest with
      | none => .short
      | some false => .refused .otherInstruction
      | some true =>
        if op = 0xC5#8 then decodeVex2 mode total a rex rest
        else if op = 0xC4#8 then decodeVex3 mode total a rex rest
        else decodeEvex mode total a rex rest
    else .refused .otherInstruction

def rexOf (b : Byte) : Rex := ⟨bitAt b 3, bitAt b 2, bitAt b 1, bitAt b 0⟩

/-- Step 2 of R116: a REX byte, in 64-bit mode only; a legacy prefix after it is refused. -/
def decodeRex (mode : Mode) (total : Nat) (a : PrefixScan) : List Byte → Decoded
  | [] => .short
  | b :: rest =>
    if mode = .mode64 ∧ b.extractLsb' 4 4 = 4#4 then
      match rest with
      | [] => .short
      | c :: _ =>
        if (prefixByte c).isSome then .refused .redundantPrefix
        else decodeOpcode mode total a (some (rexOf b)) rest
    else decodeOpcode mode total a none (b :: rest)

/-- The decoder (30_encoding.md R116), on the bytes from the instruction's first on. -/
def decode (mode : Mode) (bs : List Byte) : Decoded :=
  if mode = .mode64 ∨ mode = .mode32 then
    match scanPrefixes bs {} with
    | .short => .short
    | .redundant => .refused .redundantPrefix
    | .done a rest => decodeRex mode bs.length a rest
  else .refused .modeOutOfScope

/-! The encoder. -/

def segByte : Seg → Byte
  | .es => 0x26#8
  | .cs => 0x2E#8
  | .ss => 0x36#8
  | .ds => 0x3E#8
  | .fs => 0x64#8
  | .gs => 0x65#8

/-- The optional prefix bytes, the segment override first (30_encoding.md R81). -/
def Prefixes.encode (p : Prefixes) : List Byte :=
  (match p.seg with
    | none => []
    | some s => [segByte s]) ++ (if p.a67 then [0x67#8] else [])

/-- A byte of fields of 2, 3 and 3 bits: ModRM or SIB (30_encoding.md R90, R93). -/
def byte233 (hi : BitVec 2) (mid lo : BitVec 3) : Byte := hi ++ mid ++ lo

def disp32Bytes (d : BitVec 32) : List Byte :=
  [d.extractLsb' 0 8, d.extractLsb' 8 8, d.extractLsb' 16 8, d.extractLsb' 24 8]

def Disp.mod : Disp → BitVec 2
  | .none => 0#2
  | .disp8 _ => 1#2
  | .disp32 _ => 2#2

def Disp.bytes : Disp → List Byte
  | .none => []
  | .disp8 d => [d]
  | .disp32 d => disp32Bytes d

/-- ModRM, SIB and displacement (30_encoding.md R90 to R94). -/
def RmOperand.encode (reg : BitVec 3) : RmOperand → List Byte
  | .reg rm => [byte233 3#2 reg rm]
  | .mem (.base rm disp) => byte233 disp.mod reg rm :: disp.bytes
  | .mem (.sib scale index base disp) => byte233 disp.mod reg 4#3 :: byte233 scale index base :: disp.bytes
  | .mem (.sibNoBase scale index disp) => byte233 0#2 reg 4#3 :: byte233 scale index 5#3 :: disp32Bytes disp
  | .mem (.dispOnly disp) => byte233 0#2 reg 5#3 :: disp32Bytes disp

/-- A bit, and a bit stored inverted. -/
def bit1 (b : Bool) : BitVec 1 := BitVec.ofBool b

def Rex.byte (x : Rex) : Byte := 4#4 ++ bit1 x.w ++ bit1 x.r ++ bit1 x.x ++ bit1 x.b

def Vex2.bytes (v : Vex2) (l : Bool) : List Byte :=
  [0xC5#8, bit1 (!v.r) ++ ~~~v.vvvv ++ bit1 l ++ 1#2]

def Vex3.bytes (v : Vex3) (l : Bool) : List Byte :=
  [0xC4#8, bit1 (!v.r) ++ bit1 (!v.x) ++ bit1 (!v.b) ++ 1#5, bit1 v.w ++ ~~~v.vvvv ++ bit1 l ++ 1#2]

def Evex.bytes (e : Evex) (ll : BitVec 2) (b : Bool) : List Byte :=
  [0x62#8, bit1 (!e.r) ++ bit1 (!e.x) ++ bit1 (!e.b) ++ bit1 (!e.rr) ++ 0#2 ++ 1#2,
    1#1 ++ ~~~e.vvvv ++ 1#1 ++ 1#2, bit1 e.z ++ ll ++ bit1 b ++ bit1 (!e.vv) ++ e.aaa]

/-- The bytes between the optional prefixes and ModRM: mandatory prefix, REX, VEX or EVEX, and the opcode
(30_encoding.md R84, R100, R101, R107). -/
def Instr.head : Instr → List Byte
  | .addpdSse _ _ _ => [0x66#8, 0x0F#8, 0x58#8]
  | .addpdSseRex _ rex _ _ => [0x66#8, rex.byte, 0x0F#8, 0x58#8]
  | .vaddpdVex128C5 _ v _ _ => v.bytes false ++ [0x58#8]
  | .vaddpdVex128C4 _ v _ _ => v.bytes false ++ [0x58#8]
  | .vaddpdVex256C5 _ v _ _ => v.bytes true ++ [0x58#8]
  | .vaddpdVex256C4 _ v _ _ => v.bytes true ++ [0x58#8]
  | .vaddpdEvex128 _ e b _ _ => e.bytes 0#2 b ++ [0x58#8]
  | .vaddpdEvex256 _ e b _ _ => e.bytes 1#2 b ++ [0x58#8]
  | .vaddpdEvex512 _ e b _ _ => e.bytes 2#2 b ++ [0x58#8]
  | .vaddpdEvex512Er _ e rc _ _ => e.bytes rc true ++ [0x58#8]

def Instr.prefixes : Instr → Prefixes
  | .addpdSse p _ _ | .addpdSseRex p _ _ _ | .vaddpdVex128C5 p _ _ _ | .vaddpdVex128C4 p _ _ _
  | .vaddpdVex256C5 p _ _ _ | .vaddpdVex256C4 p _ _ _ | .vaddpdEvex128 p _ _ _ _ | .vaddpdEvex256 p _ _ _ _
  | .vaddpdEvex512 p _ _ _ _ | .vaddpdEvex512Er p _ _ _ _ => p

def Instr.modrmReg : Instr → BitVec 3
  | .addpdSse _ r _ | .addpdSseRex _ _ r _ | .vaddpdVex128C5 _ _ r _ | .vaddpdVex128C4 _ _ r _
  | .vaddpdVex256C5 _ _ r _ | .vaddpdVex256C4 _ _ r _ | .vaddpdEvex128 _ _ _ r _ | .vaddpdEvex256 _ _ _ r _
  | .vaddpdEvex512 _ _ _ r _ | .vaddpdEvex512Er _ _ _ r _ => r

def Instr.operand : Instr → RmOperand
  | .addpdSse _ _ o | .addpdSseRex _ _ _ o | .vaddpdVex128C5 _ _ _ o | .vaddpdVex128C4 _ _ _ o
  | .vaddpdVex256C5 _ _ _ o | .vaddpdVex256C4 _ _ _ o | .vaddpdEvex128 _ _ _ _ o | .vaddpdEvex256 _ _ _ _ o
  | .vaddpdEvex512 _ _ _ _ o => o
  | .vaddpdEvex512Er _ _ _ _ r => .reg r

/-- The encoder: the instruction's bytes at increasing addresses (30_encoding.md R80, R81). -/
def encode (i : Instr) : List Byte :=
  i.prefixes.encode ++ i.head ++ i.operand.encode i.modrmReg

def Disp.length : Disp → Nat
  | .none => 0
  | .disp8 _ => 1
  | .disp32 _ => 4

/-- ModRM, SIB and displacement bytes of an operand (30_encoding.md R117). -/
def RmOperand.length : RmOperand → Nat
  | .reg _ => 1
  | .mem (.base _ d) => 1 + d.length
  | .mem (.sib _ _ _ d) => 2 + d.length
  | .mem (.sibNoBase _ _ _) => 6
  | .mem (.dispOnly _) => 5

def Prefixes.length (p : Prefixes) : Nat := p.seg.isSome.toNat + p.a67.toNat

/-- The bytes of the mandatory prefix, REX, VEX or EVEX and the opcode (30_encoding.md R117). -/
def Instr.headLength : Instr → Nat
  | .addpdSse _ _ _ => 1 + 2
  | .addpdSseRex _ _ _ _ => 1 + 1 + 2
  | .vaddpdVex128C5 _ _ _ _ | .vaddpdVex256C5 _ _ _ _ => 2 + 1
  | .vaddpdVex128C4 _ _ _ _ | .vaddpdVex256C4 _ _ _ _ => 3 + 1
  | .vaddpdEvex128 _ _ _ _ _ | .vaddpdEvex256 _ _ _ _ _ | .vaddpdEvex512 _ _ _ _ _ | .vaddpdEvex512Er _ _ _ _ _ => 4 + 1

/-- The length `len` of an instruction in bytes (30_encoding.md R117). -/
def Instr.length (i : Instr) : Nat := i.prefixes.length + i.headLength + i.operand.length

/-! Instructions placed as the opcode table numbers them. -/

/-- The low `8 * k` bits of `w` as bytes, the least significant first. -/
def bytesUp : Nat → Nat → List Byte
  | 0, _ => []
  | k + 1, w => BitVec.ofNat 8 w :: bytesUp k (w / 256)

def Decoded.isOk : Decoded → Bool
  | .ok _ _ => true
  | _ => false

/-- The longest instruction, in bytes (30_encoding.md R88). -/
def maxLength : Nat := 15

/-- The bytes, first instruction byte first, of an instruction whose bits are `w`, followed by zeros up to the longest
instruction. spec/opcode_table.json writes a row's bytes first byte first and reads them as ONE number, so the first
instruction byte is the most significant of the `nbits` bits; where those bytes are no instruction and the same bytes read
from the least significant end are one, these are taken (log entry 20). -/
def tableBytes (nbits w : Nat) : List Byte :=
  let up := bytesUp (nbits / 8) w
  let pad := fun bs : List Byte => bs ++ List.replicate (maxLength - bs.length) 0#8
  if (decode .mode64 (pad up.reverse)).isOk then pad up.reverse
  else if (decode .mode64 (pad up)).isOk then pad up
  else pad up.reverse

/-- The instruction the decoder reads, in 64-bit mode, from an instruction whose bits are `w` (30_encoding.md R128). -/
def decodeTableWord (nbits w : Nat) : Option Instr :=
  match decode .mode64 (tableBytes nbits w) with
  | .ok i _ => some i
  | _ => none

end Sys2Proof
end

