-- ==== Sys2Proof/Machine/State.lean ====
section
/-! DEFINITION. The state of the machine (10_state.md), the reasons a step can stop, and the machine after reset (R45). -/

namespace Sys2Proof.Machine

/-- Memory: the listed bytes by linear address (20_memory.md R50, R63), in the canonical form that `Memory.wf` of
Machine/Ops.lean states. -/
abbrev Memory := List Host.Cell

/-- Everything the spec gives the machine, as plain data. -/
structure State where
  /-- `ZMM[0..31]`; `XMM[n]` and `YMM[n]` are its low bits (R20, R21). -/
  zmm : Vector VecReg 32
  /-- The mask registers `K[0..7]` (R25). -/
  k : Vector (BitVec 64) 8
  /-- MXCSR (R27). -/
  mxcsr : BitVec 32
  /-- The general registers `x[0..15]` (R30). -/
  gpr : Vector (BitVec 64) 16
  /-- The segment bases, ES, CS, SS, DS, FS, GS (R31). -/
  segBase : Vector (BitVec 64) 6
  /-- `RIP`; in 32-bit mode EIP, zero-extended (R32). -/
  rip : Addr
  /-- EFLAGS: no form reads or writes its arithmetic flags (R34). -/
  eflags : BitVec 32
  /-- CR0 (R40). -/
  cr0 : BitVec 32
  /-- CR2: the linear address of the last page fault (20_memory.md R63, 60_exceptions.md R205). -/
  cr2 : Addr
  /-- CR4 (R41). -/
  cr4 : BitVec 32
  /-- XCR0 bits 7:0 (R42). -/
  xcr0 : BitVec 8
  /-- The current privilege level (R45, 60_exceptions.md R220). -/
  cpl : BitVec 2
  /-- The processor mode (00_scope.md R8). -/
  mode : Mode
  /-- Memory (20_memory.md R50). -/
  mem : Memory
  /-- The implementation's parameters, constant during a run (00_scope.md R8). -/
  cfg : Cfg
  /-- The MODEL's own: how many free values have been drawn (log entries 5, 6 and 13). -/
  draws : Nat
deriving DecidableEq, Repr

/-- The faults: `Fault(#X, code, info)` of 60_exceptions.md R212, each with the state at the fault (00_scope.md R17, R215).
An exception ends the run (R214, 92_eei_decisions.md D5), so every one of them is safe: nothing is claimed of a handler. -/
inductive Fault where
  /-- #UD, vector 6: raised by the decoder (30_encoding.md R120), by the enable checks (R201), and in place of #XM when
  CR4.OSXMMEXCPT = 0 (R207). Safe. -/
  | invalidOpcode (st : State)
  /-- #NM, vector 7: raised by every form when CR0.TS = 1 (R202). Safe. -/
  | deviceNotAvailable (st : State)
  /-- #SS(0), vector 12: raised by a memory operand in the stack segment (R203). Safe. -/
  | stackSegment (st : State)
  /-- #GP(0), vector 13: raised by a memory operand, by a misaligned operand of ADDPD, by an instruction longer than 15
  bytes and by a fetch at a non-canonical address (R204). Safe. -/
  | generalProtection (st : State)
  /-- #PF(code), vector 14, with the faulting linear address: raised by a memory operand and by the fetch (R205). Safe:
  which of several faulting bytes of an operand is reported is a free value (20_memory.md R65). -/
  | pageFault (code : BitVec 32) (info : Addr) (st : State)
  /-- #XM, vector 19: raised by an unmasked SIMD floating-point condition (R207). Safe: the flags it leaves open are a free
  value (40_numerics_double_add.md R153). -/
  | simdFloatingPoint (st : State)
deriving DecidableEq, Repr

/-- The refusals: situations the spec gives no meaning (00_scope.md R12, R17). Every one is safe: nothing can be proved of
what the hardware does there. -/
inductive Refusal where
  /-- An instruction that has no meaning in the model yet: raised by exec's arms only. Safe. -/
  | notModelled (mnemonic : String)
  /-- A mode out of scope: raised by `premises` (00_scope.md R6). Safe. -/
  | modeOutOfScope
  /-- Alignment checking is on: raised by `premises` (20_memory.md R58). Safe. -/
  | alignmentChecking
  /-- A reserved bit of MXCSR is set: raised by `premises` (93_implementation_defined.md U5, 70_reset_and_hazards.md R246). Safe. -/
  | mxcsrReserved
  /-- EFLAGS.TF is set: raised by `premises` (70_reset_and_hazards.md R246, 60_exceptions.md R224). Safe. -/
  | singleStepping
  /-- The bytes spell an instruction out of scope, or none: raised by the decoder (30_encoding.md R121). Safe. -/
  | otherInstruction
  /-- A redundant or misplaced prefix: raised by the decoder (30_encoding.md R87). Safe. -/
  | redundantPrefix
  /-- A register-extension bit stored as 0 in 32-bit mode: raised by the decoder (30_encoding.md R104, R114). Safe. -/
  | mode32Extension
  /-- 16-bit addressing: raised by the decoder (30_encoding.md R97). Safe. -/
  | address16
  /-- An instruction byte or the next `RIP` outside the address range: raised by the fetch and by `advance`
  (10_state.md R33). Safe. -/
  | ripOutOfRange
  /-- A 32-bit mode access with `ea + n > 2^32`: raised by the operand read (20_memory.md R62). Safe. -/
  | operandCrosses4G
  /-- A masked-off element is inaccessible and fault suppression is not asserted: raised by the operand read of the EVEX
  forms (20_memory.md R66). Safe. -/
  | maskedElementInaccessible
deriving DecidableEq, Repr

/-- The machine after power-up or RESET (10_state.md R45): real-address mode, privilege level 0, the reset vector. EDX, CR2,
memory, the configuration and the draw counter have no value in the spec: log entries 1 to 4 (DESIGN CHOICE). -/
def State.reset : State where
  zmm := Vector.replicate 32 0#512
  k := Vector.replicate 8 0#64
  mxcsr := 0x1F80#32
  gpr := Vector.replicate 16 0#64
  segBase := #v[0#64, 0xFFFF0000#64, 0#64, 0#64, 0#64, 0#64]
  rip := 0xFFF0#64
  eflags := 0x00000002#32
  cr0 := 0x60000010#32
  cr2 := 0#64
  cr4 := 0#32
  xcr0 := 1#8
  cpl := 0#2
  mode := .realAddress
  mem := []
  cfg := Cfg.common
  draws := 0

end Sys2Proof.Machine
end

