-- ==== Sys2Proof/Machine/Fadd.lean ====
section
/-! DEFINITION. The double-precision addition of one lane (40_numerics_double_add.md R130 to R149), in exact integer
arithmetic: every finite value is an integer multiple of 2^-1074 (R131, R148), the unit of this file. -/

namespace Sys2Proof.Machine

/-- Sign, biased exponent and fraction (R130). -/
def sign (a : Double) : Bool := a.getLsbD 63
def expo (a : Double) : Nat := (a.extractLsb' 52 11).toNat
def frac (a : Double) : Nat := (a.extractLsb' 0 52).toNat

/-- The classes (R131). -/
def isZero (a : Double) : Bool := expo a == 0 && frac a == 0
def isDenormal (a : Double) : Bool := expo a == 0 && frac a != 0
def isInf (a : Double) : Bool := expo a == 2047 && frac a == 0
def isNaN (a : Double) : Bool := expo a == 2047 && frac a != 0
def isSNaN (a : Double) : Bool := isNaN a && !a.getLsbD 51
def isFinite (a : Double) : Bool := expo a != 2047

/-- The value of a finite pattern in units of 2^-1074 (R131): `f` for a denormal, `(2^52 + f) * 2^(e - 1)` for a normal. -/
def magnitude (a : Double) : Nat :=
  if expo a = 0 then frac a else (2 ^ 52 + frac a) * 2 ^ (expo a - 1)

def value (a : Double) : Int := if sign a then -(magnitude a : Int) else (magnitude a : Int)

/-- The named constants (R132); `maxfUnits` and `minnUnits` are MAXF and MINN in units of 2^-1074. -/
def posInf : Double := 0x7FF0000000000000#64
def negInf : Double := 0xFFF0000000000000#64
def maxf : Double := 0x7FEFFFFFFFFFFFFF#64
def negMaxf : Double := 0xFFEFFFFFFFFFFFFF#64
def qind : Double := 0xFFF8000000000000#64
def quiet (a : Double) : Double := a ||| 0x0008000000000000#64
def maxfUnits : Nat := (2 ^ 53 - 1) * 2 ^ 2045
def minnUnits : Nat := 2 ^ 52

/-- A zero with the given sign. -/
def zeroOf (neg : Bool) : Double := if neg then 0x8000000000000000#64 else 0#64

/-- Assembles sign, biased exponent and fraction (R130). -/
def pack (neg : Bool) (e f : Nat) : Double := BitVec.ofBool neg ++ BitVec.ofNat 11 e ++ BitVec.ofNat 52 f

/-- The rounding modes (R133). -/
inductive Rounding where
  | rn | rd | ru | rz
deriving DecidableEq, Repr

/-- The two-bit coding of `MXCSR.RC` and `EVEX.RC` (R133). -/
def Rounding.ofBits (rc : BitVec 2) : Rounding :=
  if rc = 0#2 then .rn else if rc = 1#2 then .rd else if rc = 2#2 then .ru else .rz

/-- Whether the magnitude `n + rem / 2^sh` is rounded up (R134). -/
def roundUp (neg : Bool) (n rem sh : Nat) : Rounding → Bool
  | .rn => decide (2 ^ sh < 2 * rem) || (2 * rem == 2 ^ sh && n % 2 == 1)
  | .rd => neg && rem != 0
  | .ru => !neg && rem != 0
  | .rz => false

/-- `round53` of a non-zero magnitude `m` with the given sign (R134): the rounded magnitude and whether it is inexact. -/
def round53 (neg : Bool) (m : Nat) (rm : Rounding) : Nat × Bool :=
  let sh := Nat.log2 m - 52
  let n := m / 2 ^ sh
  let rem := m % 2 ^ sh
  ((if roundUp neg n rem sh rm then n + 1 else n) * 2 ^ sh, rem != 0)

/-- The normal pattern whose magnitude is `r` (R139 step 12). -/
def encodeNormal (neg : Bool) (r : Nat) : Double :=
  pack neg (Nat.log2 r - 51) (r / 2 ^ (Nat.log2 r - 52) - 2 ^ 52)

/-- The masked overflow result (R140). -/
def overflowResult (neg : Bool) : Rounding → Double
  | .rn => if neg then negInf else posInf
  | .rd => if neg then negInf else maxf
  | .ru => if neg then negMaxf else posInf
  | .rz => if neg then negMaxf else maxf

/-- A set of exception conditions out of I, D, O, U, P (R139, R146). -/
structure Conds where
  i : Bool := false
  d : Bool := false
  o : Bool := false
  u : Bool := false
  p : Bool := false
deriving DecidableEq, Repr

/-- What `fadd64` returns: the result, the pre-computation and the post-computation conditions (R139). -/
structure FaddOut where
  res : Double
  pre : Conds := {}
  post : Conds := {}
deriving DecidableEq, Repr

/-- Denormals-are-zeros (R135). -/
def applyDaz (daz : Bool) (a : Double) : Double := if daz && isDenormal a then zeroOf (sign a) else a

/-- The exact zero sum of two finite operands (R138). -/
def zeroSum (a b : Double) (rm : Rounding) : Double :=
  if isZero a && isZero b && sign a == sign b then a else zeroOf (rm == .rd)

/-- Steps 9 to 12 of R139 and the tiny results of R141, for a non-zero exact sum `x`. -/
def deliver (x : Int) (rm : Rounding) (ftz um : Bool) (pre : Conds) : FaddOut :=
  let neg := decide (x < 0)
  let (r, inexact) := round53 neg x.natAbs rm
  if maxfUnits < r then ⟨overflowResult neg rm, pre, { o := true, p := true }⟩
  else if r < minnUnits then
    if !um then ⟨pack neg 0 x.natAbs, pre, { u := true }⟩
    else if ftz then ⟨zeroOf neg, pre, { u := true, p := true }⟩
    else ⟨pack neg 0 x.natAbs, pre, {}⟩
  else ⟨encodeNormal neg r, pre, { p := inexact }⟩

/-- Steps 2 to 12 of R139, on operands to which `daz` has been applied. -/
def addOperands (a b : Double) (rm : Rounding) (ftz um : Bool) : FaddOut :=
  let snan := isSNaN a || isSNaN b
  if isNaN a then ⟨quiet a, { i := snan }, {}⟩
  else if isNaN b then ⟨quiet b, { i := snan }, {}⟩
  else if isInf a && isInf b && sign a != sign b then ⟨qind, { i := true }, {}⟩
  else
    let pre : Conds := { d := isDenormal a || isDenormal b }
    if isInf a then ⟨a, pre, {}⟩
    else if isInf b then ⟨b, pre, {}⟩
    else if value a + value b = 0 then ⟨zeroSum a b rm, pre, {}⟩
    else deliver (value a + value b) rm ftz um pre

/-- The lane addition (R139). Where underflow is unmasked the result of a tiny sum is not used (R141). -/
def fadd64 (a b : Double) (rm : Rounding) (daz ftz um : Bool) : FaddOut :=
  addOperands (applyDaz daz a) (applyDaz daz b) rm ftz um

end Sys2Proof.Machine
end

