-- ==== Sys2Proof/Machine/Flags.lean ====
section
/-! DEFINITION. The fields of MXCSR, EFLAGS, CR0, CR4 and XCR0 that the forms read, and the flag computations
(10_state.md R27 to R29, R40 to R42; 40_numerics_double_add.md R146, R150, R152). -/

namespace Sys2Proof.Machine

/-- `MXCSR.DAZ`, `MXCSR.FTZ`, `MXCSR.RC` and the five mask bits (10_state.md R27). -/
def State.daz (s : State) : Bool := s.mxcsr.getLsbD 6
def State.ftz (s : State) : Bool := s.mxcsr.getLsbD 15
def State.rc (s : State) : Rounding := Rounding.ofBits (s.mxcsr.extractLsb' 13 2)
def State.im (s : State) : Bool := s.mxcsr.getLsbD 7
def State.dm (s : State) : Bool := s.mxcsr.getLsbD 8
def State.om (s : State) : Bool := s.mxcsr.getLsbD 10
def State.um (s : State) : Bool := s.mxcsr.getLsbD 11
def State.pm (s : State) : Bool := s.mxcsr.getLsbD 12

/-- The reserved bits 31:16 of MXCSR are zero (10_state.md R27). -/
def State.mxcsrOk (s : State) : Bool := s.mxcsr.extractLsb' 16 16 == 0#16

/-- EFLAGS.TF and EFLAGS.AC; their places are PRESUMED (log entry 8). -/
def State.tf (s : State) : Bool := s.eflags.getLsbD 8
def State.ac (s : State) : Bool := s.eflags.getLsbD 18

/-- CR0.EM, CR0.TS, CR0.AM (10_state.md R40). -/
def State.em (s : State) : Bool := s.cr0.getLsbD 2
def State.ts (s : State) : Bool := s.cr0.getLsbD 3
def State.am (s : State) : Bool := s.cr0.getLsbD 18

/-- CR4.OSFXSR, CR4.OSXMMEXCPT, CR4.OSXSAVE (10_state.md R41). -/
def State.osfxsr (s : State) : Bool := s.cr4.getLsbD 9
def State.osxmmexcpt (s : State) : Bool := s.cr4.getLsbD 10
def State.osxsave (s : State) : Bool := s.cr4.getLsbD 18

/-- `XCR0[2:1] = 11` and `XCR0[7:5] = 111` (10_state.md R42). -/
def State.avxState (s : State) : Bool := s.xcr0.extractLsb' 1 2 == 3#2
def State.avx512State (s : State) : Bool := s.xcr0.extractLsb' 5 3 == 7#3

/-- Alignment checking is on: CR0.AM, EFLAGS.AC and level 3 (20_memory.md R58, 00_scope.md R8). -/
def State.alignCheck (s : State) : Bool := s.am && s.ac && s.cpl == 3#2

/-- The MXCSR flag bits of a set of conditions (40_numerics_double_add.md R146). -/
def Conds.bits (c : Conds) : BitVec 32 :=
  (if c.i then 0x01#32 else 0#32) ||| (if c.d then 0x02#32 else 0#32) ||| (if c.o then 0x08#32 else 0#32) |||
    (if c.u then 0x10#32 else 0#32) ||| (if c.p then 0x20#32 else 0#32)

def Conds.union (a b : Conds) : Conds := ⟨a.i || b.i, a.d || b.d, a.o || b.o, a.u || b.u, a.p || b.p⟩

/-- The union over the active lanes (40_numerics_double_add.md R150). -/
def Conds.unions : List Conds → Conds
  | [] => {}
  | c :: cs => c.union (Conds.unions cs)

/-- The conditions whose MXCSR mask bit is 0 (40_numerics_double_add.md R146, R150). -/
def Conds.unmasked (c : Conds) (s : State) : Conds :=
  ⟨c.i && !s.im, c.d && !s.dm, c.o && !s.om, c.u && !s.um, c.p && !s.pm⟩

def Conds.any (c : Conds) : Bool := c.i || c.d || c.o || c.u || c.p

/-- The sticky OR of the conditions into MXCSR (40_numerics_double_add.md R152). -/
def State.orFlags (s : State) (c : Conds) : State := { s with mxcsr := s.mxcsr ||| c.bits }

end Sys2Proof.Machine
end

