-- ==== Sys2Proof/Machine/Ops.lean ====
section
/-! DEFINITION. The named operations over memory and registers, the launch premises, the enable checks, and taking an
exception as one operation. -/

namespace Sys2Proof.Machine

/-- The outcome of an operation of the machine that yields a value, on the way to the outcome of a step. -/
abbrev Result (α : Type) := Host.Outcome α Fault Refusal

/-- Sequencing: the first fault or refusal is the outcome. -/
def andThen {α β : Type} (o : Result α) (f : α → Result β) : Result β :=
  match o with
  | .next a => f a
  | .fault r => .fault r
  | .refused r => .refused r

/-! Memory. -/

/-- What an address that is not listed reads as (DESIGN CHOICE, log entry 2: the spec gives memory no contents at reset). -/
def Memory.unlisted : Byte := 0#8

/-- The byte at an address. -/
def Memory.read : Memory → Nat → Byte
  | [], _ => Memory.unlisted
  | (k, b) :: m, a => if k = a then b else Memory.read m a

/-- Writes a byte, keeping the canonical form. No instruction writes memory (20_memory.md R52); placing a program does. -/
def Memory.write : Memory → Nat → Byte → Memory
  | [], a, b => if b = Memory.unlisted then [] else [(a, b)]
  | (k, c) :: m, a, b =>
    if a < k then (if b = Memory.unlisted then (k, c) :: m else (a, b) :: (k, c) :: m)
    else if a = k then (if b = Memory.unlisted then m else (a, b) :: m)
    else (k, c) :: Memory.write m a b

/-- The canonical form from address `lo` on: addresses strictly rising and below 2^64, no entry equal to what an unlisted
address reads as. -/
def Memory.wfFrom : Nat → Memory → Bool
  | _, [] => true
  | lo, (k, b) :: m => decide (lo ≤ k) && decide (k < 2 ^ 64) && b != Memory.unlisted && Memory.wfFrom (k + 1) m

def Memory.wf (m : Memory) : Bool := Memory.wfFrom 0 m

/-- The byte at a linear address (20_memory.md R50). -/
def State.byteAt (s : State) (a : Addr) : Byte := Memory.read s.mem a.toNat

/-! Parameters that the configuration determines. -/

/-- `MAXVL` (00_scope.md R7). -/
def maxvl (c : Cfg) : Nat := if c.avx512f then 512 else if c.avx then 256 else 128

/-- `NVEC`, the number of vector registers that can be named (00_scope.md R8). -/
def nvec (c : Cfg) (m : Mode) : Nat := if m = .mode64 then (if c.avx512f then 32 else 16) else 8

def vaBits : VaBits → Nat
  | .va48 => 48
  | .va57 => 57

/-- `Cfg.Translate`: the page-fault code at a byte, if it faults (20_memory.md R63). -/
def translate (c : Cfg) (a : Addr) (kind : AccessKind) (cpl : BitVec 2) : Option (BitVec 32) :=
  (c.pageFaults.find? fun e => decide (e.lo ≤ a) && decide (a ≤ e.hi) && e.kind == kind && e.cpl == cpl).map (·.code)

/-- `Cfg.SegCheck` of an access to `n` bytes at the effective address `ea` of a segment (20_memory.md R62; held as a list of
refused accesses: log entry 10). -/
def segCheck (c : Cfg) (seg : Seg) (ea : Addr) (n : Nat) : Bool :=
  c.segDenied.all fun d =>
    !(d.seg == seg && decide (d.lo ≤ ea) && decide (ea ≤ d.hi) && decide (d.minSize ≤ n) && decide (n ≤ d.maxSize))

/-- A canonical linear address: bits 63 down to `VABITS - 1` all equal (20_memory.md R62). -/
def canonical (v : VaBits) (a : Addr) : Bool :=
  let hi := a >>> (vaBits v - 1)
  hi == 0#64 || hi == BitVec.allOnes 64 >>> (vaBits v - 1)

/-! Registers. -/

/-- The number of a vector register from its extension bits and low 3 bits (30_encoding.md R85, R103, R113). -/
def vecNum (hi mid : Bool) (lo : BitVec 3) : BitVec 5 := bit1 hi ++ bit1 mid ++ lo

/-- The number of a general register (30_encoding.md R92, R93). -/
def gprNum (hi : Bool) (lo : BitVec 3) : BitVec 4 := bit1 hi ++ lo

def State.vec (s : State) (n : BitVec 5) : VecReg := s.zmm[n.toNat]'(by have := n.isLt; omega)

def State.setVec (s : State) (n : BitVec 5) (v : VecReg) : State :=
  { s with zmm := s.zmm.set n.toNat v (by have := n.isLt; omega) }

def State.x (s : State) (n : BitVec 4) : BitVec 64 := s.gpr[n.toNat]'(by have := n.isLt; omega)

def State.kreg (s : State) (n : BitVec 3) : BitVec 64 := s.k[n.toNat]'(by have := n.isLt; omega)

def segNum : Seg → Fin 6
  | .es => 0
  | .cs => 1
  | .ss => 2
  | .ds => 3
  | .fs => 4
  | .gs => 5

def State.base (s : State) (seg : Seg) : Addr := s.segBase[segNum seg]

/-- Lane `j` of a vector register: `v[64j+63:64j]` (00_scope.md R15). -/
def lane (v : VecReg) (j : Nat) : Double := v.extractLsb' (64 * j) 64

/-- Writes the `len` bits of `v` from bit `lo` on, leaving every other bit (00_scope.md R12). -/
def setSlice (v : VecReg) (lo len : Nat) (x : VecReg) : VecReg :=
  let mask := ((BitVec.allOnes 512 >>> (512 - len)) <<< lo : VecReg)
  (v &&& ~~~mask) ||| ((x <<< lo) &&& mask)

def setLane (v : VecReg) (j : Nat) (x : Double) : VecReg := setSlice v (64 * j) 64 (x.setWidth 512)

/-- `v[MAXVL-1:VL] <- 0`; nothing where `MAXVL <= VL` (00_scope.md R7). -/
def zeroUpper (maxvl vl : Nat) (v : VecReg) : VecReg := setSlice v vl (maxvl - vl) 0#512

/-! Exceptions. -/

/-- The exceptions of 60_exceptions.md R200 that the forms raise. -/
inductive Exn where
  | ud | nm | ss | gp
  | pf (code : BitVec 32) (info : Addr)
  | xm
deriving DecidableEq, Repr

/-- Taking an exception (60_exceptions.md R212, R214, R215): the run ends with the fault and the state at it; a page fault
records its address in CR2 (R205). `s` is the state before the instruction, with the MXCSR flags where R153 updates them.
There is no return from an exception (R216). -/
def raise {α : Type} (e : Exn) (s : State) : Result α :=
  match e with
  | .ud => .fault (.invalidOpcode s)
  | .nm => .fault (.deviceNotAvailable s)
  | .ss => .fault (.stackSegment s)
  | .gp => .fault (.generalProtection s)
  | .pf code info => .fault (.pageFault code info { s with cr2 := info })
  | .xm => .fault (.simdFloatingPoint s)

/-- The draw `F` of 40_numerics_double_add.md R153: the flags of `cause`, and of `seen` whichever the free value picks. -/
def drawFlags (cause seen : Conds) (free : BitVec 32) : BitVec 32 := cause.bits ||| (free &&& seen.bits)

/-- The state at a SIMD floating-point fault: the flags are OR-ed in and nothing else is written (R153). -/
def simdFaultState (cause seen : Conds) (s : State) : State :=
  { s with mxcsr := s.mxcsr ||| drawFlags cause seen (Config.freeSimdFlags s.draws), draws := s.draws + 1 }

/-- A SIMD floating-point fault: #XM, or #UD when CR4.OSXMMEXCPT = 0 (R153, 60_exceptions.md R207). -/
def raiseSimd {α : Type} (cause seen : Conds) (s : State) : Result α :=
  raise (if s.osxmmexcpt then .xm else .ud) (simdFaultState cause seen s)

/-- The vector number of a fault (60_exceptions.md R200). -/
def faultVector : Fault → Nat
  | .invalidOpcode _ => 6
  | .deviceNotAvailable _ => 7
  | .stackSegment _ => 12
  | .generalProtection _ => 13
  | .pageFault _ _ _ => 14
  | .simdFloatingPoint _ => 19

/-- The error code of a fault, where it has one (60_exceptions.md R200). -/
def faultCode : Fault → Option (BitVec 32)
  | .stackSegment _ | .generalProtection _ => some 0#32
  | .pageFault code _ _ => some code
  | .invalidOpcode _ | .deviceNotAvailable _ | .simdFloatingPoint _ => none

/-- The state at the fault (00_scope.md R17). -/
def faultState : Fault → State
  | .invalidOpcode s | .deviceNotAvailable s | .stackSegment s | .generalProtection s | .pageFault _ _ s
  | .simdFloatingPoint s => s

/-! Premises and enables. -/

/-- The launch premises a state can break: a mode out of scope, alignment checking, single-stepping, a reserved bit of
MXCSR (70_reset_and_hazards.md R246, 20_memory.md R58). `none` when they hold. -/
def premises (s : State) : Option Refusal :=
  if s.mode ≠ .mode64 ∧ s.mode ≠ .mode32 then some .modeOutOfScope
  else if s.alignCheck then some .alignmentChecking
  else if s.tf then some .singleStepping
  else if !s.mxcsrOk then some .mxcsrReserved
  else none

/-- The columns of 60_exceptions.md R201. -/
inductive EnableClass where
  | sse | vex | evexVl | evex512
deriving DecidableEq, Repr

/-- The #UD causes of 60_exceptions.md R201 that are no matter of the encoding. That CR0.EM is tested by form F1 only follows
R201 and 42_vaddpd_vex.md R173, where 10_state.md R40 says every form (DESIGN CHOICE, log entry 24). Of XCR0 only bits 2:1 and
7:5 are tested, as the rows of R201 and 10_state.md R42 say; 70_reset_and_hazards.md R246 says that R201 gives #UD also to an
XCR0 with bit 0 clear, or with bits 7:5 unequal, which these rows do not do for every form (DESIGN CHOICE, log entry 26). -/
def disabled (c : EnableClass) (s : State) : Bool :=
  match c with
  | .sse => !s.cfg.sse2 || s.em || !s.osfxsr
  | .vex => !s.cfg.avx || !s.osxsave || !s.avxState
  | .evexVl => !s.cfg.avx512f || !s.cfg.avx512vl || !s.osxsave || !s.avxState || !s.avx512State
  | .evex512 => !s.cfg.avx512f || !s.osxsave || !s.avxState || !s.avx512State

/-- The checks before any operand is read: the premises, #UD, then #NM (60_exceptions.md R201, R202, R211). -/
def checkEnabled (c : EnableClass) (s : State) : Result Unit :=
  match premises s with
  | some r => .refused r
  | none => if disabled c s then raise .ud s else if s.ts then raise .nm s else .next ()

/-! The instruction pointer. -/

/-- An address `RIP` can hold: below 2^32 in 32-bit mode, canonical in 64-bit mode (10_state.md R33). -/
def ripOk (s : State) (a : Nat) : Bool :=
  if s.mode = .mode64 then decide (a < 2 ^ 64) && canonical s.cfg.vabits (BitVec.ofNat 64 a) else decide (a < 2 ^ 32)

/-- `RIP <- RIP + len`, refused where that is not representable (10_state.md R33). `s` has the results written. -/
def advance (len : Nat) (s : State) : Result State :=
  if ripOk s (s.rip.toNat + len) then .next { s with rip := BitVec.ofNat 64 (s.rip.toNat + len) }
  else .refused .ripOutOfRange

end Sys2Proof.Machine
end

