-- ==== Sys2Proof/Machine/Operands.lean ====
section
/-! DEFINITION. Every operand form: effective and linear addresses (20_memory.md R60, R61), the checks and the read of a
memory operand (R62 to R66), register operands, the writemask. -/

namespace Sys2Proof.Machine

/-! The effective address. -/

/-- Whether the address size is 32 (30_encoding.md R97). -/
def addr32 (s : State) (p : Prefixes) : Bool := s.mode != .mode64 || p.a67

/-- A value modulo `2^asz`, zero-extended (20_memory.md R60). -/
def modAsz (a32 : Bool) (v : Addr) : Addr := if a32 then (v.setWidth 32).setWidth 64 else v

/-- The displacement; `n` scales an 8-bit one (20_memory.md R60, 30_encoding.md R98). -/
def dispValue (n : Nat) : Disp → Addr
  | .none => 0#64
  | .disp8 d => d.signExtend 64 * BitVec.ofNat 64 n
  | .disp32 d => d.signExtend 64

/-- The index register, or zero where the number is 4 (20_memory.md R60, 30_encoding.md R93). -/
def indexValue (s : State) (a32 x : Bool) (index : BitVec 3) : Addr :=
  if gprNum x index = 4#4 then 0#64 else modAsz a32 (s.x (gprNum x index))

/-- The effective address (20_memory.md R60). `x` and `b` are the extension bits, `n` the scale of an 8-bit displacement,
`len` the length of the instruction. -/
def effectiveAddress (s : State) (p : Prefixes) (x b : Bool) (n len : Nat) (m : MemOperand) : Addr :=
  let a32 := addr32 s p
  match m with
  | .base rm disp => modAsz a32 (modAsz a32 (s.x (gprNum b rm)) + dispValue n disp)
  | .sib scale index lo disp =>
      modAsz a32 (modAsz a32 (s.x (gprNum b lo)) + indexValue s a32 x index <<< scale.toNat + dispValue n disp)
  | .sibNoBase scale index disp => modAsz a32 (indexValue s a32 x index <<< scale.toNat + disp.signExtend 64)
  | .dispOnly disp =>
      if s.mode = .mode64 then modAsz a32 (s.rip + BitVec.ofNat 64 len + disp.signExtend 64)
      else modAsz a32 (disp.signExtend 64)

/-- The number of the base register, if there is one. -/
def baseRegister (b : Bool) : MemOperand → Option (BitVec 4)
  | .base rm _ => some (gprNum b rm)
  | .sib _ _ lo _ => some (gprNum b lo)
  | .sibNoBase _ _ _ => none
  | .dispOnly _ => none

/-- The segment of an addressing form without an override: SS for base register 4 or 5, else DS (20_memory.md R61,
30_encoding.md R96). -/
def defaultSegment (b : Bool) (m : MemOperand) : Seg :=
  if baseRegister b m = some 4#4 ∨ baseRegister b m = some 5#4 then .ss else .ds

/-- The segment: the override, else the default (20_memory.md R61, 30_encoding.md R96). -/
def segmentOf (p : Prefixes) (b : Bool) (m : MemOperand) : Seg := p.seg.getD (defaultSegment b m)

/-! The linear address. -/

/-- The segment base that is added: in 64-bit mode only those of FS and GS (20_memory.md R61). -/
def linearBase (s : State) (seg : Seg) : Addr :=
  if s.mode = .mode64 ∧ seg ≠ .fs ∧ seg ≠ .gs then 0#64 else s.base seg

/-- A linear address: 64 bits in 64-bit mode, 32 bits in 32-bit mode (20_memory.md R50, R61). -/
def wrapLinear (m : Mode) (a : Addr) : Addr := if m = .mode64 then a else (a.setWidth 32).setWidth 64

/-- The linear address of byte `off` of the operand at `(seg, ea)` (20_memory.md R61; that a later byte wraps like the first
is DEDUCED from R61 and R75, log entry 11). -/
def linear (s : State) (seg : Seg) (ea : Addr) (off : Nat) : Addr :=
  wrapLinear s.mode (linearBase s seg + ea + BitVec.ofNat 64 off)

/-! The checks of a memory operand, on the bytes at the offsets `offs`. -/

/-- `ea + n > 2^32` in 32-bit mode (20_memory.md R62). -/
def crosses4G (s : State) (ea : Addr) (offs : List Nat) : Bool :=
  s.mode == .mode32 && offs.any fun o => decide (2 ^ 32 < ea.toNat + o + 1)

/-- The contiguous pieces of a rising list of offsets: first offset and number of bytes of each. -/
def pieces : List Nat → List (Nat × Nat)
  | [] => []
  | o :: os =>
    match pieces os with
    | [] => [(o, 1)]
    | (q, n) :: ps => if q = o + 1 then (o, n + 1) :: ps else (o, 1) :: (q, n) :: ps

/-- The segment checks (20_memory.md R62): canonical bytes in 64-bit mode, `Cfg.SegCheck` in 32-bit mode. The bytes that a
masked form accesses (R66) are asked piece by contiguous piece (DESIGN CHOICE, log entry 10). -/
def segmentOk (s : State) (seg : Seg) (ea : Addr) (offs : List Nat) : Bool :=
  if s.mode = .mode64 then offs.all fun o => canonical s.cfg.vabits (linear s seg ea o)
  else (pieces offs).all fun q => segCheck s.cfg seg (ea + BitVec.ofNat 64 q.1) q.2

/-- The code and linear address of every byte that `Cfg.Translate` refuses, in increasing offset (20_memory.md R63). -/
def refusedBytes (s : State) (seg : Seg) (ea : Addr) (offs : List Nat) : List (BitVec 32 × Addr) :=
  offs.filterMap fun o =>
    (translate s.cfg (linear s seg ea o) .dataRead s.cpl).map fun code => (code, linear s seg ea o)

/-- Step 4 of `MemRead` (20_memory.md R64): #PF where a byte is refused. Of several refused bytes a free value picks the one
reported: R65 lets no claim depend on its being the lowest, 92_eei_decisions.md lists it among the draws (log entry 13). -/
def pageCheck (s : State) : List (BitVec 32 × Addr) → Result Unit
  | [] => .next ()
  | [e] => raise (.pf e.1 e.2) s
  | e :: es =>
    let q := (e :: es).getD (Config.freeFaultByte s.draws) e
    raise (.pf q.1 q.2) { s with draws := s.draws + 1 }

/-- The linear address of the operand is a multiple of 16 (20_memory.md R56). -/
def aligned16 (s : State) (seg : Seg) (ea : Addr) : Bool := (linear s seg ea 0).extractLsb' 0 4 == 0#4

/-- In 64-bit mode an override of ES, CS, SS or DS moves the operand into or out of SS: the rules disagree on whether that
counts (log entry 22). -/
def overrideContested (s : State) (seg dflt : Seg) : Bool :=
  s.mode == .mode64 && seg != .fs && seg != .gs && (seg == .ss) != (dflt == .ss)

/-- Whether a failing segment check is one of the stack segment: that of the override (20_memory.md R61, R62, 60_exceptions.md
R203), or, where a free value chooses 30_encoding.md R83 and R122, that of the form without it (log entry 22). -/
def reportsStack (s : State) (seg dflt : Seg) : Bool :=
  if overrideContested s seg dflt && !Config.freeOverrideCounts s.draws then dflt == .ss else seg == .ss

/-- The exception of a failing segment check: #SS(0) in the stack segment, else #GP(0); in the tie with the alignment check a
free value chooses (20_memory.md R62, R64; 92_eei_decisions.md D13). -/
def segmentFault (s : State) (seg dflt : Seg) (misaligned : Bool) : Result Unit :=
  let drawn := { s with draws := s.draws + 1 }
  if reportsStack s seg dflt && misaligned then raise (if Config.freeTieIsGp s.draws then .gp else .ss) drawn
  else raise (if reportsStack s seg dflt then .ss else .gp) (if overrideContested s seg dflt then drawn else s)

/-- Steps 1 to 4 of `MemRead` (20_memory.md R64). `align` is the alignment check of ADDPD. -/
def checkOperand (s : State) (seg dflt : Seg) (ea : Addr) (align : Bool) (offs : List Nat) : Result Unit :=
  let misaligned := align && !aligned16 s seg ea
  if crosses4G s ea offs then .refused .operandCrosses4G
  else if !segmentOk s seg ea offs then segmentFault s seg dflt misaligned
  else if misaligned then raise .gp s
  else pageCheck s (refusedBytes s seg ea offs)

/-- The same checks pass (20_memory.md R66 step 2). -/
def accessible (s : State) (seg : Seg) (ea : Addr) (offs : List Nat) : Bool :=
  !crosses4G s ea offs && segmentOk s seg ea offs && (refusedBytes s seg ea offs).isEmpty

/-- The 8 bytes at offset `off` of the operand, the lowest address least significant (20_memory.md R53, R54). -/
def readLane (s : State) (seg : Seg) (ea : Addr) (off : Nat) : Double :=
  let b := fun i => s.byteAt (linear s seg ea (off + i))
  b 7 ++ b 6 ++ b 5 ++ b 4 ++ b 3 ++ b 2 ++ b 1 ++ b 0

/-! Operands by lane. -/

/-- The active lanes (43_vaddpd_evex.md R184): all without a writemask, else the bits of `K[aaa]`. -/
def activeLanes (s : State) (kl : Nat) (aaa : BitVec 3) : List Bool :=
  (List.range kl).map fun j => aaa == 0#3 || (s.kreg aaa).getLsbD j

/-- The second source: a register, or a memory operand, with or without broadcast, in the segment `seg`; `dflt` is the
segment its addressing form has without an override. -/
inductive Source where
  | reg (n : BitVec 5)
  | mem (seg dflt : Seg) (ea : Addr) (bcast : Bool)
deriving DecidableEq, Repr

/-- The offset of the 8 bytes of lane `j` (20_memory.md R66 step 3). -/
def laneOffset (bcast : Bool) (j : Nat) : Nat := if bcast then 0 else 8 * j

/-- The offsets of the bytes of 8-byte element `k`. -/
def elementBytes (k : Nat) : List Nat := (List.range 8).map fun i => 8 * k + i

/-- The 8-byte elements of the operand that are accessed (`want = true`) or not: without broadcast those of the lanes whose
activity is `want`, with broadcast the one element by whether some lane is active (20_memory.md R66). -/
def elements (bcast : Bool) (act : List Bool) (want : Bool) : List Nat :=
  if bcast then (if act.any id == want then [0] else [])
  else (List.range act.length).filter fun j => act.getD j false == want

/-- The offsets of the bytes of those elements. -/
def offsets (bcast : Bool) (act : List Bool) (want : Bool) : List Nat :=
  (elements bcast act want).flatMap elementBytes

/-- The lanes of the second source, for the active lanes only (43_vaddpd_evex.md R182, 20_memory.md R64, R66). -/
def readSource (s : State) (align : Bool) (src : Source) (act : List Bool) : Result (List Double) :=
  match src with
  | .reg n => .next ((List.range act.length).map (lane (s.vec n)))
  | .mem seg dflt ea bcast =>
    andThen (checkOperand s seg dflt ea align (offsets bcast act true)) fun _ =>
      if !s.cfg.faultSuppression && !accessible s seg ea (offsets bcast act false) then
        .refused .maskedElementInaccessible
      else .next ((List.range act.length).map fun j => readLane s seg ea (laneOffset bcast j))

/-- The pair of source lanes for each active lane, `none` for a masked-off one (43_vaddpd_evex.md R188). -/
def lanePairs (s : State) (src1 : BitVec 5) (act : List Bool) (bs : List Double) : List (Option (Double × Double)) :=
  (List.range act.length).map fun j => if act.getD j false then some (lane (s.vec src1) j, bs.getD j 0#64) else none

/-- The second source of an encoding: `hi` is the high bit of a register number (`X` in the EVEX scheme), `n` the scale of
an 8-bit displacement (30_encoding.md R85, R98, R103, R113). -/
def sourceOf (s : State) (p : Prefixes) (hi x b : Bool) (n len : Nat) (bcast : Bool) : RmOperand → Source
  | .reg rm => .reg (vecNum hi b rm)
  | .mem m => .mem (segmentOf p b m) (defaultSegment b m) (effectiveAddress s p x b n len m) bcast

end Sys2Proof.Machine
end

