-- ==== Sys2Proof/Machine/Add.lean ====
section
/-! DEFINITION. The part all forms share: `PackedAdd` (40_numerics_double_add.md R150), the write of the destination
(10_state.md R23, 43_vaddpd_evex.md R185 step 7) and the steps of one addition (41_addpd_legacy_sse.md R161,
42_vaddpd_vex.md R170, R171, 43_vaddpd_evex.md R185). -/

namespace Sys2Proof.Machine

/-- The additions of the active lanes (R150). Under embedded rounding (`sae`) underflow counts as masked (R151). -/
def laneSums (s : State) (rm : Rounding) (sae : Bool) (pairs : List (Option (Double × Double))) : List (Option FaddOut) :=
  pairs.map fun q => q.map fun ab => fadd64 ab.1 ab.2 rm s.daz s.ftz (sae || s.um)

/-- The conditions of the active lanes, before and after computation (R150). -/
def preConds (outs : List (Option FaddOut)) : Conds := Conds.unions (outs.filterMap fun o => o.map (·.pre))
def postConds (outs : List (Option FaddOut)) : Conds := Conds.unions (outs.filterMap fun o => o.map (·.post))

/-- `PackedAdd` (R150): the results of the active lanes and the state with the MXCSR flags OR-ed in, or a SIMD
floating-point fault; under `sae` no fault and no flag (R151). -/
def packedAdd (s : State) (rm : Rounding) (sae : Bool) (pairs : List (Option (Double × Double))) :
    Result (List (Option Double) × State) :=
  let outs := laneSums s rm sae pairs
  let pre := preConds outs
  let post := postConds outs
  let results := outs.map fun o => o.map (·.res)
  if sae then .next (results, s)
  else if (pre.unmasked s).any then raiseSimd (pre.unmasked s) pre s
  else if (post.unmasked s).any then raiseSimd (post.unmasked s) (pre.union post) s
  else .next (results, s.orFlags (pre.union post))

/-- What becomes of the bits of the destination from `VL` up (10_state.md R23). -/
inductive Upper where
  | keep | zero
deriving DecidableEq, Repr

/-- The lanes of the destination from lane `j` on: a result, or for a masked-off lane zero (zeroing-masking) or the old
value (merging-masking) (43_vaddpd_evex.md R185 step 7). -/
def writeLanes (zeroing : Bool) : Nat → List (Option Double) → VecReg → VecReg
  | _, [], v => v
  | j, some r :: rs, v => writeLanes zeroing (j + 1) rs (setLane v j r)
  | j, none :: rs, v => writeLanes zeroing (j + 1) rs (if zeroing then setLane v j 0#64 else v)

/-- The new value of the destination register (10_state.md R23). -/
def newVec (c : Cfg) (upper : Upper) (zeroing : Bool) (rs : List (Option Double)) (old : VecReg) : VecReg :=
  let v := writeLanes zeroing 0 rs old
  match upper with
  | .keep => v
  | .zero => zeroUpper (maxvl c) (64 * rs.length) v

/-- One addition with its operands resolved. -/
structure AddOp where
  /-- The column of the enable checks. -/
  enable : EnableClass
  /-- The number of lanes `KL`. -/
  kl : Nat
  dst : BitVec 5
  src1 : BitVec 5
  src2 : Source
  /-- `aaa`; 0 is no writemask. -/
  mask : BitVec 3 := 0#3
  zeroing : Bool := false
  /-- `EVEX.RC` under embedded rounding. -/
  er : Option (BitVec 2) := none
  /-- The 16-byte alignment check. -/
  align : Bool := false
  upper : Upper := .zero
  len : Nat
deriving DecidableEq, Repr

/-- The rounding mode (43_vaddpd_evex.md R183). -/
def AddOp.rounding (op : AddOp) (s : State) : Rounding :=
  match op.er with
  | some rc => Rounding.ofBits rc
  | none => s.rc

/-- The steps of one addition: enable checks, sources, sums, destination, `RIP`. Every source is read before the
destination is written (10_state.md R24). -/
def execAdd (op : AddOp) (s : State) : Result State :=
  let act := activeLanes s op.kl op.mask
  andThen (checkEnabled op.enable s) fun _ =>
  andThen (readSource s op.align op.src2 act) fun bs =>
  andThen (packedAdd s (op.rounding s) op.er.isSome (lanePairs s op.src1 act bs)) fun r =>
  advance op.len (r.2.setVec op.dst (newVec s.cfg op.upper op.zeroing r.1 (s.vec op.dst)))

end Sys2Proof.Machine
end

