-- ==== Sys2Proof/Machine/Evex.lean ====
section
/-! DEFINITION. The meanings of forms F4, F5 and F6, `VADDPD` with an EVEX prefix (43_vaddpd_evex.md R180 to R195). -/

namespace Sys2Proof.Machine

/-- The first source of the EVEX scheme: `V' ++ vvvv` (30_encoding.md R113). -/
def evexSrc1 (e : Evex) : BitVec 5 := bit1 e.vv ++ e.vvvv

/-- The scale of an 8-bit displacement: 8 with broadcast, else the operand size `VL/8` (30_encoding.md R98). -/
def dispScale (bcast : Bool) (kl : Nat) : Nat := if bcast then 8 else 8 * kl

/-- Forms F4, F5, F6 without embedded rounding (R185): `kl` is 2, 4, 8. -/
def evexOp (s : State) (enable : EnableClass) (p : Prefixes) (e : Evex) (bcast : Bool) (kl : Nat) (reg : BitVec 3)
    (rm : RmOperand) (len : Nat) : AddOp where
  enable := enable
  kl := kl
  dst := vecNum e.rr e.r reg
  src1 := evexSrc1 e
  src2 := sourceOf s p e.x e.x e.b (dispScale bcast kl) len bcast rm
  mask := e.aaa
  zeroing := e.z
  len := len

/-- VADDPD.EVEX128 (43_vaddpd_evex.md R190). -/
def execVaddpdEvex128 (p : Prefixes) (e : Evex) (bcast : Bool) (reg : BitVec 3) (rm : RmOperand) (s : State) :
    Host.Outcome State Fault Refusal :=
  execAdd (evexOp s .evexVl p e bcast 2 reg rm (Instr.vaddpdEvex128 p e bcast reg rm).length) s

/-- VADDPD.EVEX256 (43_vaddpd_evex.md R191). -/
def execVaddpdEvex256 (p : Prefixes) (e : Evex) (bcast : Bool) (reg : BitVec 3) (rm : RmOperand) (s : State) :
    Host.Outcome State Fault Refusal :=
  execAdd (evexOp s .evexVl p e bcast 4 reg rm (Instr.vaddpdEvex256 p e bcast reg rm).length) s

/-- VADDPD.EVEX512 (43_vaddpd_evex.md R192). -/
def execVaddpdEvex512 (p : Prefixes) (e : Evex) (bcast : Bool) (reg : BitVec 3) (rm : RmOperand) (s : State) :
    Host.Outcome State Fault Refusal :=
  execAdd (evexOp s .evex512 p e bcast 8 reg rm (Instr.vaddpdEvex512 p e bcast reg rm).length) s

/-- VADDPD.EVEX512.ER (43_vaddpd_evex.md R193): a register source, the rounding mode `EVEX.RC`, all exceptions suppressed. -/
def execVaddpdEvex512Er (p : Prefixes) (e : Evex) (rc : BitVec 2) (reg rm : BitVec 3) (s : State) :
    Host.Outcome State Fault Refusal :=
  execAdd { evexOp s .evex512 p e false 8 reg (.reg rm) (Instr.vaddpdEvex512Er p e rc reg rm).length with er := some rc } s

end Sys2Proof.Machine
end

