-- ==== Sys2Proof/Machine/LegacySse.lean ====
section
/-! DEFINITION. The meanings of form F1, `ADDPD xmm1, xmm2/m128` (41_addpd_legacy_sse.md R160 to R165). -/

namespace Sys2Proof.Machine

/-- Form F1 with the extension bits `r`, `x`, `b` of REX (30_encoding.md R85): the destination is the first source, the
operand is 16-byte aligned, the bits above 127 are not written (R161). -/
def sseOp (s : State) (p : Prefixes) (r x b : Bool) (reg : BitVec 3) (rm : RmOperand) (len : Nat) : AddOp where
  enable := .sse
  kl := 2
  dst := vecNum false r reg
  src1 := vecNum false r reg
  src2 := sourceOf s p false x b 1 len false rm
  align := true
  upper := .keep
  len := len

/-- ADDPD.SSE (41_addpd_legacy_sse.md R161). -/
def execAddpdSse (p : Prefixes) (reg : BitVec 3) (rm : RmOperand) (s : State) : Host.Outcome State Fault Refusal :=
  execAdd (sseOp s p false false false reg rm (Instr.addpdSse p reg rm).length) s

/-- ADDPD.SSE.REX (41_addpd_legacy_sse.md R161); REX.W is ignored (30_encoding.md R85). -/
def execAddpdSseRex (p : Prefixes) (rex : Rex) (reg : BitVec 3) (rm : RmOperand) (s : State) :
    Host.Outcome State Fault Refusal :=
  execAdd (sseOp s p rex.r rex.x rex.b reg rm (Instr.addpdSseRex p rex reg rm).length) s

end Sys2Proof.Machine
end

