-- ==== Sys2Proof/Machine/Vex.lean ====
section
/-! DEFINITION. The meanings of forms F2 and F3, `VADDPD` with a VEX prefix (42_vaddpd_vex.md R168 to R176). -/

namespace Sys2Proof.Machine

/-- Forms F2 (`kl = 2`) and F3 (`kl = 4`) with the extension bits `r`, `x`, `b` and `vvvv` (30_encoding.md R103): no
alignment requirement, the bits from `VL` up are zeroed (R170, R171). -/
def vexOp (s : State) (p : Prefixes) (r x b : Bool) (vvvv : BitVec 4) (kl : Nat) (reg : BitVec 3) (rm : RmOperand)
    (len : Nat) : AddOp where
  enable := .vex
  kl := kl
  dst := vecNum false r reg
  src1 := vvvv.setWidth 5
  src2 := sourceOf s p false x b 1 len false rm
  len := len

/-- VADDPD.VEX128.C5 (42_vaddpd_vex.md R170): the two-byte prefix implies `X = B = 0` (30_encoding.md R100). -/
def execVaddpdVex128C5 (p : Prefixes) (v : Vex2) (reg : BitVec 3) (rm : RmOperand) (s : State) :
    Host.Outcome State Fault Refusal :=
  execAdd (vexOp s p v.r false false v.vvvv 2 reg rm (Instr.vaddpdVex128C5 p v reg rm).length) s

/-- VADDPD.VEX128.C4 (42_vaddpd_vex.md R170); W is ignored (R174). -/
def execVaddpdVex128C4 (p : Prefixes) (v : Vex3) (reg : BitVec 3) (rm : RmOperand) (s : State) :
    Host.Outcome State Fault Refusal :=
  execAdd (vexOp s p v.r v.x v.b v.vvvv 2 reg rm (Instr.vaddpdVex128C4 p v reg rm).length) s

/-- VADDPD.VEX256.C5 (42_vaddpd_vex.md R171). -/
def execVaddpdVex256C5 (p : Prefixes) (v : Vex2) (reg : BitVec 3) (rm : RmOperand) (s : State) :
    Host.Outcome State Fault Refusal :=
  execAdd (vexOp s p v.r false false v.vvvv 4 reg rm (Instr.vaddpdVex256C5 p v reg rm).length) s

/-- VADDPD.VEX256.C4 (42_vaddpd_vex.md R171); W is ignored (R174). -/
def execVaddpdVex256C4 (p : Prefixes) (v : Vex3) (reg : BitVec 3) (rm : RmOperand) (s : State) :
    Host.Outcome State Fault Refusal :=
  execAdd (vexOp s p v.r v.x v.b v.vvvv 4 reg rm (Instr.vaddpdVex256C4 p v reg rm).length) s

end Sys2Proof.Machine
end

