-- ==== Sys2Proof/Machine/Dispatch.lean ====
section
/-! DEFINITION. exec: one arm for each instruction. -/

namespace Sys2Proof.Machine

def exec (i : Instr) (s : State) : Host.Outcome State Fault Refusal :=
  match i with
  | .addpdSse p reg rm => Sys2Proof.Machine.execAddpdSse p reg rm s
  | .addpdSseRex p rex reg rm => Sys2Proof.Machine.execAddpdSseRex p rex reg rm s
  | .vaddpdVex128C5 p v reg rm => Sys2Proof.Machine.execVaddpdVex128C5 p v reg rm s
  | .vaddpdVex128C4 p v reg rm => Sys2Proof.Machine.execVaddpdVex128C4 p v reg rm s
  | .vaddpdVex256C5 p v reg rm => Sys2Proof.Machine.execVaddpdVex256C5 p v reg rm s
  | .vaddpdVex256C4 p v reg rm => Sys2Proof.Machine.execVaddpdVex256C4 p v reg rm s
  | .vaddpdEvex128 p e bcast reg rm => Sys2Proof.Machine.execVaddpdEvex128 p e bcast reg rm s
  | .vaddpdEvex256 p e bcast reg rm => Sys2Proof.Machine.execVaddpdEvex256 p e bcast reg rm s
  | .vaddpdEvex512 p e bcast reg rm => Sys2Proof.Machine.execVaddpdEvex512 p e bcast reg rm s
  | .vaddpdEvex512Er p e rc reg rm => Sys2Proof.Machine.execVaddpdEvex512Er p e rc reg rm s

end Sys2Proof.Machine
end

