-- ==== Sys2Proof/Machine/Fetch.lean ====
section
/-! DEFINITION. Instruction fetch (20_memory.md R76), and how a program comes to be in the machine (70_reset_and_hazards.md
R241 to R246). -/

namespace Sys2Proof.Machine

/-- The linear address of the instruction byte at offset `i` from `RIP`: the code segment base is 0 in 64-bit mode
(20_memory.md R76). -/
def fetchAddr (s : State) (i : Nat) : Addr :=
  if s.mode = .mode64 then s.rip + BitVec.ofNat 64 i
  else ((s.base .cs + s.rip + BitVec.ofNat 64 i).setWidth 32).setWidth 64

/-- The segment check of the byte at offset `i` (20_memory.md R62): canonical in 64-bit mode (R76), `Cfg.SegCheck` of the code
segment in 32-bit mode, byte by byte. R70 applies the parameter of R62 to fetch and R62 gives the exception; that the rules of
the fetch (R76, 60_exceptions.md R204, R211), which name #GP(0) of a non-canonical byte only, leave room for it is DEDUCED (log
entry 23). -/
def fetchSegmentOk (s : State) (i : Nat) : Bool :=
  if s.mode = .mode64 then canonical s.cfg.vabits (fetchAddr s i)
  else segCheck s.cfg .cs (s.rip + BitVec.ofNat 64 i) 1

/-- One byte of the instruction, or why it cannot be fetched: outside the address range (10_state.md R33), refused by
segmentation, or refused by paging (20_memory.md R70, R76). That a non-canonical byte is #GP(0) and no refusal follows R76,
60_exceptions.md R204 and R211, where 10_state.md R33 refuses (log entry 12). -/
def fetchByte (s : State) (i : Nat) : Result Byte :=
  if (if s.mode = .mode64 then 2 ^ 64 else 2 ^ 32) ≤ s.rip.toNat + i then .refused .ripOutOfRange
  else if !fetchSegmentOk s i then raise .gp s
  else
    match translate s.cfg (fetchAddr s i) .fetch s.cpl with
    | some code => raise (.pf code (fetchAddr s i)) s
    | none => .next (s.byteAt (fetchAddr s i))

/-- The bytes from offset `i` on, at most `n`, up to the first that cannot be fetched; and the outcome of an instruction
that has more bytes than these: the fault of the next byte, or #GP(0) past 15 bytes (30_encoding.md R88, 60_exceptions.md
R204, R211). -/
def fetchBytes (s : State) : Nat → Nat → List Byte × Host.Outcome State Fault Refusal
  | 0, _ => ([], raise .gp s)
  | n + 1, i =>
    match fetchByte s i with
    | .next b => (b :: (fetchBytes s n (i + 1)).1, (fetchBytes s n (i + 1)).2)
    | .fault f => ([], .fault f)
    | .refused r => ([], .refused r)

/-- What the instruction at `RIP` is. -/
inductive Fetched where
  | instr (i : Instr)
  | stop (o : Host.Outcome State Fault Refusal)

/-- The model's refusal for each of the decoder's. -/
def decodeRefusal : DecodeRefusal → Refusal
  | .otherInstruction => .otherInstruction
  | .redundantPrefix => .redundantPrefix
  | .mode32Extension => .mode32Extension
  | .address16 => .address16
  | .modeOutOfScope => .modeOutOfScope

/-- Fetches and decodes the instruction at `RIP`; the fetch faults of its bytes come before every decode fault
(60_exceptions.md R211). -/
def fetchInstr (s : State) : Fetched :=
  let f := fetchBytes s maxLength 0
  match decode s.mode f.1 with
  | .ok i _ => .instr i
  | .ud => .stop (raise .ud s)
  | .refused r => .stop (.refused (decodeRefusal r))
  | .short => .stop f.2

/-- Sets the bits of `m` where `v` has them. -/
def setBits {n : Nat} (r m v : BitVec n) : BitVec n := (r &&& ~~~m) ||| (v &&& m)

/-- The machine after INIT (10_state.md R45, last column): like the machine after RESET, but for the registers INIT leaves as
they were, CR0.CD and CR0.NW among them (their places are PRESUMED, log entry 8; EDX, CR2 and memory: log entries 1 and 2).
INIT comes from outside the machine: no step takes it (60_exceptions.md R218). -/
def State.afterInit (s : State) : State :=
  { s with
    gpr := State.reset.gpr
    segBase := State.reset.segBase
    rip := State.reset.rip
    eflags := State.reset.eflags
    cr0 := setBits State.reset.cr0 0x60000000#32 s.cr0
    cr4 := State.reset.cr4
    cpl := State.reset.cpl
    mode := State.reset.mode }

/-- What the boot code does before a program runs, from a mode out of scope: 64-bit mode (R241), CR0.EM and CR0.TS clear and
CR4.OSFXSR set (R242), CR4.OSXSAVE and XCR0 (R243, R244). CR0.MP is set, as R242 has it 'by convention'; CR4.OSXMMEXCPT is left
(DESIGN CHOICE, log entry 4). For physical-address extension, long mode and the 64-bit code segment R241 gives no bit and no
register: the field `mode` alone stands for them, and CR4 and the segment bases are left (DESIGN CHOICE, log entry 4). CR0.PE and CR0.PG are set with the mode; their places are PRESUMED
(log entries 4 and 8). A state already in a mode in scope is left as it is. -/
def launch (s : State) : State :=
  if s.mode = .mode64 ∨ s.mode = .mode32 then s
  else
    { s with
      mode := .mode64
      cr0 := setBits s.cr0 0x8000000F#32 0x80000003#32
      cr4 := setBits s.cr4 0x00040200#32 0x00040200#32
      xcr0 := setBits s.xcr0 0xE7#8 0xE7#8 }

/-- Writes bytes where the fetch reads them, from offset `i` on. -/
def placeBytes (s : State) : List Byte → Nat → State
  | [], _ => s
  | b :: bs, i => placeBytes { s with mem := Memory.write s.mem (fetchAddr s i).toNat b } bs (i + 1)

end Sys2Proof.Machine
end

