-- ==== Sys2Proof/Machine/Step.lean ====
section
/-! DEFINITION. One step (00_scope.md R17), and the placing of an instruction where step fetches it. -/

namespace Sys2Proof.Machine

/-- One step: at `END` the run is over and the state is final, so it stays (70_reset_and_hazards.md R247; that the final
state is answered again is log entry 7); else the instruction at `RIP` is fetched, decoded and executed. -/
def step (s : State) : Host.Outcome State Fault Refusal :=
  match premises s with
  | some r => .refused r
  | none =>
    if s.rip = s.cfg.endRip then .next s
    else
      match fetchInstr s with
      | .instr i => exec i s
      | .stop o => o

/-- `s` with the instruction whose bits are `w` stored where step fetches its next instruction, and, in a mode out of scope,
the enabling that the launch of a program takes (70_reset_and_hazards.md R241 to R245; log entry 4). -/
def State.withFetchWord (s : State) (nbits w : Nat) : State := placeBytes (launch s) (tableBytes nbits w) 0

end Sys2Proof.Machine
end

