-- ==== Sys2Proof/Safety.lean ====
section
/-! DEFINITION. The terms in which claims speak: when a form may run, what an addition does, what it leaves unchanged, and the
invariant of the machine. They say again, from the rules, what the meanings compute, so that a claim can be held to the
spec without the meanings. -/

namespace Sys2Proof.Machine

/-- A form of class `c` may run: the launch premises hold, no #UD cause of 60_exceptions.md R201, and CR0.TS = 0 (R202). -/
def Enabled (c : EnableClass) (s : State) : Prop :=
  premises s = none ∧ disabled c s = false ∧ s.ts = false

/-- Lane `j` of the second source: of a register, of the bytes of a memory operand, or the one broadcast value
(43_vaddpd_evex.md R182). -/
def sourceLane (s : State) (src : Source) (j : Nat) : Double :=
  match src with
  | .reg n => lane (s.vec n) j
  | .mem seg _ ea bcast => readLane s seg ea (laneOffset bcast j)

/-- Lane `j` is active (43_vaddpd_evex.md R184). -/
def Active (s : State) (aaa : BitVec 3) (j : Nat) : Bool := aaa == 0#3 || (s.kreg aaa).getLsbD j

/-- The second source can be read: a register always; a memory operand when every accessed byte passes the segment and page
checks, the operand is aligned where that is asked (20_memory.md R56, R64), and, unless fault suppression is asserted, the
bytes of the masked-off elements pass too (R66). -/
def SourceReady (s : State) (align : Bool) (src : Source) (act : List Bool) : Prop :=
  match src with
  | .reg _ => True
  | .mem seg _ ea bcast =>
      accessible s seg ea (offsets bcast act true) = true ∧ (align = true → aligned16 s seg ea = true) ∧
        (s.cfg.faultSuppression = true ∨ accessible s seg ea (offsets bcast act false) = true)

/-- The sum of lane `j`: `SRC1[j] + SRC2[j]` (40_numerics_double_add.md R150). -/
def laneOut (s : State) (rm : Rounding) (um : Bool) (src1 : BitVec 5) (src2 : Source) (j : Nat) : FaddOut :=
  fadd64 (lane (s.vec src1) j) (sourceLane s src2 j) rm s.daz s.ftz um

/-- The pre-computation conditions `PRE`, the post-computation conditions `POST` and all conditions of the active lanes
(40_numerics_double_add.md R150). -/
def preOf (out : Nat → FaddOut) (act : List Bool) : Conds :=
  Conds.unions (((List.range act.length).filter fun j => act.getD j false).map fun j => (out j).pre)

def postOf (out : Nat → FaddOut) (act : List Bool) : Conds :=
  Conds.unions (((List.range act.length).filter fun j => act.getD j false).map fun j => (out j).post)

def condsOf (out : Nat → FaddOut) (act : List Bool) : Conds := (preOf out act).union (postOf out act)

/-- The destination after an addition of `kl` lanes: a sum, or for a masked-off lane zero or the old value; above `VL` zero
up to `MAXVL` where `upper` is `zero`, else as before (10_state.md R23, 43_vaddpd_evex.md R185, R186). -/
def DestinationWritten (s t : State) (d : BitVec 5) (upper : Upper) (zeroing : Bool) (out : Nat → FaddOut)
    (act : List Bool) : Prop :=
  (∀ j, j < act.length → lane (t.vec d) j =
    if act.getD j false then (out j).res else if zeroing then 0#64 else lane (s.vec d) j) ∧
  (∀ i, 64 * act.length ≤ i → i < 512 → (t.vec d).getLsbD i =
    if upper = .zero ∧ i < maxvl s.cfg then false else (s.vec d).getLsbD i)

/-- Everything but the destination register `d`, MXCSR and `RIP` is as before (41_addpd_legacy_sse.md R162,
42_vaddpd_vex.md R172, 43_vaddpd_evex.md R187). -/
def Unchanged (s t : State) (d : BitVec 5) : Prop :=
  (∀ n, n ≠ d → t.vec n = s.vec n) ∧ t.k = s.k ∧ t.gpr = s.gpr ∧ t.segBase = s.segBase ∧ t.eflags = s.eflags ∧
  t.cr0 = s.cr0 ∧ t.cr2 = s.cr2 ∧ t.cr4 = s.cr4 ∧ t.xcr0 = s.xcr0 ∧ t.cpl = s.cpl ∧ t.mode = s.mode ∧
  t.mem = s.mem ∧ (∀ a, t.byteAt a = s.byteAt a) ∧ t.cfg = s.cfg ∧ t.draws = s.draws

/-- The whole effect of an addition that completes. -/
def AddEffect (s t : State) (d : BitVec 5) (upper : Upper) (zeroing : Bool) (out : Nat → FaddOut) (act : List Bool)
    (flags : Conds) (len : Nat) : Prop :=
  DestinationWritten s t d upper zeroing out act ∧ t.mxcsr = s.mxcsr ||| flags.bits ∧
  t.rip.toNat = s.rip.toNat + len ∧ Unchanged s t d

/-- The class of the enable checks of each instruction: the columns of 60_exceptions.md R201. -/
def enableClass : Instr → EnableClass
  | .addpdSse _ _ _ | .addpdSseRex _ _ _ _ => .sse
  | .vaddpdVex128C5 _ _ _ _ | .vaddpdVex128C4 _ _ _ _ | .vaddpdVex256C5 _ _ _ _ | .vaddpdVex256C4 _ _ _ _ => .vex
  | .vaddpdEvex128 _ _ _ _ _ | .vaddpdEvex256 _ _ _ _ _ => .evexVl
  | .vaddpdEvex512 _ _ _ _ _ | .vaddpdEvex512Er _ _ _ _ _ => .evex512

/-- The destination register of each instruction (30_encoding.md R85, R103, R113). -/
def destination : Instr → BitVec 5
  | .addpdSse _ reg _ => vecNum false false reg
  | .addpdSseRex _ rex reg _ => vecNum false rex.r reg
  | .vaddpdVex128C5 _ v reg _ | .vaddpdVex256C5 _ v reg _ => vecNum false v.r reg
  | .vaddpdVex128C4 _ v reg _ | .vaddpdVex256C4 _ v reg _ => vecNum false v.r reg
  | .vaddpdEvex128 _ e _ reg _ | .vaddpdEvex256 _ e _ reg _ | .vaddpdEvex512 _ e _ reg _ => vecNum e.rr e.r reg
  | .vaddpdEvex512Er _ e _ reg _ => vecNum e.rr e.r reg

/-- The number of lanes `KL` of each instruction (43_vaddpd_evex.md R181). -/
def laneCount : Instr → Nat
  | .addpdSse _ _ _ | .addpdSseRex _ _ _ _ | .vaddpdVex128C5 _ _ _ _ | .vaddpdVex128C4 _ _ _ _
  | .vaddpdEvex128 _ _ _ _ _ => 2
  | .vaddpdVex256C5 _ _ _ _ | .vaddpdVex256C4 _ _ _ _ | .vaddpdEvex256 _ _ _ _ _ => 4
  | .vaddpdEvex512 _ _ _ _ _ | .vaddpdEvex512Er _ _ _ _ _ => 8

/-- The first source register `SRC1`; for form F1 the destination (41_addpd_legacy_sse.md R161, 30_encoding.md R103, R113). -/
def firstSource : Instr → BitVec 5
  | .addpdSse _ reg _ => vecNum false false reg
  | .addpdSseRex _ rex reg _ => vecNum false rex.r reg
  | .vaddpdVex128C5 _ v _ _ | .vaddpdVex256C5 _ v _ _ => v.vvvv.setWidth 5
  | .vaddpdVex128C4 _ v _ _ | .vaddpdVex256C4 _ v _ _ => v.vvvv.setWidth 5
  | .vaddpdEvex128 _ e _ _ _ | .vaddpdEvex256 _ e _ _ _ | .vaddpdEvex512 _ e _ _ _ => bit1 e.vv ++ e.vvvv
  | .vaddpdEvex512Er _ e _ _ _ => bit1 e.vv ++ e.vvvv

/-- The second source (30_encoding.md R85, R98, R103, R113). -/
def secondSource (s : State) : Instr → Source
  | .addpdSse p reg rm => sourceOf s p false false false 1 (Instr.addpdSse p reg rm).length false rm
  | .addpdSseRex p rex reg rm => sourceOf s p false rex.x rex.b 1 (Instr.addpdSseRex p rex reg rm).length false rm
  | .vaddpdVex128C5 p v reg rm => sourceOf s p false false false 1 (Instr.vaddpdVex128C5 p v reg rm).length false rm
  | .vaddpdVex128C4 p v reg rm => sourceOf s p false v.x v.b 1 (Instr.vaddpdVex128C4 p v reg rm).length false rm
  | .vaddpdVex256C5 p v reg rm => sourceOf s p false false false 1 (Instr.vaddpdVex256C5 p v reg rm).length false rm
  | .vaddpdVex256C4 p v reg rm => sourceOf s p false v.x v.b 1 (Instr.vaddpdVex256C4 p v reg rm).length false rm
  | .vaddpdEvex128 p e bc reg rm =>
      sourceOf s p e.x e.x e.b (if bc then 8 else 16) (Instr.vaddpdEvex128 p e bc reg rm).length bc rm
  | .vaddpdEvex256 p e bc reg rm =>
      sourceOf s p e.x e.x e.b (if bc then 8 else 32) (Instr.vaddpdEvex256 p e bc reg rm).length bc rm
  | .vaddpdEvex512 p e bc reg rm =>
      sourceOf s p e.x e.x e.b (if bc then 8 else 64) (Instr.vaddpdEvex512 p e bc reg rm).length bc rm
  | .vaddpdEvex512Er _ e _ _ rm => .reg (vecNum e.x e.b rm)

/-- The writemask number `aaa`, 0 for the forms that have none (10_state.md R26). -/
def writemask : Instr → BitVec 3
  | .addpdSse _ _ _ | .addpdSseRex _ _ _ _ | .vaddpdVex128C5 _ _ _ _ | .vaddpdVex128C4 _ _ _ _
  | .vaddpdVex256C5 _ _ _ _ | .vaddpdVex256C4 _ _ _ _ => 0#3
  | .vaddpdEvex128 _ e _ _ _ | .vaddpdEvex256 _ e _ _ _ | .vaddpdEvex512 _ e _ _ _ => e.aaa
  | .vaddpdEvex512Er _ e _ _ _ => e.aaa

/-- The same instruction with other optional prefixes (30_encoding.md R81). -/
def withPrefixes (p : Prefixes) : Instr → Instr
  | .addpdSse _ reg rm => .addpdSse p reg rm
  | .addpdSseRex _ rex reg rm => .addpdSseRex p rex reg rm
  | .vaddpdVex128C5 _ v reg rm => .vaddpdVex128C5 p v reg rm
  | .vaddpdVex128C4 _ v reg rm => .vaddpdVex128C4 p v reg rm
  | .vaddpdVex256C5 _ v reg rm => .vaddpdVex256C5 p v reg rm
  | .vaddpdVex256C4 _ v reg rm => .vaddpdVex256C4 p v reg rm
  | .vaddpdEvex128 _ e bc reg rm => .vaddpdEvex128 p e bc reg rm
  | .vaddpdEvex256 _ e bc reg rm => .vaddpdEvex256 p e bc reg rm
  | .vaddpdEvex512 _ e bc reg rm => .vaddpdEvex512 p e bc reg rm
  | .vaddpdEvex512Er _ e rc reg rm => .vaddpdEvex512Er p e rc reg rm

/-- Zeroing-masking (30_encoding.md R112). -/
def zeroingOf : Instr → Bool
  | .addpdSse _ _ _ | .addpdSseRex _ _ _ _ | .vaddpdVex128C5 _ _ _ _ | .vaddpdVex128C4 _ _ _ _
  | .vaddpdVex256C5 _ _ _ _ | .vaddpdVex256C4 _ _ _ _ => false
  | .vaddpdEvex128 _ e _ _ _ | .vaddpdEvex256 _ e _ _ _ | .vaddpdEvex512 _ e _ _ _ => e.z
  | .vaddpdEvex512Er _ e _ _ _ => e.z

/-- Embedded rounding, and with it `sae` (43_vaddpd_evex.md R183). -/
def embeddedRounding : Instr → Option (BitVec 2)
  | .addpdSse _ _ _ | .addpdSseRex _ _ _ _ | .vaddpdVex128C5 _ _ _ _ | .vaddpdVex128C4 _ _ _ _
  | .vaddpdVex256C5 _ _ _ _ | .vaddpdVex256C4 _ _ _ _ | .vaddpdEvex128 _ _ _ _ _ | .vaddpdEvex256 _ _ _ _ _
  | .vaddpdEvex512 _ _ _ _ _ => none
  | .vaddpdEvex512Er _ _ rc _ _ => some rc

/-- Form F1: its memory operand is 16-byte aligned and its destination keeps the bits from 128 up (20_memory.md R56,
10_state.md R23). -/
def isLegacy : Instr → Bool
  | .addpdSse _ _ _ | .addpdSseRex _ _ _ _ => true
  | .vaddpdVex128C5 _ _ _ _ | .vaddpdVex128C4 _ _ _ _ | .vaddpdVex256C5 _ _ _ _ | .vaddpdVex256C4 _ _ _ _
  | .vaddpdEvex128 _ _ _ _ _ | .vaddpdEvex256 _ _ _ _ _ | .vaddpdEvex512 _ _ _ _ _ | .vaddpdEvex512Er _ _ _ _ _ => false

/-- The active lanes of an instruction (43_vaddpd_evex.md R184). -/
def activity (s : State) (i : Instr) : List Bool := (List.range (laneCount i)).map (Active s (writemask i))

/-- The rounding mode of an instruction (43_vaddpd_evex.md R183). -/
def roundingOf (s : State) (i : Instr) : Rounding :=
  match embeddedRounding i with
  | some rc => Rounding.ofBits rc
  | none => s.rc

/-- The sum of lane `j` of an instruction; under embedded rounding underflow counts as masked (40_numerics_double_add.md
R150, R151). -/
def sumOf (s : State) (i : Instr) : Nat → FaddOut :=
  laneOut s (roundingOf s i) ((embeddedRounding i).isSome || s.um) (firstSource i) (secondSource s i)

/-- A set of conditions has none that is unmasked in MXCSR (40_numerics_double_add.md R150). -/
def NoneUnmasked (c : Conds) (s : State) : Prop := (c.unmasked s).any = false

/-- A change of the state applied to whatever state an outcome holds. -/
def mapFault (g : State → State) : Fault → Fault
  | .invalidOpcode s => .invalidOpcode (g s)
  | .deviceNotAvailable s => .deviceNotAvailable (g s)
  | .stackSegment s => .stackSegment (g s)
  | .generalProtection s => .generalProtection (g s)
  | .pageFault code info s => .pageFault code info (g s)
  | .simdFloatingPoint s => .simdFloatingPoint (g s)

def mapOutcome (g : State → State) : Host.Outcome State Fault Refusal → Host.Outcome State Fault Refusal
  | .next s => .next (g s)
  | .fault f => .fault (mapFault g f)
  | .refused r => .refused r

/-- The byte at offset `j` from `RIP` is in the address range (10_state.md R33). -/
def FetchInRange (s : State) (j : Nat) : Prop :=
  s.rip.toNat + j < if s.mode = .mode64 then 2 ^ 64 else 2 ^ 32

/-- The byte at offset `j` from `RIP` can be fetched, and is `b` (20_memory.md R70, R76). -/
def Fetchable (s : State) (j : Nat) (b : Byte) : Prop :=
  FetchInRange s j ∧ fetchSegmentOk s j = true ∧ translate s.cfg (fetchAddr s j) .fetch s.cpl = none ∧
    s.byteAt (fetchAddr s j) = b

/-- `n` steps in a row (70_reset_and_hazards.md R248). -/
def runSteps : Nat → State → Host.Outcome State Fault Refusal
  | 0, s => .next s
  | n + 1, s => andThen (step s) (runSteps n)

/-- A run stays safe while: memory is canonical, the reserved bits of MXCSR are zero (10_state.md R27), no vector register
has a bit at or above `MAXVL` (R20), `RIP` is an address the mode has (R33, 70_reset_and_hazards.md R246), and the
configuration is one the spec admits (00_scope.md R8). -/
def Inv (s : State) : Prop :=
  s.mem.wf = true ∧ s.mxcsrOk = true ∧ (∀ n i, maxvl s.cfg ≤ i → (s.vec n).getLsbD i = false) ∧
  ripOk s s.rip.toNat = true ∧ s.cfg.wf = true

end Sys2Proof.Machine
end

