-- ==== Sys2Proof/Certificates/Slice0/Obligations.lean ====
section
/-! DEFINITION. The statements for the provers, in the order of OBLIGATIONS.json. They speak in the terms of Safety.lean. -/

section Statements

open Sys2Proof Sys2Proof.Machine

/-! Encoding. -/

/-- Every well-formed instruction decodes from its encoding, whatever bytes follow (30_encoding.md R116, R117). -/
def Obligations.DecodeEncodeAgree : Prop :=
  ∀ (m : Mode) (i : Instr) (rest : List Byte), i.wf m = true → decode m (encode i ++ rest) = .ok i i.length

/-- What the decoder answers is well-formed, and its length is that of the form: between 4 and 13 bytes, at least 6 and up to
13 with an EVEX prefix, up to 12 without one (10_state.md R33, 30_encoding.md R88, R117). -/
def Obligations.DecodedIsWellFormed : Prop :=
  ∀ (m : Mode) (bs : List Byte) (i : Instr) (n : Nat), decode m bs = .ok i n →
    i.wf m = true ∧ n = i.length ∧ n ≤ bs.length ∧
    (match enableClass i with
      | .sse | .vex => 4 ≤ n ∧ n ≤ 12
      | .evexVl | .evex512 => 6 ≤ n ∧ n ≤ 13)

/-- No bit of an encoding is dropped: the bytes of a decoded instruction are those of its encoder, but for the order of the
legacy prefix bytes, which is free (30_encoding.md R87). -/
def Obligations.EveryBitIsDecoded : Prop :=
  ∀ (m : Mode) (bs : List Byte) (i : Instr) (n : Nat), decode m bs = .ok i n →
    ∃ pre pre' tail rest, bs = pre ++ tail ++ rest ∧ encode i = pre' ++ tail ∧ pre.Perm pre' ∧
      (∀ b ∈ pre, (prefixByte b).isSome = true) ∧ n = pre.length + tail.length

/-- Words of every row of the opcode table, written out from the spec (41_addpd_legacy_sse.md R165, 42_vaddpd_vex.md R176,
43_vaddpd_evex.md R195, 30_encoding.md R84, R85, R101, R109). -/
def Obligations.SpecWordsDecode : Prop :=
  decode .mode64 [0x66#8, 0x0F#8, 0x58#8, 0xC1#8] = .ok (.addpdSse ⟨none, false⟩ 0#3 (.reg 1#3)) 4 ∧
  decode .mode64 [0x66#8, 0x45#8, 0x0F#8, 0x58#8, 0xC1#8] =
    .ok (.addpdSseRex ⟨none, false⟩ ⟨false, true, false, true⟩ 0#3 (.reg 1#3)) 5 ∧
  decode .mode64 [0xC5#8, 0xF9#8, 0x58#8, 0x43#8, 0x08#8] =
    .ok (.vaddpdVex128C5 ⟨none, false⟩ ⟨false, 0#4⟩ 0#3 (.mem (.base 3#3 (.disp8 8#8)))) 5 ∧
  decode .mode64 [0xC4#8, 0xC1#8, 0x71#8, 0x58#8, 0xC2#8] =
    .ok (.vaddpdVex128C4 ⟨none, false⟩ ⟨false, false, true, false, 1#4⟩ 0#3 (.reg 2#3)) 5 ∧
  decode .mode64 [0xC5#8, 0xF5#8, 0x58#8, 0xC2#8] = .ok (.vaddpdVex256C5 ⟨none, false⟩ ⟨false, 1#4⟩ 0#3 (.reg 2#3)) 4 ∧
  decode .mode64 [0xC4#8, 0xC1#8, 0x75#8, 0x58#8, 0xC2#8] =
    .ok (.vaddpdVex256C4 ⟨none, false⟩ ⟨false, false, true, false, 1#4⟩ 0#3 (.reg 2#3)) 5 ∧
  decode .mode64 [0x62#8, 0xF1#8, 0xED#8, 0x1A#8, 0x58#8, 0x48#8, 0x01#8] =
    .ok (.vaddpdEvex128 ⟨none, false⟩ ⟨false, false, false, false, 2#4, false, false, 2#3⟩ true 1#3
      (.mem (.base 0#3 (.disp8 1#8)))) 7 ∧
  decode .mode64 [0x62#8, 0xF1#8, 0xF5#8, 0x28#8, 0x58#8, 0xC2#8] =
    .ok (.vaddpdEvex256 ⟨none, false⟩ ⟨false, false, false, false, 1#4, false, false, 0#3⟩ false 0#3 (.reg 2#3)) 6 ∧
  decode .mode64 [0x62#8, 0xF1#8, 0xF5#8, 0xD9#8, 0x58#8, 0x00#8] =
    .ok (.vaddpdEvex512 ⟨none, false⟩ ⟨false, false, false, false, 1#4, false, true, 1#3⟩ true 0#3
      (.mem (.base 0#3 .none))) 6 ∧
  decode .mode64 [0x62#8, 0xF1#8, 0xF5#8, 0x58#8, 0x58#8, 0xC2#8] =
    .ok (.vaddpdEvex512Er ⟨none, false⟩ ⟨false, false, false, false, 1#4, false, false, 0#3⟩ 2#2 0#3 2#3) 6

/-- A LOCK prefix makes every form #UD; so do `66`, `F2`, `F3` and REX before a VEX or EVEX prefix; segment overrides and
`67` do not (30_encoding.md R105, R115, R120). -/
def Obligations.IllegalPrefixesAreUndefined : Prop :=
  ∀ (m : Mode) (i : Instr) (rest : List Byte), i.wf m = true →
    decode m (0xF0#8 :: encode i ++ rest) = .ud ∧
    (isLegacy i = false →
      (∀ b ∈ [0x66#8, 0xF2#8, 0xF3#8], decode m (b :: encode i ++ rest) = .ud) ∧
      (∀ x : Rex, m = .mode64 →
        decode m (i.prefixes.encode ++ x.byte :: (i.head ++ i.operand.encode i.modrmReg) ++ rest) = .ud))

/-- The reserved EVEX encodings are #UD: P0 bits 3:2 not `00`, P1 bit 2 not `1`, `L'L = 11` without embedded rounding,
`z = 1` with `aaa = 000` (30_encoding.md R109, R112, R115, R120). In 32-bit mode `62` begins an EVEX prefix when bits 7:6 of P0
are `11` (R114). -/
def Obligations.EvexReservedIsUndefined : Prop :=
  (∀ (m : Mode) (p : Prefixes) (p0 p1 p2 op : Byte) (reg : BitVec 3) (rm : RmOperand) (rest : List Byte), rm.wf = true →
    m = .mode64 ∨ (m = .mode32 ∧ p0.extractLsb' 6 2 = 3#2) → (p0.extractLsb' 2 2 ≠ 0#2 ∨ p1.getLsbD 2 = false) →
    decode m (p.encode ++ [0x62#8, p0, p1, p2, op] ++ rm.encode reg ++ rest) = .ud) ∧
  (∀ (m : Mode) (p : Prefixes) (e : Evex) (ll : BitVec 2) (b : Bool) (reg : BitVec 3) (rm : RmOperand) (rest : List Byte),
    m.admits e.low = true → rm.wf = true →
    ((ll = 3#2 ∧ (b = false ∨ rm.isMem = true)) ∨ (e.z = true ∧ e.aaa = 0#3)) →
    decode m (p.encode ++ e.bytes ll b ++ [0x58#8] ++ rm.encode reg ++ rest) = .ud)

/-- Encodings near the six forms that spell other instructions are refused: no `66`, or `F2` or `F3` with or without `66`,
before `0F 58`; another opcode, map or `pp` under VEX; another map, `pp`, `W` or opcode under EVEX, in 64-bit mode and, where
bits 7:6 of the next byte are `11`, in 32-bit mode; in 32-bit mode a byte `40` to `4F`, and `62`, `C4`, `C5` before a byte whose
bits 7:6 are not `11` (30_encoding.md R86, R104, R105, R114, R115, R121). -/
def Obligations.OtherInstructionsAreRefused : Prop :=
  (∀ (m : Mode) (rest : List Byte), m = .mode64 ∨ m = .mode32 →
    decode m (0x0F#8 :: 0x58#8 :: rest) = .refused .otherInstruction ∧
    ∀ b ∈ [0xF2#8, 0xF3#8],
      decode m (b :: 0x0F#8 :: 0x58#8 :: rest) = .refused .otherInstruction ∧
      decode m (0x66#8 :: b :: 0x0F#8 :: 0x58#8 :: rest) = .refused .otherInstruction ∧
      decode m (b :: 0x66#8 :: 0x0F#8 :: 0x58#8 :: rest) = .refused .otherInstruction) ∧
  (∀ (m : Mode) (v1 op : Byte) (rest : List Byte), m = .mode64 ∨ (m = .mode32 ∧ v1.extractLsb' 6 2 = 3#2) →
    v1.extractLsb' 0 2 ≠ 1#2 ∨ op ≠ 0x58#8 →
    decode m (0xC5#8 :: v1 :: op :: rest) = .refused .otherInstruction) ∧
  (∀ (m : Mode) (v1 v2 op : Byte) (rest : List Byte), m = .mode64 ∨ (m = .mode32 ∧ v1.extractLsb' 6 2 = 3#2) →
    v1.extractLsb' 0 5 ≠ 1#5 ∨ v2.extractLsb' 0 2 ≠ 1#2 ∨ op ≠ 0x58#8 →
    decode m (0xC4#8 :: v1 :: v2 :: op :: rest) = .refused .otherInstruction) ∧
  (∀ (m : Mode) (p0 p1 p2 op : Byte) (rest : List Byte), m = .mode64 ∨ (m = .mode32 ∧ p0.extractLsb' 6 2 = 3#2) →
    p0.extractLsb' 2 2 = 0#2 → p1.getLsbD 2 = true →
    (p0.extractLsb' 0 2 ≠ 1#2 ∨ p1.extractLsb' 0 2 ≠ 1#2 ∨ p1.getLsbD 7 = false ∨ op ≠ 0x58#8) →
    decode m (0x62#8 :: p0 :: p1 :: p2 :: op :: rest) = .refused .otherInstruction) ∧
  (∀ (b : Byte) (rest : List Byte), b.extractLsb' 4 4 = 4#4 →
    decode .mode32 (b :: rest) = .refused .otherInstruction ∧
    decode .mode32 (0x66#8 :: b :: rest) = .refused .otherInstruction) ∧
  (∀ (op b : Byte) (rest : List Byte), op ∈ [0x62#8, 0xC4#8, 0xC5#8] → b.extractLsb' 6 2 ≠ 3#2 →
    decode .mode32 (op :: b :: rest) = .refused .otherInstruction)

/-! Fetch, step and reset. -/

/-- A step runs the decoded instruction; nothing is added around it. Where the decoder answers #UD the step raises it with
nothing changed, where it refuses the step is refused, and where the bytes that can be fetched are too few the step has the
outcome of the fetch (00_scope.md R17, 30_encoding.md R116, 60_exceptions.md R211, R215). At `END` the run is over and no
instruction is fetched (70_reset_and_hazards.md R247; that the final state is answered again is the model's choice, log
entry 7). -/
def Obligations.StepRunsDecodedInstruction : Prop :=
  ∀ (s : State), premises s = none →
    (s.rip = s.cfg.endRip → step s = .next s) ∧
    (∀ (i : Instr) (n : Nat), s.rip ≠ s.cfg.endRip → decode s.mode (fetchBytes s maxLength 0).1 = .ok i n →
      i.wf s.mode = true ∧ step s = exec i s) ∧
    (s.rip ≠ s.cfg.endRip → decode s.mode (fetchBytes s maxLength 0).1 = .ud → step s = .fault (.invalidOpcode s)) ∧
    (∀ r, s.rip ≠ s.cfg.endRip → decode s.mode (fetchBytes s maxLength 0).1 = .refused r →
      step s = .refused (decodeRefusal r)) ∧
    (s.rip ≠ s.cfg.endRip → decode s.mode (fetchBytes s maxLength 0).1 = .short → step s = (fetchBytes s maxLength 0).2)

/-- When the bytes of an instruction stand at `RIP` and can be fetched, a step executes it; only as many bytes as the
instruction has are needed (20_memory.md R76). -/
def Obligations.InstructionInMemoryRuns : Prop :=
  ∀ (s : State) (i : Instr), premises s = none → s.rip ≠ s.cfg.endRip → i.wf s.mode = true →
    (∀ j, j < i.length → Fetchable s j ((encode i).getD j 0#8)) → step s = exec i s

/-- The fault of the lowest-addressed byte of the instruction that has one is the outcome, before every decode and execute
fault: #GP(0) at a non-canonical address in 64-bit mode and where `SegCheck` of the code segment fails in 32-bit mode, #PF with
its address in CR2 where the translation refuses (20_memory.md R70, R76, 60_exceptions.md R205, R211; that a non-canonical byte
faults and is not refused: log entry 12; that the code segment's check applies: log entry 23). -/
def Obligations.FetchFaultsComeFirst : Prop :=
  ∀ (s : State) (i : Instr) (k : Nat), premises s = none → s.rip ≠ s.cfg.endRip → i.wf s.mode = true → k < i.length →
    (∀ j, j < k → Fetchable s j ((encode i).getD j 0#8)) → FetchInRange s k →
    (s.mode = .mode64 → canonical s.cfg.vabits (fetchAddr s k) = false → step s = .fault (.generalProtection s)) ∧
    (s.mode = .mode32 → segCheck s.cfg .cs (s.rip + BitVec.ofNat 64 k) 1 = false →
      step s = .fault (.generalProtection s)) ∧
    (∀ code, (s.mode = .mode64 → canonical s.cfg.vabits (fetchAddr s k) = true) →
      (s.mode = .mode32 → segCheck s.cfg .cs (s.rip + BitVec.ofNat 64 k) 1 = true) →
      translate s.cfg (fetchAddr s k) .fetch s.cpl = some code →
      step s = .fault (.pageFault code (fetchAddr s k) { s with cr2 := fetchAddr s k }))

/-- The reset values of 10_state.md R45, both columns; the rule leaves EDX open, so nothing is said of `x[2]`. That `x[0]` is 0
after RESET is the model's choice (log entry 1): R45 says so where the built-in self-test passed or was not run. Interrupts are
masked: EFLAGS has no bit set but bit 1. After INIT two bits of CR0, CD and NW, are unchanged; their places are not said. -/
def Obligations.ResetValues : Prop :=
  (∀ n, State.reset.vec n = 0#512) ∧ (∀ n, State.reset.kreg n = 0#64) ∧ State.reset.mxcsr = 0x00001F80#32 ∧
  (∀ n, n ≠ 2#4 → State.reset.x n = 0#64) ∧ State.reset.rip = 0x0000FFF0#64 ∧ State.reset.eflags = 0x00000002#32 ∧
  State.reset.cr0 = 0x60000010#32 ∧ State.reset.cr4 = 0#32 ∧ State.reset.xcr0 = 1#8 ∧
  State.reset.base .cs = 0xFFFF0000#64 ∧ (∀ seg, seg ≠ .cs → State.reset.base seg = 0#64) ∧
  State.reset.cpl = 0#2 ∧ State.reset.mode = .realAddress ∧
  (∀ s : State, s.afterInit.zmm = s.zmm ∧ s.afterInit.k = s.k ∧ s.afterInit.mxcsr = s.mxcsr ∧
    (∀ n, n ≠ 2#4 → s.afterInit.x n = 0#64) ∧ s.afterInit.rip = 0x0000FFF0#64 ∧ s.afterInit.eflags = 0x00000002#32 ∧
    s.afterInit.cr4 = 0#32 ∧ s.afterInit.xcr0 = s.xcr0 ∧ s.afterInit.base .cs = 0xFFFF0000#64 ∧
    (∀ seg, seg ≠ .cs → s.afterInit.base seg = 0#64) ∧ s.afterInit.cpl = 0#2 ∧ s.afterInit.mode = .realAddress) ∧
  (∃ cd nw, cd < 32 ∧ nw < 32 ∧ cd ≠ nw ∧ ∀ (s : State) (b : Nat), s.afterInit.cr0.getLsbD b =
    if b = cd ∨ b = nw then s.cr0.getLsbD b else (0x60000010#32).getLsbD b)

/-- At the reset values the processor is in real-address mode, which is refused, and were any form reached, it would raise
#UD (10_state.md R46). -/
def Obligations.ResetCannotExecute : Prop :=
  State.reset.mode = .realAddress ∧ State.reset.osfxsr = false ∧ State.reset.osxsave = false ∧
  step State.reset = .refused .modeOutOfScope ∧
  ∀ (i : Instr) (m : Mode), m = .mode64 ∨ m = .mode32 →
    exec i { State.reset with mode := m } = .fault (.invalidOpcode { State.reset with mode := m })

/-- The invariant holds after reset. For memory and the configuration, to which the spec gives no reset value, that rests on
the model's choice (log entries 2 and 3). -/
def Obligations.InvAtReset : Prop := Inv State.reset

/-- Every step keeps the invariant: canonical memory, reserved MXCSR bits zero (10_state.md R27), no vector register bit at or
above `MAXVL` (R20), a representable `RIP` (R33), an admitted configuration (00_scope.md R8). -/
def Obligations.StepKeepsInv : Prop :=
  ∀ s t : State, Inv s → step s = .next t → Inv t

/-- Within a run the mask registers, the general registers, the control registers, memory and MXCSR's control and mask bits
are constant, and MXCSR's flags are never cleared: only the five flags, the vector registers and `RIP` change
(60_exceptions.md R221, 20_memory.md R52). -/
def Obligations.RunKeepsEverythingElse : Prop :=
  ∀ (n : Nat) (s t : State), runSteps n s = .next t →
    t.k = s.k ∧ t.gpr = s.gpr ∧ t.segBase = s.segBase ∧ t.eflags = s.eflags ∧ t.cr0 = s.cr0 ∧ t.cr2 = s.cr2 ∧
    t.cr4 = s.cr4 ∧ t.xcr0 = s.xcr0 ∧ t.cpl = s.cpl ∧ t.mode = s.mode ∧ t.cfg = s.cfg ∧ t.draws = s.draws ∧
    (∀ a, t.byteAt a = s.byteAt a) ∧
    (∀ b, b ∉ [0, 1, 3, 4, 5] → t.mxcsr.getLsbD b = s.mxcsr.getLsbD b) ∧
    (∀ b, s.mxcsr.getLsbD b = true → t.mxcsr.getLsbD b = true)

/-! What each form does when it completes. -/

/-- Form F1, without and with REX: the destination is the first source, two sums, the bits from 128 up unmodified
(41_addpd_legacy_sse.md R161). -/
def Obligations.AddpdCompletes : Prop :=
  (∀ (p : Prefixes) (reg : BitVec 3) (rm : RmOperand) (s : State),
    let i := Instr.addpdSse p reg rm
    let d := vecNum false false reg
    let src2 := sourceOf s p false false false 1 i.length false rm
    let out := laneOut s s.rc s.um d src2
    let act := [true, true]
    Enabled .sse s → SourceReady s true src2 act → NoneUnmasked (condsOf out act) s →
    ripOk s (s.rip.toNat + i.length) = true →
    ∃ t, exec i s = .next t ∧ AddEffect s t d .keep false out act (condsOf out act) i.length) ∧
  (∀ (p : Prefixes) (rex : Rex) (reg : BitVec 3) (rm : RmOperand) (s : State),
    let i := Instr.addpdSseRex p rex reg rm
    let d := vecNum false rex.r reg
    let src2 := sourceOf s p false rex.x rex.b 1 i.length false rm
    let out := laneOut s s.rc s.um d src2
    let act := [true, true]
    Enabled .sse s → SourceReady s true src2 act → NoneUnmasked (condsOf out act) s →
    ripOk s (s.rip.toNat + i.length) = true →
    ∃ t, exec i s = .next t ∧ AddEffect s t d .keep false out act (condsOf out act) i.length)

/-- Form F2, with the two-byte and the three-byte prefix: two sums, the bits from 128 up zeroed, no alignment requirement
(42_vaddpd_vex.md R170). -/
def Obligations.VaddpdVex128Completes : Prop :=
  (∀ (p : Prefixes) (v : Vex2) (reg : BitVec 3) (rm : RmOperand) (s : State),
    let i := Instr.vaddpdVex128C5 p v reg rm
    let d := vecNum false v.r reg
    let src2 := sourceOf s p false false false 1 i.length false rm
    let out := laneOut s s.rc s.um (v.vvvv.setWidth 5) src2
    let act := [true, true]
    Enabled .vex s → SourceReady s false src2 act → NoneUnmasked (condsOf out act) s →
    ripOk s (s.rip.toNat + i.length) = true →
    ∃ t, exec i s = .next t ∧ AddEffect s t d .zero false out act (condsOf out act) i.length) ∧
  (∀ (p : Prefixes) (v : Vex3) (reg : BitVec 3) (rm : RmOperand) (s : State),
    let i := Instr.vaddpdVex128C4 p v reg rm
    let d := vecNum false v.r reg
    let src2 := sourceOf s p false v.x v.b 1 i.length false rm
    let out := laneOut s s.rc s.um (v.vvvv.setWidth 5) src2
    let act := [true, true]
    Enabled .vex s → SourceReady s false src2 act → NoneUnmasked (condsOf out act) s →
    ripOk s (s.rip.toNat + i.length) = true →
    ∃ t, exec i s = .next t ∧ AddEffect s t d .zero false out act (condsOf out act) i.length)

/-- Form F3, with the two-byte and the three-byte prefix: four sums, the bits from 256 up zeroed (42_vaddpd_vex.md R171). -/
def Obligations.VaddpdVex256Completes : Prop :=
  (∀ (p : Prefixes) (v : Vex2) (reg : BitVec 3) (rm : RmOperand) (s : State),
    let i := Instr.vaddpdVex256C5 p v reg rm
    let d := vecNum false v.r reg
    let src2 := sourceOf s p false false false 1 i.length false rm
    let out := laneOut s s.rc s.um (v.vvvv.setWidth 5) src2
    let act := [true, true, true, true]
    Enabled .vex s → SourceReady s false src2 act → NoneUnmasked (condsOf out act) s →
    ripOk s (s.rip.toNat + i.length) = true →
    ∃ t, exec i s = .next t ∧ AddEffect s t d .zero false out act (condsOf out act) i.length) ∧
  (∀ (p : Prefixes) (v : Vex3) (reg : BitVec 3) (rm : RmOperand) (s : State),
    let i := Instr.vaddpdVex256C4 p v reg rm
    let d := vecNum false v.r reg
    let src2 := sourceOf s p false v.x v.b 1 i.length false rm
    let out := laneOut s s.rc s.um (v.vvvv.setWidth 5) src2
    let act := [true, true, true, true]
    Enabled .vex s → SourceReady s false src2 act → NoneUnmasked (condsOf out act) s →
    ripOk s (s.rip.toNat + i.length) = true →
    ∃ t, exec i s = .next t ∧ AddEffect s t d .zero false out act (condsOf out act) i.length)

/-- Form F4: two lanes under the writemask, an 8-bit displacement scaled by 16, or by 8 with broadcast
(43_vaddpd_evex.md R185, R190). -/
def Obligations.VaddpdEvex128Completes : Prop :=
  ∀ (p : Prefixes) (e : Evex) (bcast : Bool) (reg : BitVec 3) (rm : RmOperand) (s : State),
    let i := Instr.vaddpdEvex128 p e bcast reg rm
    let d := vecNum e.rr e.r reg
    let src2 := sourceOf s p e.x e.x e.b (if bcast then 8 else 16) i.length bcast rm
    let out := laneOut s s.rc s.um (bit1 e.vv ++ e.vvvv) src2
    let act := [Active s e.aaa 0, Active s e.aaa 1]
    Enabled .evexVl s → SourceReady s false src2 act → NoneUnmasked (condsOf out act) s →
    ripOk s (s.rip.toNat + i.length) = true →
    ∃ t, exec i s = .next t ∧ AddEffect s t d .zero e.z out act (condsOf out act) i.length

/-- Form F5: four lanes under the writemask, an 8-bit displacement scaled by 32, or by 8 with broadcast
(43_vaddpd_evex.md R185, R191). -/
def Obligations.VaddpdEvex256Completes : Prop :=
  ∀ (p : Prefixes) (e : Evex) (bcast : Bool) (reg : BitVec 3) (rm : RmOperand) (s : State),
    let i := Instr.vaddpdEvex256 p e bcast reg rm
    let d := vecNum e.rr e.r reg
    let src2 := sourceOf s p e.x e.x e.b (if bcast then 8 else 32) i.length bcast rm
    let out := laneOut s s.rc s.um (bit1 e.vv ++ e.vvvv) src2
    let act := [Active s e.aaa 0, Active s e.aaa 1, Active s e.aaa 2, Active s e.aaa 3]
    Enabled .evexVl s → SourceReady s false src2 act → NoneUnmasked (condsOf out act) s →
    ripOk s (s.rip.toNat + i.length) = true →
    ∃ t, exec i s = .next t ∧ AddEffect s t d .zero e.z out act (condsOf out act) i.length

/-- Form F6: eight lanes under the writemask, an 8-bit displacement scaled by 64, or by 8 with broadcast
(43_vaddpd_evex.md R185, R192). -/
def Obligations.VaddpdEvex512Completes : Prop :=
  ∀ (p : Prefixes) (e : Evex) (bcast : Bool) (reg : BitVec 3) (rm : RmOperand) (s : State),
    let i := Instr.vaddpdEvex512 p e bcast reg rm
    let d := vecNum e.rr e.r reg
    let src2 := sourceOf s p e.x e.x e.b (if bcast then 8 else 64) i.length bcast rm
    let out := laneOut s s.rc s.um (bit1 e.vv ++ e.vvvv) src2
    let act := [Active s e.aaa 0, Active s e.aaa 1, Active s e.aaa 2, Active s e.aaa 3,
      Active s e.aaa 4, Active s e.aaa 5, Active s e.aaa 6, Active s e.aaa 7]
    Enabled .evex512 s → SourceReady s false src2 act → NoneUnmasked (condsOf out act) s →
    ripOk s (s.rip.toNat + i.length) = true →
    ∃ t, exec i s = .next t ∧ AddEffect s t d .zero e.z out act (condsOf out act) i.length

/-- Form F6 with embedded rounding: eight lanes under the writemask, rounded by `EVEX.RC`, every exception suppressed and no
flag written, so that it completes whatever the operands hold (43_vaddpd_evex.md R185, R193). -/
def Obligations.VaddpdEvex512ErCompletes : Prop :=
  ∀ (p : Prefixes) (e : Evex) (rc : BitVec 2) (reg rm : BitVec 3) (s : State),
    let i := Instr.vaddpdEvex512Er p e rc reg rm
    let d := vecNum e.rr e.r reg
    let out := laneOut s (Rounding.ofBits rc) true (bit1 e.vv ++ e.vvvv) (.reg (vecNum e.x e.b rm))
    let act := [Active s e.aaa 0, Active s e.aaa 1, Active s e.aaa 2, Active s e.aaa 3,
      Active s e.aaa 4, Active s e.aaa 5, Active s e.aaa 6, Active s e.aaa 7]
    Enabled .evex512 s → ripOk s (s.rip.toNat + i.length) = true →
    ∃ t, exec i s = .next t ∧ AddEffect s t d .zero e.z out act {} i.length

/-! What each form leaves unchanged. -/

/-- State written by form F1: `ZMM[d][127:0]`, the MXCSR flags IE, DE, OE, UE, PE (set, never cleared) and `RIP`; nothing else
(41_addpd_legacy_sse.md R162). -/
def Obligations.AddpdWritesOnlyItsState : Prop :=
  ∀ (i : Instr) (s t : State), isLegacy i = true → exec i s = .next t →
    Unchanged s t (destination i) ∧
    (∀ b, 128 ≤ b → (t.vec (destination i)).getLsbD b = (s.vec (destination i)).getLsbD b) ∧
    (∀ b, b ∉ [0, 1, 3, 4, 5] → t.mxcsr.getLsbD b = s.mxcsr.getLsbD b) ∧
    (∀ b, s.mxcsr.getLsbD b = true → t.mxcsr.getLsbD b = true)

/-- State written by forms F2 and F3: `ZMM[d]` in full, sums below `VL` and zeros from `VL` up to `MAXVL`, the MXCSR flags
(set, never cleared) and `RIP`; nothing else (42_vaddpd_vex.md R172). -/
def Obligations.VexWritesOnlyItsState : Prop :=
  ∀ (i : Instr) (s t : State), enableClass i = .vex → exec i s = .next t →
    Unchanged s t (destination i) ∧
    (∀ j, j < laneCount i → lane (t.vec (destination i)) j = (sumOf s i j).res) ∧
    (∀ b, 64 * laneCount i ≤ b → b < maxvl s.cfg → (t.vec (destination i)).getLsbD b = false) ∧
    (∀ b, b ∉ [0, 1, 3, 4, 5] → t.mxcsr.getLsbD b = s.mxcsr.getLsbD b) ∧
    (∀ b, s.mxcsr.getLsbD b = true → t.mxcsr.getLsbD b = true)

/-- State written by forms F4, F5 and F6: `ZMM[d]`, an active lane its sum, a masked-off lane its old value or zero, zeros from
`VL` up whatever the writemask holds; the MXCSR flags, from the active lanes only and not at all under embedded rounding;
`RIP`. No mask register, general register, EFLAGS bit or memory byte (43_vaddpd_evex.md R186, R187). -/
def Obligations.EvexWritesOnlyItsState : Prop :=
  ∀ (i : Instr) (s t : State), enableClass i = .evexVl ∨ enableClass i = .evex512 → exec i s = .next t →
    Unchanged s t (destination i) ∧
    (∀ j, j < laneCount i → lane (t.vec (destination i)) j =
      if Active s (writemask i) j then (sumOf s i j).res
      else if zeroingOf i then 0#64 else lane (s.vec (destination i)) j) ∧
    (∀ b, 64 * laneCount i ≤ b → b < maxvl s.cfg → (t.vec (destination i)).getLsbD b = false) ∧
    t.mxcsr = s.mxcsr ||| (if (embeddedRounding i).isSome then 0#32 else (condsOf (sumOf s i) (activity s i)).bits)

/-- The flag update without a fault: each of IE, DE, OE, UE, PE becomes 1 if it was 1 or if its condition arose in an active
lane; ZE and every other MXCSR bit keep their values (40_numerics_double_add.md R152). -/
def Obligations.FlagsAreSticky : Prop :=
  ∀ (i : Instr) (s t : State), embeddedRounding i = none → exec i s = .next t →
    let c := condsOf (sumOf s i) (activity s i)
    t.mxcsr.getLsbD 0 = (s.mxcsr.getLsbD 0 || c.i) ∧ t.mxcsr.getLsbD 1 = (s.mxcsr.getLsbD 1 || c.d) ∧
    t.mxcsr.getLsbD 3 = (s.mxcsr.getLsbD 3 || c.o) ∧ t.mxcsr.getLsbD 4 = (s.mxcsr.getLsbD 4 || c.u) ∧
    t.mxcsr.getLsbD 5 = (s.mxcsr.getLsbD 5 || c.p) ∧
    ∀ b, b ∉ [0, 1, 3, 4, 5] → t.mxcsr.getLsbD b = s.mxcsr.getLsbD b

/-- `VEX.W` is ignored: with the three-byte prefix, `W = 0` and `W = 1` give the same instruction (42_vaddpd_vex.md R174); so is
REX.W (30_encoding.md R85). -/
def Obligations.WIsIgnored : Prop :=
  ∀ (p : Prefixes) (v : Vex3) (rex : Rex) (reg : BitVec 3) (rm : RmOperand) (w : Bool) (s : State),
    exec (.vaddpdVex128C4 p { v with w := w } reg rm) s = exec (.vaddpdVex128C4 p v reg rm) s ∧
    exec (.vaddpdVex256C4 p { v with w := w } reg rm) s = exec (.vaddpdVex256C4 p v reg rm) s ∧
    exec (.addpdSseRex p { rex with w := w } reg rm) s = exec (.addpdSseRex p rex reg rm) s

/-- Of the mask registers only bits `KL-1:0` of the selected one are read, and none when `aaa = 0`; no form writes one: with
any other contents of the mask registers the outcome is the same (10_state.md R26). -/
def Obligations.OnlyTheWritemaskBitsAreRead : Prop :=
  ∀ (i : Instr) (s : State) (k : Vector (BitVec 64) 8),
    (writemask i ≠ 0#3 → ∀ j, j < laneCount i →
      (State.kreg { s with k := k } (writemask i)).getLsbD j = (s.kreg (writemask i)).getLsbD j) →
    exec i { s with k := k } = mapOutcome (fun u => { u with k := k }) (exec i s)

/-- A lane that is not active, and a bit from `VL` up, of a source register has no effect: with any other contents there the
outcome is the same, faults and flags included (43_vaddpd_evex.md R188, 42_vaddpd_vex.md R175). -/
def Obligations.MaskedOffLanesDoNotMatter : Prop :=
  ∀ (i : Instr) (s : State) (n : BitVec 5) (v : VecReg), n ≠ destination i →
    (∀ j, j < laneCount i → Active s (writemask i) j = true → lane v j = lane (s.vec n) j) →
    exec i (s.setVec n v) = mapOutcome (fun u => u.setVec n v) (exec i s)

/-- Under embedded rounding MXCSR's masks are not asked, no flag changes, no SIMD floating-point fault can occur (a fault can
only be of the enable checks), the masked results are delivered, MXCSR.DAZ and MXCSR.FTZ apply and `EVEX.RC` replaces
MXCSR.RC (40_numerics_double_add.md R151). -/
def Obligations.EmbeddedRoundingSuppresses : Prop :=
  ∀ (p : Prefixes) (e : Evex) (rc : BitVec 2) (reg rm : BitVec 3) (s : State),
    let i := Instr.vaddpdEvex512Er p e rc reg rm
    (∀ f, exec i s = .fault f → f = .invalidOpcode s ∨ f = .deviceNotAvailable s) ∧
    (Enabled .evex512 s → ripOk s (s.rip.toNat + i.length) = true →
      ∃ t, exec i s = .next t ∧ t.mxcsr = s.mxcsr ∧
        ∀ j, j < 8 → Active s e.aaa j = true → lane (t.vec (vecNum e.rr e.r reg)) j =
          (fadd64 (lane (s.vec (bit1 e.vv ++ e.vvvv)) j) (lane (s.vec (vecNum e.x e.b rm)) j) (Rounding.ofBits rc)
            (s.mxcsr.getLsbD 6) (s.mxcsr.getLsbD 15) true).res)

/-- With underflow masked and FTZ off, UE is never set, in a next state or at a fault; a sum that rounds below `MINN` is exact
and has a denormal pattern, and one that is not below `MINN` does not round below it (40_numerics_double_add.md R148). -/
def Obligations.TinySumsAreExact : Prop :=
  (∀ (neg : Bool) (m : Nat) (rm : Rounding), m ≠ 0 →
    (m < minnUnits → round53 neg m rm = (m, false) ∧ magnitude (pack neg 0 m) = m) ∧ (minnUnits ≤ m → minnUnits ≤ (round53 neg m rm).1)) ∧
  (∀ (i : Instr) (s t : State), s.mxcsr.getLsbD 11 = true → s.mxcsr.getLsbD 15 = false → exec i s = .next t →
    t.mxcsr.getLsbD 4 = s.mxcsr.getLsbD 4) ∧
  (∀ (i : Instr) (s : State) (f : Fault), s.mxcsr.getLsbD 11 = true → s.mxcsr.getLsbD 15 = false → exec i s = .fault f →
    (faultState f).mxcsr.getLsbD 4 = s.mxcsr.getLsbD 4)

/-- The divide-by-zero condition never arises: the flag ZE is never set, in a next state or at a fault, and the mask ZM is
never read (40_numerics_double_add.md R149). -/
def Obligations.DivideByZeroNeverArises : Prop :=
  ∀ (i : Instr) (s : State),
    (∀ t, exec i s = .next t → t.mxcsr.getLsbD 2 = s.mxcsr.getLsbD 2) ∧
    (∀ f, exec i s = .fault f → (faultState f).mxcsr.getLsbD 2 = s.mxcsr.getLsbD 2) ∧
    exec i { s with mxcsr := s.mxcsr ^^^ 0x200#32 } =
      mapOutcome (fun u => { u with mxcsr := u.mxcsr ^^^ 0x200#32 }) (exec i s)

/-! Faults. -/

/-- The #UD causes that are no matter of the encoding, before #NM and before any operand is read: nothing has changed
(60_exceptions.md R201). -/
def Obligations.DisabledIsUndefined : Prop :=
  ∀ (i : Instr) (s : State), premises s = none →
    (match enableClass i with
      | .sse => s.cfg.sse2 = false ∨ s.cr0.getLsbD 2 = true ∨ s.cr4.getLsbD 9 = false
      | .vex => s.cfg.avx = false ∨ s.cr4.getLsbD 18 = false ∨ s.xcr0.extractLsb' 1 2 ≠ 3#2
      | .evexVl => s.cfg.avx512f = false ∨ s.cfg.avx512vl = false ∨ s.cr4.getLsbD 18 = false ∨
          s.xcr0.extractLsb' 1 2 ≠ 3#2 ∨ s.xcr0.extractLsb' 5 3 ≠ 7#3
      | .evex512 => s.cfg.avx512f = false ∨ s.cr4.getLsbD 18 = false ∨
          s.xcr0.extractLsb' 1 2 ≠ 3#2 ∨ s.xcr0.extractLsb' 5 3 ≠ 7#3) →
    exec i s = .fault (.invalidOpcode s)

/-- #NM: raised by every form when CR0.TS = 1 and no decode-time #UD cause holds; #UD wins over #NM
(60_exceptions.md R202). -/
def Obligations.TaskSwitchedIsDeviceNotAvailable : Prop :=
  (∀ (i : Instr) (s : State), premises s = none → disabled (enableClass i) s = false → s.cr0.getLsbD 3 = true →
    exec i s = .fault (.deviceNotAvailable s)) ∧
  (∀ (i : Instr) (s : State), premises s = none → isLegacy i = true → s.cr0.getLsbD 2 = true → s.cr0.getLsbD 3 = true →
    exec i s = .fault (.invalidOpcode s))

/-- Form F1 with a memory operand whose linear address is no multiple of 16 raises #GP(0), whatever the segment, and changes
nothing (20_memory.md R56), where no check before that one fails (R64). -/
def Obligations.MisalignedAddpdFaults : Prop :=
  ∀ (i : Instr) (s : State) (seg dflt : Seg) (ea : Addr) (bcast : Bool), isLegacy i = true →
    secondSource s i = .mem seg dflt ea bcast → Enabled .sse s →
    crosses4G s ea (List.range 16) = false → segmentOk s seg ea (List.range 16) = true →
    (linear s seg ea 0).toNat % 16 ≠ 0 → exec i s = .fault (.generalProtection s)

/-- A memory operand with an accessed byte that fails the segment check: #SS(0) in the stack segment, #GP(0) in any other;
where form F1 is misaligned as well, either; and either where in 64-bit mode an override of ES, CS, SS or DS moves the operand
into or out of SS (20_memory.md R62, R64, 60_exceptions.md R203, R204; the last: log entry 22). The check is that every
accessed byte is canonical in 64-bit mode; in 32-bit mode, for a form without writemask and broadcast, that `SegCheck` admits
the access to the whole operand. -/
def Obligations.SegmentCheckFaults : Prop :=
  (∀ (s : State) (seg : Seg) (ea : Addr) (offs : List Nat), s.mode = .mode64 →
    (segmentOk s seg ea offs = true ↔ ∀ o ∈ offs, canonical s.cfg.vabits (linear s seg ea o) = true)) ∧
  (∀ (i : Instr) (s : State) (seg : Seg) (ea : Addr), s.mode = .mode32 → writemask i = 0#3 →
    segmentOk s seg ea (offsets false (activity s i) true) = segCheck s.cfg seg ea (8 * laneCount i)) ∧
  ∀ (i : Instr) (s : State) (seg dflt : Seg) (ea : Addr) (bcast : Bool), secondSource s i = .mem seg dflt ea bcast →
    Enabled (enableClass i) s →
    let offs := offsets bcast (activity s i) true
    crosses4G s ea offs = false → segmentOk s seg ea offs = false →
    let contested := s.mode = .mode64 ∧ seg ≠ .fs ∧ seg ≠ .gs ∧ ¬(seg = .ss ↔ dflt = .ss)
    let either := ∃ u, u = { s with draws := s.draws + 1 } ∧
      (exec i s = .fault (.stackSegment u) ∨ exec i s = .fault (.generalProtection u))
    (contested → either) ∧
    (¬contested → seg ≠ .ss → exec i s = .fault (.generalProtection s)) ∧
    (¬contested → seg = .ss → (isLegacy i = false ∨ aligned16 s seg ea = true) → exec i s = .fault (.stackSegment s)) ∧
    (¬contested → seg = .ss → isLegacy i = true → aligned16 s seg ea = false → either)

/-- A memory operand that passes the segment and alignment checks and has accessed bytes the translation refuses: #PF at one of
these bytes, with its code and its linear address, CR2 holding the address. Which of several is left open: no claim depends on
it (20_memory.md R63 to R65, 60_exceptions.md R205; log entry 13). `n` is the model's own counter of draws. -/
def Obligations.OperandPageFaults : Prop :=
  ∀ (i : Instr) (s : State) (seg dflt : Seg) (ea : Addr) (bcast : Bool),
    secondSource s i = .mem seg dflt ea bcast → Enabled (enableClass i) s →
    let offs := offsets bcast (activity s i) true
    crosses4G s ea offs = false → segmentOk s seg ea offs = true → (isLegacy i = true → aligned16 s seg ea = true) →
    (∃ k ∈ offs, translate s.cfg (linear s seg ea k) .dataRead s.cpl ≠ none) →
    ∃ k ∈ offs, ∃ (code : BitVec 32) (n : Nat), translate s.cfg (linear s seg ea k) .dataRead s.cpl = some code ∧
      (n = s.draws ∨ n = s.draws + 1) ∧
      exec i s = .fault (.pageFault code (linear s seg ea k) { s with cr2 := linear s seg ea k, draws := n })

/-- With a writemask all zero no memory is read and no flag set: where fault suppression is asserted the form completes
whatever the operand's address, keeping the lanes (merging) or zeroing them, and zeroing from `VL` up; where it is not and the
operand is inaccessible, the model refuses (43_vaddpd_evex.md R194, 20_memory.md R66). -/
def Obligations.AllMaskedOff : Prop :=
  ∀ (i : Instr) (s : State), Enabled (enableClass i) s → (∀ j, j < laneCount i → Active s (writemask i) j = false) →
    ripOk s (s.rip.toNat + i.length) = true →
    (s.cfg.faultSuppression = true → ∃ t, exec i s = .next t ∧ t.mxcsr = s.mxcsr ∧
      t.rip.toNat = s.rip.toNat + i.length ∧ Unchanged s t (destination i) ∧
      (∀ b, b < 64 * laneCount i → (t.vec (destination i)).getLsbD b =
        if zeroingOf i then false else (s.vec (destination i)).getLsbD b) ∧
      (∀ b, 64 * laneCount i ≤ b → b < maxvl s.cfg → (t.vec (destination i)).getLsbD b = false)) ∧
    (∀ seg dflt ea bcast, s.cfg.faultSuppression = false → secondSource s i = .mem seg dflt ea bcast →
      accessible s seg ea (offsets bcast (activity s i) false) = false →
      exec i s = .refused .maskedElementInaccessible)

/-- A SIMD floating-point fault: #XM, or #UD when CR4.OSXMMEXCPT = 0. The flags OR-ed into MXCSR lie between those of the
unmasked conditions that caused it and those of all conditions seen; nothing else is written. Unmasked pre-computation
conditions take precedence over post-computation ones (40_numerics_double_add.md R150, R153). -/
def Obligations.UnmaskedConditionsFault : Prop :=
  ∀ (i : Instr) (s : State), embeddedRounding i = none → Enabled (enableClass i) s →
    SourceReady s (isLegacy i) (secondSource s i) (activity s i) →
    let pre := preOf (sumOf s i) (activity s i)
    let post := postOf (sumOf s i) (activity s i)
    let cause := if (pre.unmasked s).any then pre.unmasked s else post.unmasked s
    let seen := if (pre.unmasked s).any then pre else pre.union post
    cause.any = true →
    ∃ (flags : BitVec 32) (u : State), flags &&& cause.bits = cause.bits ∧ flags &&& ~~~seen.bits = 0#32 ∧
      u = { s with mxcsr := s.mxcsr ||| flags, draws := s.draws + 1 } ∧
      exec i s = .fault (if s.cr4.getLsbD 10 then .simdFloatingPoint u else .invalidOpcode u)

/-- Every exception is a precise fault: the state at it is the state before the instruction, `RIP` at its first byte, but for
CR2 at a page fault and MXCSR's flags where an unmasked condition of the decoded, enabled instruction raises #XM or, with
CR4.OSXMMEXCPT = 0, #UD (60_exceptions.md R207, R213). -/
def Obligations.FaultsArePrecise : Prop :=
  ∀ (s : State) (f : Fault), step s = .fault f →
    let u := faultState f
    let simd := ∃ (i : Instr) (n : Nat), decode s.mode (fetchBytes s maxLength 0).1 = .ok i n ∧ Enabled (enableClass i) s ∧
      SourceReady s (isLegacy i) (secondSource s i) (activity s i) ∧ embeddedRounding i = none ∧
      ((condsOf (sumOf s i) (activity s i)).unmasked s).any = true
    u.rip = s.rip ∧ u.zmm = s.zmm ∧ u.k = s.k ∧ u.gpr = s.gpr ∧ u.segBase = s.segBase ∧ u.eflags = s.eflags ∧
    u.cr0 = s.cr0 ∧ u.cr4 = s.cr4 ∧ u.xcr0 = s.xcr0 ∧ u.cpl = s.cpl ∧ u.mode = s.mode ∧ u.mem = s.mem ∧ u.cfg = s.cfg ∧
    (match f with
      | .pageFault _ info _ => u.cr2 = info
      | _ => u.cr2 = s.cr2) ∧
    (match f with
      | .simdFloatingPoint _ => s.cr4.getLsbD 10 = true ∧ simd
      | .invalidOpcode _ => u.mxcsr = s.mxcsr ∨ (s.cr4.getLsbD 10 = false ∧ simd)
      | _ => u.mxcsr = s.mxcsr) ∧
    (∀ b, b ∉ [0, 1, 3, 4, 5] → u.mxcsr.getLsbD b = s.mxcsr.getLsbD b) ∧
    (∀ b, s.mxcsr.getLsbD b = true → u.mxcsr.getLsbD b = true)

/-- The error code of a page fault is one the translation answers; under an admitted configuration its W/R bit is 0 and its
U/S bit says whether the level is 3 (60_exceptions.md R205). -/
def Obligations.PageFaultCodes : Prop :=
  ∀ (s : State) (code : BitVec 32) (a : Addr) (u : State), s.cfg.wf = true →
    step s = .fault (.pageFault code a u) →
    (translate s.cfg a .fetch s.cpl = some code ∨ translate s.cfg a .dataRead s.cpl = some code) ∧ u.cr2 = a ∧
    code.getLsbD 1 = false ∧ (code.getLsbD 2 = true ↔ s.cpl = 3#2)

/-- No form is privileged: with no page fault in the configuration and alignment checking off, a step does the same at every
privilege level (60_exceptions.md R220). -/
def Obligations.PrivilegeDoesNotMatter : Prop :=
  ∀ (s : State) (c : BitVec 2), s.cfg.pageFaults = [] → (s.am && s.ac) = false →
    step { s with cpl := c } = mapOutcome (fun u => { u with cpl := c }) (step s)

/-- A form that would complete, but for a next `RIP` that is not representable, is refused (10_state.md R33). -/
def Obligations.UnrepresentableRipIsRefused : Prop :=
  ∀ (i : Instr) (s : State), Enabled (enableClass i) s →
    SourceReady s (isLegacy i) (secondSource s i) (activity s i) →
    ((embeddedRounding i).isSome = true ∨ NoneUnmasked (condsOf (sumOf s i) (activity s i)) s) →
    ripOk s (s.rip.toNat + i.length) = false → exec i s = .refused .ripOutOfRange

/-! Between the forms. -/

/-- `VADDPD xmm1, xmm1, xmm2/m128` computes what `ADDPD xmm1, xmm2/m128` computes in bits 127:0, sets the same flags, and
unlike it zeroes the bits from 128 up to `MAXVL`; without REX and with the two-byte prefix for registers 0 to 7, with REX and
with the three-byte prefix for registers 0 to 15 (42_vaddpd_vex.md R175, 70_reset_and_hazards.md R249). -/
def Obligations.LegacyAndVexDifferOnlyAbove128 : Prop :=
  ∀ (p : Prefixes) (rex : Rex) (w : Bool) (reg : BitVec 3) (rm : RmOperand) (s t u : State),
    let differ := fun d : BitVec 5 =>
      (∀ n, n ≠ d → t.vec n = u.vec n) ∧ lane (t.vec d) 0 = lane (u.vec d) 0 ∧ lane (t.vec d) 1 = lane (u.vec d) 1 ∧
      (∀ b, 128 ≤ b → (t.vec d).getLsbD b = (s.vec d).getLsbD b) ∧
      (∀ b, 128 ≤ b → b < maxvl s.cfg → (u.vec d).getLsbD b = false) ∧ t.mxcsr = u.mxcsr ∧ t.rip = u.rip
    (exec (.addpdSse p reg rm) s = .next t → exec (.vaddpdVex128C5 p ⟨false, 0#1 ++ reg⟩ reg rm) s = .next u →
      differ (vecNum false false reg)) ∧
    (exec (.addpdSseRex p rex reg rm) s = .next t →
      exec (.vaddpdVex128C4 p ⟨rex.r, rex.x, rex.b, w, bit1 rex.r ++ reg⟩ reg rm) s = .next u →
      differ (vecNum false rex.r reg))

/-- Forms F4 and F5 with no writemask and registers below 16 compute the same as F2 and F3: the same vector registers and the
same flags (43_vaddpd_evex.md R194). The last operand of the two is one register or one full-width memory operand, which the
two may spell differently: an 8-bit displacement is scaled and a `RIP`-relative one counts from another length. -/
def Obligations.UnmaskedEvexIsVex : Prop :=
  ∀ (p p' : Prefixes) (r x b x' b' w : Bool) (vvvv : BitVec 4) (reg : BitVec 3) (rm rm' : RmOperand) (s t u : State),
    let e : Evex := ⟨r, x, b, false, vvvv, false, false, 0#3⟩
    let v : Vex3 := ⟨r, x', b', w, vvvv⟩
    (secondSource s (.vaddpdEvex128 p e false reg rm) = secondSource s (.vaddpdVex128C4 p' v reg rm') →
      exec (.vaddpdEvex128 p e false reg rm) s = .next t → exec (.vaddpdVex128C4 p' v reg rm') s = .next u →
      t.zmm = u.zmm ∧ t.mxcsr = u.mxcsr) ∧
    (secondSource s (.vaddpdEvex256 p e false reg rm) = secondSource s (.vaddpdVex256C4 p' v reg rm') →
      exec (.vaddpdEvex256 p e false reg rm) s = .next t → exec (.vaddpdVex256C4 p' v reg rm') s = .next u →
      t.zmm = u.zmm ∧ t.mxcsr = u.mxcsr)

/-- The worked example of form F1: the bytes `66 0F 58 C1` at `RIP = 0x1000` (41_addpd_legacy_sse.md R165). -/
def Obligations.WorkedExampleAddpd : Prop :=
  ∀ (s : State), s.mode = .mode64 → premises s = none → s.rip ≠ s.cfg.endRip → disabled .sse s = false → s.ts = false →
    s.rip = 0x1000#64 → s.mxcsr = 0x1F80#32 →
    Fetchable s 0 0x66#8 → Fetchable s 1 0x0F#8 → Fetchable s 2 0x58#8 → Fetchable s 3 0xC1#8 →
    (s.vec 0#5).extractLsb' 0 128 = 0x40000000000000003FF0000000000000#128 →
    (s.vec 1#5).extractLsb' 0 128 = 0x3FD00000000000003FE0000000000000#128 →
    ∃ t, step s = .next t ∧ (t.vec 0#5).extractLsb' 0 128 = 0x40020000000000003FF8000000000000#128 ∧
      t.vec 1#5 = s.vec 1#5 ∧ (∀ b, 128 ≤ b → (t.vec 0#5).getLsbD b = (s.vec 0#5).getLsbD b) ∧
      t.mxcsr = 0x1F80#32 ∧ t.rip = 0x1004#64

/-! The addition of one lane. -/

/-- Denormals-are-zeros: with DAZ the addition is that of the operands with each denormal replaced by the zero of its sign, and
no denormal condition arises (40_numerics_double_add.md R135). -/
def Obligations.DenormalsAreZeros : Prop :=
  ∀ (a b : Double) (rm : Rounding) (ftz um : Bool),
    let z := fun x : Double => if isDenormal x then zeroOf (sign x) else x
    fadd64 a b rm true ftz um = fadd64 (z a) (z b) rm false ftz um ∧ (fadd64 a b rm true ftz um).pre.d = false

/-- NaN operands: the first operand if it is a NaN, else the second, quieted; sign and the low 51 fraction bits pass through;
I exactly when an operand is signalling, and nothing else (40_numerics_double_add.md R136). -/
def Obligations.NanOperands : Prop :=
  ∀ (a b : Double) (rm : Rounding) (daz ftz um : Bool), isNaN a = true ∨ isNaN b = true →
    let r := fadd64 a b rm daz ftz um
    let chosen := if isNaN a then a else b
    r.res = chosen ||| 0x0008000000000000#64 ∧ isNaN r.res = true ∧ isSNaN r.res = false ∧ sign r.res = sign chosen ∧
    r.res.extractLsb' 0 51 = chosen.extractLsb' 0 51 ∧
    r.pre = { i := isSNaN a || isSNaN b } ∧ r.post = {}

/-- Infinities, no operand a NaN: opposite infinities raise I and give QIND; otherwise the infinity, with no O and no P
(40_numerics_double_add.md R137). -/
def Obligations.InfinityOperands : Prop :=
  ∀ (a b : Double) (rm : Rounding) (daz ftz um : Bool), isNaN a = false → isNaN b = false →
    let r := fadd64 a b rm daz ftz um
    (isInf a = true → isInf b = true → sign a ≠ sign b →
      r.res = 0xFFF8000000000000#64 ∧ r.pre = { i := true } ∧ r.post = {}) ∧
    (isInf a = true → (isInf b = true → sign a = sign b) → r.res = a ∧ r.pre.i = false ∧ r.post = {}) ∧
    (isInf b = true → (isInf a = true → sign a = sign b) → r.res = b ∧ r.pre.i = false ∧ r.post = {})

/-- The exact zero sum of two finite operands: two zeros of one sign give that zero, every other zero sum `+0`, or `-0` under
RD; no condition is raised by the zero result (40_numerics_double_add.md R138). -/
def Obligations.ZeroSums : Prop :=
  ∀ (a b : Double) (rm : Rounding) (ftz um : Bool), isFinite a = true → isFinite b = true → value a + value b = 0 →
    let r := fadd64 a b rm false ftz um
    (isZero a = true → isZero b = true → sign a = sign b → r.res = a) ∧
    (¬(isZero a = true ∧ isZero b = true ∧ sign a = sign b) →
      r.res = if rm = .rd then 0x8000000000000000#64 else 0#64) ∧
    r.pre = { d := isDenormal a || isDenormal b } ∧ r.post = {}

/-- A sum that neither vanishes nor overflows is rounded as its mode says: to the nearest representable value, the even one
on a tie; to the largest not above; to the smallest not below; to the largest magnitude not exceeding
(40_numerics_double_add.md R133, R134, R139). -/
def Obligations.RoundingIsCorrect : Prop :=
  ∀ (a b : Double) (rm : Rounding), isFinite a = true → isFinite b = true → value a + value b ≠ 0 →
    let x := value a + value b
    let r := (fadd64 a b rm false false true).res
    (fadd64 a b rm false false true).post.o = false →
    isFinite r = true ∧
    (rm = .rn → ∀ c, isFinite c = true → (x - value r).natAbs ≤ (x - value c).natAbs ∧
      (value c ≠ value r → (x - value r).natAbs = (x - value c).natAbs → frac r % 2 = 0)) ∧
    (rm = .rd → value r ≤ x ∧ ∀ c, isFinite c = true → value c ≤ x → value c ≤ value r) ∧
    (rm = .ru → x ≤ value r ∧ ∀ c, isFinite c = true → x ≤ value c → value r ≤ value c) ∧
    (rm = .rz → (value r).natAbs ≤ x.natAbs ∧ 0 ≤ x * value r ∧
      ∀ c, isFinite c = true → 0 ≤ x * value c → (value c).natAbs ≤ x.natAbs → (value c).natAbs ≤ (value r).natAbs)

/-- Overflow: exactly when the result rounded with unbounded exponent exceeds `MAXF`, never for an infinite operand; O and P
together, and the masked result by mode and sign; half a unit above `MAXF` overflows under RN and not under RZ or RD
(40_numerics_double_add.md R140). -/
def Obligations.OverflowResults : Prop :=
  (∀ (a b : Double) (rm : Rounding) (ftz um : Bool), isFinite a = true → isFinite b = true → value a + value b ≠ 0 →
    let x := value a + value b
    let r := fadd64 a b rm false ftz um
    (r.post.o = true ↔ (2 ^ 53 - 1) * 2 ^ 2045 < (round53 (decide (x < 0)) x.natAbs rm).1) ∧
    (r.post.o = true → r.post = { o := true, p := true } ∧
      r.res = match rm, decide (0 < x) with
        | .rn, true => 0x7FF0000000000000#64
        | .rn, false => 0xFFF0000000000000#64
        | .rd, true => 0x7FEFFFFFFFFFFFFF#64
        | .rd, false => 0xFFF0000000000000#64
        | .ru, true => 0x7FF0000000000000#64
        | .ru, false => 0xFFEFFFFFFFFFFFFF#64
        | .rz, true => 0x7FEFFFFFFFFFFFFF#64
        | .rz, false => 0xFFEFFFFFFFFFFFFF#64)) ∧
  (∀ (a b : Double) (rm : Rounding) (daz ftz um : Bool), isInf a = true ∨ isInf b = true →
    (fadd64 a b rm daz ftz um).post.o = false) ∧
  fadd64 maxf 0x7C90000000000000#64 .rn false false true = ⟨posInf, {}, { o := true, p := true }⟩ ∧
  fadd64 maxf 0x7C90000000000000#64 .rz false false true = ⟨maxf, {}, { p := true }⟩ ∧
  fadd64 maxf 0x7C90000000000000#64 .rd false false true = ⟨maxf, {}, { p := true }⟩

/-- Tiny results: with underflow unmasked U alone; masked and flushed, the zero of the sum's sign with U and P; masked and not
flushed, the exact denormal and no condition. FTZ acts on tiny results only, and a denormal operand raises D under FTZ as
without it (40_numerics_double_add.md R141, R142). -/
def Obligations.TinyResults : Prop :=
  ∀ (a b : Double) (rm : Rounding) (ftz : Bool), isFinite a = true → isFinite b = true → value a + value b ≠ 0 →
    let x := value a + value b
    let tiny := (round53 (decide (x < 0)) x.natAbs rm).1 < minnUnits
    (tiny → (fadd64 a b rm false ftz false).pre = { d := isDenormal a || isDenormal b } ∧
      (fadd64 a b rm false ftz false).post = { u := true }) ∧
    (tiny → fadd64 a b rm false true true =
      ⟨if x < 0 then 0x8000000000000000#64 else 0#64, { d := isDenormal a || isDenormal b }, { u := true, p := true }⟩) ∧
    (tiny → value (fadd64 a b rm false false true).res = x ∧ isDenormal (fadd64 a b rm false false true).res = true ∧
      (fadd64 a b rm false false true).pre = { d := isDenormal a || isDenormal b } ∧
      (fadd64 a b rm false false true).post = {}) ∧
    (¬tiny → ∀ um, fadd64 a b rm false ftz um = fadd64 a b rm false false true)

/-- P is raised exactly when the delivered result differs from the exact sum (with underflow unmasked a tiny sum delivers no
result and raises no P); not for NaN, infinite or zero results of steps
3, 4, 6 and 8, nor for an exact denormal result (40_numerics_double_add.md R143). -/
def Obligations.PrecisionMeansInexact : Prop :=
  (∀ (a b : Double) (rm : Rounding) (ftz : Bool), isFinite a = true → isFinite b = true →
    let r := fadd64 a b rm false ftz true
    r.post.p = true ↔ isFinite r.res = false ∨ value r.res ≠ value a + value b) ∧
  (∀ (a b : Double) (rm : Rounding) (ftz : Bool), isFinite a = true → isFinite b = true → value a + value b ≠ 0 →
    let x := value a + value b
    (fadd64 a b rm false ftz false).post.p = true ↔
      (fadd64 a b rm false false true).post.p = true ∧ ¬ (round53 (decide (x < 0)) x.natAbs rm).1 < minnUnits) ∧
  (∀ (a b : Double) (rm : Rounding) (daz ftz um : Bool), isFinite a = false ∨ isFinite b = false →
    (fadd64 a b rm daz ftz um).post.p = false)

/-- The pre-computation conditions: I for a signalling NaN operand and for opposite infinities, and for nothing else; D when,
after DAZ, an operand is a denormal and no operand is a NaN (40_numerics_double_add.md R144, R145). -/
def Obligations.InvalidAndDenormalConditions : Prop :=
  ∀ (a b : Double) (rm : Rounding) (daz ftz um : Bool),
    let r := fadd64 a b rm daz ftz um
    (r.pre.i = true ↔ isSNaN a = true ∨ isSNaN b = true ∨ (isInf a = true ∧ isInf b = true ∧ sign a ≠ sign b)) ∧
    (r.pre.d = true ↔ daz = false ∧ (isDenormal a = true ∨ isDenormal b = true) ∧ isNaN a = false ∧ isNaN b = false ∧
      ¬(isInf a = true ∧ isInf b = true ∧ sign a ≠ sign b)) ∧
    r.post.i = false ∧ r.post.d = false

/-- For operands that are not NaNs the addition is commutative, in result and conditions; it is not associative, and with two
NaNs it depends on the order. Adding a zero gives the operand back, but for the zero of the other sign, and but for a denormal
operand under DAZ or, which the rule does not say, under FTZ (40_numerics_double_add.md R147, R142). -/
def Obligations.AdditionCommutes : Prop :=
  (∀ (a b : Double) (rm : Rounding) (daz ftz um : Bool), isNaN a = false → isNaN b = false →
    fadd64 a b rm daz ftz um = fadd64 b a rm daz ftz um) ∧
  (∃ a b, fadd64 a b .rn false false true ≠ fadd64 b a .rn false false true) ∧
  (∃ a b c, (fadd64 (fadd64 a b .rn false false true).res c .rn false false true).res ≠
    (fadd64 a (fadd64 b c .rn false false true).res .rn false false true).res) ∧
  (∀ (x : Double) (rm : Rounding) (daz ftz um : Bool), isNaN x = false →
    (isDenormal x = true → daz = false ∧ ftz = false ∧ um = true) →
    (fadd64 x 0#64 rm daz ftz um).res = (if x = 0x8000000000000000#64 ∧ rm ≠ .rd then 0#64 else x) ∧
    (fadd64 x 0x8000000000000000#64 rm daz ftz um).res =
      (if x = 0#64 ∧ rm = .rd then 0x8000000000000000#64 else x))

/-! Addresses and bytes. -/

/-- Memory is little-endian: the byte at `a + i` supplies bits `8i+7:8i` of a value, of an operand and of a displacement in an
instruction (20_memory.md R53). -/
def Obligations.MemoryIsLittleEndian : Prop :=
  (∀ (s : State) (seg : Seg) (ea : Addr) (off i : Nat), i < 8 →
    (s.mode = .mode64 ∨ (linear s seg ea off).toNat + i < 2 ^ 32) →
    (readLane s seg ea off).extractLsb' (8 * i) 8 = s.byteAt (linear s seg ea off + BitVec.ofNat 64 i)) ∧
  (∀ (bs rest : List Byte) (d : BitVec 32), readDisp32 bs = some (d, rest) →
    ∀ i, i < 4 → d.extractLsb' (8 * i) 8 = bs.getD i 0#8)

/-- The segment is the override, else SS for base register 4 or 5 and DS for every other. The linear address adds only the FS
and GS bases in 64-bit mode, modulo 2^64, and every base in 32-bit mode, modulo 2^32 (20_memory.md R61, 30_encoding.md R96). -/
def Obligations.SegmentAndLinearAddress : Prop :=
  (∀ (a67 b : Bool) (m : MemOperand) (seg : Seg), segmentOf ⟨some seg, a67⟩ b m = seg ∧
    segmentOf ⟨none, a67⟩ b m = defaultSegment b m) ∧
  (∀ (b : Bool) (rm : BitVec 3) (disp : Disp), defaultSegment b (.base rm disp) =
    if b = false ∧ (rm = 4#3 ∨ rm = 5#3) then .ss else .ds) ∧
  (∀ (b : Bool) (sc : BitVec 2) (ix bs : BitVec 3) (disp : Disp),
    defaultSegment b (.sib sc ix bs disp) = if b = false ∧ (bs = 4#3 ∨ bs = 5#3) then .ss else .ds) ∧
  (∀ (b : Bool) (sc : BitVec 2) (ix : BitVec 3) (d : BitVec 32),
    defaultSegment b (.sibNoBase sc ix d) = .ds ∧ defaultSegment b (.dispOnly d) = .ds) ∧
  (∀ (i : Instr) (s : State) (seg dflt : Seg) (ea : Addr) (bcast : Bool), secondSource s i = .mem seg dflt ea bcast →
    seg = i.prefixes.seg.getD dflt ∧ (dflt = .ss ∨ dflt = .ds)) ∧
  (∀ (s : State) (seg : Seg) (ea : Addr), s.mode = .mode64 →
    (linear s seg ea 0).toNat = ((if seg = .fs ∨ seg = .gs then (s.base seg).toNat else 0) + ea.toNat) % 2 ^ 64) ∧
  (∀ (s : State) (seg : Seg) (ea : Addr), s.mode = .mode32 →
    (linear s seg ea 0).toNat = ((s.base seg).toNat + ea.toNat) % 2 ^ 32)

/-- The effective address, in arithmetic modulo `2^asz`: base plus index times `2^scale` plus displacement, an 8-bit
displacement multiplied by `N`; no index for register number 4, no base in the SIB form without one; relative to the next
instruction in 64-bit mode, absolute in 32-bit mode; the low 32 bits with a `67` prefix in 64-bit mode (20_memory.md R60,
30_encoding.md R93, R95, R97, R98). A canonical address has bits 63 down to `VABITS - 1` all equal (20_memory.md R62). -/
def Obligations.EffectiveAndCanonicalAddresses : Prop :=
  (∀ (v : VaBits) (a : Addr), canonical v a = true ↔
    ∀ b, (match v with | .va48 => 47 | .va57 => 56) ≤ b → b < 64 → a.getLsbD b = a.getLsbD 63) ∧
  ∀ (s : State) (seg : Option Seg) (x b : Bool) (n len : Nat) (rm ix bs : BitVec 3) (sc : BitVec 2) (d : Disp)
    (d32 : BitVec 32),
    let ea := effectiveAddress s ⟨seg, false⟩ x b n len
    let disp := fun (w : Nat) => match d with
      | .none => 0#w
      | .disp8 d8 => d8.signExtend w * BitVec.ofNat w n
      | .disp32 d => d.signExtend w
    let index := fun (w : Nat) =>
      if x = false ∧ ix = 4#3 then 0#w else (s.x (gprNum x ix)).setWidth w * BitVec.ofNat w (2 ^ sc.toNat)
    (s.mode = .mode64 →
      ea (.base rm d) = s.x (gprNum b rm) + disp 64 ∧
      ea (.sib sc ix bs d) = s.x (gprNum b bs) + index 64 + disp 64 ∧
      ea (.sibNoBase sc ix d32) = index 64 + d32.signExtend 64 ∧
      ea (.dispOnly d32) = s.rip + BitVec.ofNat 64 len + d32.signExtend 64) ∧
    (s.mode = .mode32 →
      ea (.base rm d) = ((s.x (gprNum b rm)).setWidth 32 + disp 32).setWidth 64 ∧
      ea (.sib sc ix bs d) = ((s.x (gprNum b bs)).setWidth 32 + index 32 + disp 32).setWidth 64 ∧
      ea (.sibNoBase sc ix d32) = (index 32 + d32).setWidth 64 ∧
      ea (.dispOnly d32) = d32.setWidth 64) ∧
    (∀ m, s.mode = .mode64 → effectiveAddress s ⟨seg, true⟩ x b n len m = ((ea m).setWidth 32).setWidth 64)

/-- Ignored prefixes: with a register operand any segment override and `67`, and in 64-bit mode an ES, CS, SS or DS override.
Two sets of prefixes that differ in ignored ones only, and are equally long, make the outcome the same, but for which of #SS(0)
and #GP(0) a failing segment check of a memory operand raises (that this is left open: log entry 22); where they are not, a next
state differs in `RIP` only, but for a `RIP`-relative operand, whose address counts from the end of the instruction
(30_encoding.md R83, R122). -/
def Obligations.IgnoredPrefixes : Prop :=
  ∀ (i : Instr) (p q : Prefixes) (s : State),
    let ignored := fun o : Option Seg => o ∈ [none, some .es, some .cs, some .ss, some .ds]
    let checkFails := fun o : Host.Outcome State Fault Refusal => ∃ n, (n = s.draws ∨ n = s.draws + 1) ∧
      (o = .fault (.stackSegment { s with draws := n }) ∨ o = .fault (.generalProtection { s with draws := n }))
    let a := exec (withPrefixes p i) s
    let b := exec (withPrefixes q i) s
    (i.operand.isMem = false ∨ (s.mode = .mode64 ∧ p.a67 = q.a67 ∧ ignored p.seg ∧ ignored q.seg)) →
    (p.length = q.length → a = b ∨ (i.operand.isMem = true ∧ checkFails a ∧ checkFails b)) ∧
    ((∀ d, i.operand ≠ .mem (.dispOnly d)) → ∀ t u, a = .next t → b = .next u → t = { u with rip := t.rip })

end Statements
end

