-- ==== Sys2Proof/Laws/Bits.lean ====
section
/-! SUPPORT. What a slice write, a lane write and the zeroing of the upper bits do to each bit and each lane. -/

namespace Sys2Proof.Machine

theorem getLsbD_setSlice (v : VecReg) {lo len : Nat} (x : VecReg) (hlen : len ≤ 512) (i : Nat) (hi : i < 512) :
    (setSlice v lo len x).getLsbD i = if lo ≤ i ∧ i < lo + len then x.getLsbD (i - lo) else v.getLsbD i := by
  have mask : ((BitVec.allOnes 512 >>> (512 - len)) <<< lo).getLsbD i = decide (lo ≤ i ∧ i < lo + len) := by
    rw [BitVec.getLsbD_shiftLeft, BitVec.getLsbD_ushiftRight, BitVec.getLsbD_allOnes]
    by_cases h1 : i < lo
    · have : ¬ (lo ≤ i ∧ i < lo + len) := by omega
      simp [h1, this]
    · have e : (512 - len + (i - lo) < 512) = (lo ≤ i ∧ i < lo + len) := by
        apply propext; omega
      simp only [hi, h1, e, decide_true, decide_false, Bool.not_false, Bool.true_and]
  unfold setSlice
  simp only [BitVec.getLsbD_or, BitVec.getLsbD_and, BitVec.getLsbD_not, mask, hi, decide_true, Bool.true_and]
  by_cases h : lo ≤ i ∧ i < lo + len
  · have h1 : ¬ i < lo := by omega
    simp only [BitVec.getLsbD_shiftLeft, hi, h1, h, decide_true, decide_false, Bool.not_true,
      Bool.not_false, Bool.and_false, Bool.false_or, Bool.true_and, Bool.and_true, and_self, if_true]
  · simp only [h, decide_false, Bool.not_false, Bool.and_true, Bool.and_false, Bool.or_false, if_false]

theorem getLsbD_lane (v : VecReg) (j k : Nat) (hk : k < 64) : (lane v j).getLsbD k = v.getLsbD (64 * j + k) := by
  simp [lane, hk]

theorem getLsbD_setLane (v : VecReg) {j : Nat} (x : Double) {i : Nat} (hi : i < 512) :
    (setLane v j x).getLsbD i = if 64 * j ≤ i ∧ i < 64 * j + 64 then x.getLsbD (i - 64 * j) else v.getLsbD i := by
  rw [setLane, getLsbD_setSlice v _ (by omega) i hi]
  split
  · simp; omega
  · rfl

theorem lane_setLane_same (v : VecReg) {j : Nat} (hj : j < 8) (x : Double) : lane (setLane v j x) j = x := by
  apply BitVec.eq_of_getLsbD_eq
  intro k hk
  have e1 : 64 * j ≤ 64 * j + k ∧ 64 * j + k < 64 * j + 64 := by omega
  have e2 : 64 * j + k - 64 * j = k := by omega
  rw [getLsbD_lane _ _ _ hk, getLsbD_setLane v x (by omega), if_pos e1, e2]

theorem lane_setLane_ne (v : VecReg) {i j : Nat} (hj : j < 8) (h : i ≠ j) (x : Double) :
    lane (setLane v i x) j = lane v j := by
  apply BitVec.eq_of_getLsbD_eq
  intro k hk
  have e1 : ¬ (64 * i ≤ 64 * j + k ∧ 64 * j + k < 64 * i + 64) := by omega
  rw [getLsbD_lane _ _ _ hk, getLsbD_lane _ _ _ hk, getLsbD_setLane v x (by omega), if_neg e1]

theorem getLsbD_zeroUpper (v : VecReg) {m vl : Nat} (hm : m ≤ 512) {i : Nat} (hi : i < 512) :
    (zeroUpper m vl v).getLsbD i = if vl ≤ i ∧ i < m then false else v.getLsbD i := by
  rw [zeroUpper, getLsbD_setSlice v _ (by omega) i hi]
  by_cases h : vl ≤ i ∧ i < m
  · have : vl ≤ i ∧ i < vl + (m - vl) := by omega
    simp [h, this]
  · have : ¬ (vl ≤ i ∧ i < vl + (m - vl)) := by omega
    simp only [if_neg h, if_neg this]

theorem lane_zeroUpper (v : VecReg) {m vl j : Nat} (hm : m ≤ 512) (hj : 64 * j + 64 ≤ vl) (h8 : j < 8) :
    lane (zeroUpper m vl v) j = lane v j := by
  apply BitVec.eq_of_getLsbD_eq
  intro k hk
  have e : ¬ (vl ≤ 64 * j + k ∧ 64 * j + k < m) := by omega
  rw [getLsbD_lane _ _ _ hk, getLsbD_lane _ _ _ hk, getLsbD_zeroUpper v hm (by omega), if_neg e]

theorem maxvl_le (c : Cfg) : maxvl c ≤ 512 := by
  unfold maxvl; split <;> [omega; (split <;> omega)]

/-! `writeLanes`: what it does to lane `i` and to the bits above its lanes. -/

theorem getLsbD_writeLanes (z : Bool) (rs : List (Option Double)) (j : Nat) (v : VecReg) {i : Nat} (hi : i < 512)
    (h : i < 64 * j ∨ 64 * (j + rs.length) ≤ i) : (writeLanes z j rs v).getLsbD i = v.getLsbD i := by
  induction rs generalizing j v with
  | nil => cases j <;> rfl
  | cons r rs ih =>
    have h' : i < 64 * (j + 1) ∨ 64 * (j + 1 + rs.length) ≤ i := by
      simp only [List.length_cons] at h; omega
    have e : ¬ (64 * j ≤ i ∧ i < 64 * j + 64) := by
      simp only [List.length_cons] at h; omega
    cases r with
    | some x => rw [writeLanes, ih _ _ h', getLsbD_setLane v x hi, if_neg e]
    | none =>
      rw [writeLanes, ih _ _ h']
      split
      · rw [getLsbD_setLane v _ hi, if_neg e]
      · rfl

theorem lane_writeLanes_ne (z : Bool) (rs : List (Option Double)) (j : Nat) (v : VecReg) {i : Nat} (hi : i < 8)
    (h : i < j ∨ j + rs.length ≤ i) : lane (writeLanes z j rs v) i = lane v i := by
  apply BitVec.eq_of_getLsbD_eq
  intro k hk
  rw [getLsbD_lane _ _ _ hk, getLsbD_lane _ _ _ hk, getLsbD_writeLanes z rs j v (by omega) (by omega)]

theorem lane_writeLanes (z : Bool) (rs : List (Option Double)) (j : Nat) (v : VecReg) (i : Nat) (hi : i < rs.length)
    (h8 : j + rs.length ≤ 8) :
    lane (writeLanes z j rs v) (j + i) = (rs[i]).getD (if z then 0#64 else lane v (j + i)) := by
  induction rs generalizing j v i with
  | nil => simp at hi
  | cons r rs ih =>
    simp only [List.length_cons] at hi h8
    cases i with
    | zero =>
      cases r with
      | some x =>
        rw [writeLanes, lane_writeLanes_ne z rs _ _ (by omega) (by omega)]
        exact lane_setLane_same v (by omega) x
      | none =>
        rw [writeLanes, lane_writeLanes_ne z rs _ _ (by omega) (by omega)]
        cases z
        · rfl
        · exact lane_setLane_same v (by omega) _
    | succ i =>
      have e : j + (i + 1) = j + 1 + i := by omega
      cases r with
      | some x =>
        rw [writeLanes, e, ih (j + 1) _ i (by omega) (by omega), lane_setLane_ne v (by omega) (by omega)]
        rfl
      | none =>
        rw [writeLanes, e, ih (j + 1) _ i (by omega) (by omega)]
        cases z <;> rfl

end Sys2Proof.Machine
end

