-- ==== Sys2Proof/Laws/State.lean ====
section
/-! SUPPORT. The small lemmas of State: one for each field under each update, and the readers of registers and memory. -/

namespace Sys2Proof.Machine

@[simp] theorem State.setVec_zmm (s : State) (n : BitVec 5) (v : VecReg) : (s.setVec n v).zmm = s.zmm.set n.toNat v (by have := n.isLt; omega) := rfl
@[simp] theorem State.setVec_k (s : State) (n : BitVec 5) (v : VecReg) : (s.setVec n v).k = s.k := rfl
@[simp] theorem State.setVec_mxcsr (s : State) (n : BitVec 5) (v : VecReg) : (s.setVec n v).mxcsr = s.mxcsr := rfl
@[simp] theorem State.setVec_gpr (s : State) (n : BitVec 5) (v : VecReg) : (s.setVec n v).gpr = s.gpr := rfl
@[simp] theorem State.setVec_segBase (s : State) (n : BitVec 5) (v : VecReg) : (s.setVec n v).segBase = s.segBase := rfl
@[simp] theorem State.setVec_rip (s : State) (n : BitVec 5) (v : VecReg) : (s.setVec n v).rip = s.rip := rfl
@[simp] theorem State.setVec_eflags (s : State) (n : BitVec 5) (v : VecReg) : (s.setVec n v).eflags = s.eflags := rfl
@[simp] theorem State.setVec_cr0 (s : State) (n : BitVec 5) (v : VecReg) : (s.setVec n v).cr0 = s.cr0 := rfl
@[simp] theorem State.setVec_cr2 (s : State) (n : BitVec 5) (v : VecReg) : (s.setVec n v).cr2 = s.cr2 := rfl
@[simp] theorem State.setVec_cr4 (s : State) (n : BitVec 5) (v : VecReg) : (s.setVec n v).cr4 = s.cr4 := rfl
@[simp] theorem State.setVec_xcr0 (s : State) (n : BitVec 5) (v : VecReg) : (s.setVec n v).xcr0 = s.xcr0 := rfl
@[simp] theorem State.setVec_cpl (s : State) (n : BitVec 5) (v : VecReg) : (s.setVec n v).cpl = s.cpl := rfl
@[simp] theorem State.setVec_mode (s : State) (n : BitVec 5) (v : VecReg) : (s.setVec n v).mode = s.mode := rfl
@[simp] theorem State.setVec_mem (s : State) (n : BitVec 5) (v : VecReg) : (s.setVec n v).mem = s.mem := rfl
@[simp] theorem State.setVec_cfg (s : State) (n : BitVec 5) (v : VecReg) : (s.setVec n v).cfg = s.cfg := rfl
@[simp] theorem State.setVec_draws (s : State) (n : BitVec 5) (v : VecReg) : (s.setVec n v).draws = s.draws := rfl

@[simp] theorem State.orFlags_zmm (s : State) (c : Conds) : (s.orFlags c).zmm = s.zmm := rfl
@[simp] theorem State.orFlags_k (s : State) (c : Conds) : (s.orFlags c).k = s.k := rfl
@[simp] theorem State.orFlags_mxcsr (s : State) (c : Conds) : (s.orFlags c).mxcsr = s.mxcsr ||| c.bits := rfl
@[simp] theorem State.orFlags_gpr (s : State) (c : Conds) : (s.orFlags c).gpr = s.gpr := rfl
@[simp] theorem State.orFlags_segBase (s : State) (c : Conds) : (s.orFlags c).segBase = s.segBase := rfl
@[simp] theorem State.orFlags_rip (s : State) (c : Conds) : (s.orFlags c).rip = s.rip := rfl
@[simp] theorem State.orFlags_eflags (s : State) (c : Conds) : (s.orFlags c).eflags = s.eflags := rfl
@[simp] theorem State.orFlags_cr0 (s : State) (c : Conds) : (s.orFlags c).cr0 = s.cr0 := rfl
@[simp] theorem State.orFlags_cr2 (s : State) (c : Conds) : (s.orFlags c).cr2 = s.cr2 := rfl
@[simp] theorem State.orFlags_cr4 (s : State) (c : Conds) : (s.orFlags c).cr4 = s.cr4 := rfl
@[simp] theorem State.orFlags_xcr0 (s : State) (c : Conds) : (s.orFlags c).xcr0 = s.xcr0 := rfl
@[simp] theorem State.orFlags_cpl (s : State) (c : Conds) : (s.orFlags c).cpl = s.cpl := rfl
@[simp] theorem State.orFlags_mode (s : State) (c : Conds) : (s.orFlags c).mode = s.mode := rfl
@[simp] theorem State.orFlags_mem (s : State) (c : Conds) : (s.orFlags c).mem = s.mem := rfl
@[simp] theorem State.orFlags_cfg (s : State) (c : Conds) : (s.orFlags c).cfg = s.cfg := rfl
@[simp] theorem State.orFlags_draws (s : State) (c : Conds) : (s.orFlags c).draws = s.draws := rfl

@[simp] theorem simdFaultState_zmm (a b : Conds) (s : State) : (simdFaultState a b s).zmm = s.zmm := rfl
@[simp] theorem simdFaultState_k (a b : Conds) (s : State) : (simdFaultState a b s).k = s.k := rfl
@[simp] theorem simdFaultState_mxcsr (a b : Conds) (s : State) : (simdFaultState a b s).mxcsr = s.mxcsr ||| drawFlags a b (Config.freeSimdFlags s.draws) := rfl
@[simp] theorem simdFaultState_gpr (a b : Conds) (s : State) : (simdFaultState a b s).gpr = s.gpr := rfl
@[simp] theorem simdFaultState_segBase (a b : Conds) (s : State) : (simdFaultState a b s).segBase = s.segBase := rfl
@[simp] theorem simdFaultState_rip (a b : Conds) (s : State) : (simdFaultState a b s).rip = s.rip := rfl
@[simp] theorem simdFaultState_eflags (a b : Conds) (s : State) : (simdFaultState a b s).eflags = s.eflags := rfl
@[simp] theorem simdFaultState_cr0 (a b : Conds) (s : State) : (simdFaultState a b s).cr0 = s.cr0 := rfl
@[simp] theorem simdFaultState_cr2 (a b : Conds) (s : State) : (simdFaultState a b s).cr2 = s.cr2 := rfl
@[simp] theorem simdFaultState_cr4 (a b : Conds) (s : State) : (simdFaultState a b s).cr4 = s.cr4 := rfl
@[simp] theorem simdFaultState_xcr0 (a b : Conds) (s : State) : (simdFaultState a b s).xcr0 = s.xcr0 := rfl
@[simp] theorem simdFaultState_cpl (a b : Conds) (s : State) : (simdFaultState a b s).cpl = s.cpl := rfl
@[simp] theorem simdFaultState_mode (a b : Conds) (s : State) : (simdFaultState a b s).mode = s.mode := rfl
@[simp] theorem simdFaultState_mem (a b : Conds) (s : State) : (simdFaultState a b s).mem = s.mem := rfl
@[simp] theorem simdFaultState_cfg (a b : Conds) (s : State) : (simdFaultState a b s).cfg = s.cfg := rfl
@[simp] theorem simdFaultState_draws (a b : Conds) (s : State) : (simdFaultState a b s).draws = s.draws + 1 := rfl

@[simp] theorem State.vec_setVec_same (s : State) (n : BitVec 5) (v : VecReg) : (s.setVec n v).vec n = v := by
  simp [State.vec, State.setVec]

theorem State.vec_setVec_ne (s : State) {n m : BitVec 5} (v : VecReg) (h : m ≠ n) : (s.setVec n v).vec m = s.vec m := by
  have : n.toNat ≠ m.toNat := fun e => h (BitVec.eq_of_toNat_eq e.symm)
  simp [State.vec, State.setVec, Vector.getElem_set_ne, this]

@[simp] theorem State.vec_orFlags (s : State) (c : Conds) (n : BitVec 5) : (s.orFlags c).vec n = s.vec n := rfl
@[simp] theorem State.setVec_byteAt (s : State) (n : BitVec 5) (v : VecReg) (a : Addr) :
    (s.setVec n v).byteAt a = s.byteAt a := rfl
@[simp] theorem State.orFlags_byteAt (s : State) (c : Conds) (a : Addr) : (s.orFlags c).byteAt a = s.byteAt a := rfl
@[simp] theorem State.kreg_setVec (s : State) (n : BitVec 5) (v : VecReg) (m : BitVec 3) :
    (s.setVec n v).kreg m = s.kreg m := rfl

end Sys2Proof.Machine
end

