-- ==== Sys2Proof/Laws/Control.lean ====
section
/-! SUPPORT. Sequencing, the enable checks, the instruction pointer and the taking of an exception: what each can answer. -/

namespace Sys2Proof.Machine

@[simp] theorem andThen_next {α β : Type} (a : α) (f : α → Result β) : andThen (.next a) f = f a := rfl
@[simp] theorem andThen_fault {α β : Type} (r : Fault) (f : α → Result β) : andThen (.fault r) f = .fault r := rfl
@[simp] theorem andThen_refused {α β : Type} (r : Refusal) (f : α → Result β) : andThen (.refused r) f = .refused r := rfl

theorem andThen_eq_next {α β : Type} {o : Result α} {f : α → Result β} {b : β} :
    andThen o f = .next b ↔ ∃ a, o = .next a ∧ f a = .next b := by
  cases o <;> simp

theorem andThen_eq_fault {α β : Type} {o : Result α} {f : α → Result β} {r : Fault} :
    andThen o f = .fault r ↔ o = .fault r ∨ ∃ a, o = .next a ∧ f a = .fault r := by
  cases o <;> simp

@[simp] theorem raise_ne_next {α : Type} (e : Exn) (s : State) (a : α) : raise e s ≠ .next a := by
  cases e <;> simp [raise]

@[simp] theorem raiseSimd_ne_next {α : Type} (c d : Conds) (s : State) (a : α) : raiseSimd c d s ≠ .next a :=
  raise_ne_next _ _ _

/-- An exception faults, at the state it is given, but for CR2 at a page fault. -/
theorem raise_eq {α : Type} (e : Exn) (s : State) :
    ∃ f, (raise e s : Result α) = .fault f ∧
      faultState f = (match e with | .pf _ info => { s with cr2 := info } | _ => s) := by
  cases e <;> exact ⟨_, rfl, rfl⟩

theorem raiseSimd_eq {α : Type} (cause seen : Conds) (s : State) :
    (raiseSimd cause seen s : Result α) =
      .fault (if s.osxmmexcpt then .simdFloatingPoint (simdFaultState cause seen s)
        else .invalidOpcode (simdFaultState cause seen s)) := by
  unfold raiseSimd
  cases s.osxmmexcpt <;> rfl

/-- The flag bits of a set of conditions, and that they have no others. -/
theorem Conds.getLsbD_bits (c : Conds) : c.bits.getLsbD 0 = c.i ∧ c.bits.getLsbD 1 = c.d ∧ c.bits.getLsbD 3 = c.o ∧
    c.bits.getLsbD 4 = c.u ∧ c.bits.getLsbD 5 = c.p := by
  have h : ∀ i d o u p : Bool, (Conds.bits ⟨i, d, o, u, p⟩).getLsbD 0 = i ∧ (Conds.bits ⟨i, d, o, u, p⟩).getLsbD 1 = d ∧
    (Conds.bits ⟨i, d, o, u, p⟩).getLsbD 3 = o ∧ (Conds.bits ⟨i, d, o, u, p⟩).getLsbD 4 = u ∧
    (Conds.bits ⟨i, d, o, u, p⟩).getLsbD 5 = p := by decide
  exact h c.i c.d c.o c.u c.p

theorem Conds.getLsbD_bits_other (c : Conds) {b : Nat} (hb : b ∉ [0, 1, 3, 4, 5]) : c.bits.getLsbD b = false := by
  by_cases h32 : b < 32
  · have h : ∀ (i d o u p : Bool) (b : Fin 32), b.1 ∉ [0, 1, 3, 4, 5] → (Conds.bits ⟨i, d, o, u, p⟩).getLsbD b.1 = false := by
      decide
    exact h c.i c.d c.o c.u c.p ⟨b, h32⟩ hb
  · exact BitVec.getLsbD_of_ge _ _ (by omega)

/-- The enable checks let a form through exactly when it may run. -/
theorem checkEnabled_eq_next {c : EnableClass} {s : State} {u : Unit} : checkEnabled c s = .next u ↔ Enabled c s := by
  unfold checkEnabled Enabled
  split <;> rename_i h
  · simp [h]
  · by_cases h1 : disabled c s = true
    · simp [h1]
    · by_cases h2 : s.ts = true <;> simp [h, h1, h2]

theorem checkEnabled_ud {c : EnableClass} {s : State} (hp : premises s = none) (hd : disabled c s = true) :
    checkEnabled c s = .fault (.invalidOpcode s) := by
  simp [checkEnabled, hp, hd, raise]

theorem checkEnabled_nm {c : EnableClass} {s : State} (hp : premises s = none) (hd : disabled c s = false)
    (ht : s.ts = true) : checkEnabled c s = .fault (.deviceNotAvailable s) := by
  simp [checkEnabled, hp, hd, ht, raise]

/-- A fault of the enable checks is #UD or #NM, and changes nothing. -/
theorem checkEnabled_eq_fault {c : EnableClass} {s : State} {f : Fault} (h : checkEnabled c s = .fault f) :
    f = .invalidOpcode s ∨ f = .deviceNotAvailable s := by
  unfold checkEnabled at h
  split at h
  · cases h
  · split at h
    · exact .inl (by simpa [raise] using h.symm)
    · split at h
      · exact .inr (by simpa [raise] using h.symm)
      · cases h

theorem advance_eq_next {len : Nat} {s t : State} :
    advance len s = .next t ↔ ripOk s (s.rip.toNat + len) = true ∧
      t = { s with rip := BitVec.ofNat 64 (s.rip.toNat + len) } := by
  unfold advance
  split <;> rename_i h
  · simp [h, eq_comm]
  · simp [h]

theorem advance_ne_fault {len : Nat} {s : State} {f : Fault} : advance len s ≠ .fault f := by
  unfold advance; split <;> simp

/-- An address `RIP` can hold fits in 64 bits. -/
theorem lt_of_ripOk {s : State} {a : Nat} (h : ripOk s a = true) : a < 2 ^ 64 := by
  unfold ripOk at h
  split at h <;> simp at h <;> omega

/-- The modes in which the launch premises can hold. -/
theorem mode_of_premises {s : State} (h : premises s = none) : s.mode = .mode64 ∨ s.mode = .mode32 := by
  unfold premises at h
  split at h
  · cases h
  · rename_i hm; by_contra hc; exact hm (not_or.mp hc)

theorem mxcsrOk_of_premises {s : State} (h : premises s = none) : s.mxcsrOk = true := by
  unfold premises at h
  repeat (split at h; · cases h)
  simp_all

end Sys2Proof.Machine
end

