-- ==== Sys2Proof/Laws/Add.lean ====
section
/-! SUPPORT. The shared operations of an addition: what the source read, `PackedAdd` and one whole addition can answer. -/

namespace Sys2Proof.Machine

@[simp] theorem activeLanes_length (s : State) (kl : Nat) (aaa : BitVec 3) : (activeLanes s kl aaa).length = kl := by
  simp [activeLanes]

theorem activeLanes_getD (s : State) {kl : Nat} (aaa : BitVec 3) {j : Nat} (hj : j < kl) :
    (activeLanes s kl aaa).getD j false = Active s aaa j := by
  simp [activeLanes, List.getD, hj, Active]

/-! The source. -/

theorem segmentFault_ne_next (s : State) (seg dflt : Seg) (m : Bool) (u : Unit) : segmentFault s seg dflt m ≠ .next u := by
  unfold segmentFault; dsimp only; split <;> exact raise_ne_next _ _ _

/-- A byte is among the refused ones with its code and linear address. -/
theorem mem_refusedBytes {s : State} {seg : Seg} {ea : Addr} {offs : List Nat} {e : BitVec 32 × Addr} :
    e ∈ refusedBytes s seg ea offs ↔
      ∃ o ∈ offs, translate s.cfg (linear s seg ea o) .dataRead s.cpl = some e.1 ∧ linear s seg ea o = e.2 := by
  obtain ⟨code, a⟩ := e
  simp only [refusedBytes, List.mem_filterMap, Option.map_eq_some_iff, Prod.mk.injEq]
  constructor
  · rintro ⟨o, ho, c, hc, rfl, ha⟩; exact ⟨o, ho, hc, ha⟩
  · rintro ⟨o, ho, hc, ha⟩; exact ⟨o, ho, code, hc, rfl, ha⟩

theorem pageCheck_eq_next {s : State} {es : List (BitVec 32 × Addr)} {u : Unit} :
    pageCheck s es = .next u ↔ es = [] := by
  match es with
  | [] => simp [pageCheck]
  | [_] => simp [pageCheck, raise]
  | _ :: _ :: _ => simp [pageCheck, raise]

/-- Where a byte is refused the page check is a page fault at one of the refused bytes; a draw is taken only where there are
several. -/
theorem pageCheck_of_ne_nil {s : State} {es : List (BitVec 32 × Addr)} (h : es ≠ []) :
    ∃ e ∈ es, ∃ n, (n = s.draws ∨ n = s.draws + 1) ∧
      pageCheck s es = .fault (.pageFault e.1 e.2 { s with cr2 := e.2, draws := n }) := by
  match es with
  | [] => exact absurd rfl h
  | [e] => exact ⟨e, by simp, s.draws, .inl rfl, rfl⟩
  | e :: f :: es =>
    refine ⟨(e :: f :: es).getD (Config.freeFaultByte s.draws) e, ?_, s.draws + 1, .inr rfl, rfl⟩
    rw [List.getD_eq_getElem?_getD]
    cases hq : (e :: f :: es)[Config.freeFaultByte s.draws]? with
    | none => simp
    | some q => exact List.mem_of_getElem? hq

/-- A run of consecutive offsets is one piece. -/
theorem pieces_range' (a n : Nat) : pieces (List.range' a (n + 1)) = [(a, n + 1)] := by
  induction n generalizing a with
  | zero => rfl
  | succ n ih => rw [List.range'_succ, pieces, ih (a + 1)]; simp

/-- The checks of a memory operand pass exactly when every byte is accessible and the operand is aligned where asked. -/
theorem checkOperand_eq_next {s : State} {seg dflt : Seg} {ea : Addr} {align : Bool} {offs : List Nat} {u : Unit} :
    checkOperand s seg dflt ea align offs = .next u ↔
      accessible s seg ea offs = true ∧ (align = true → aligned16 s seg ea = true) := by
  unfold checkOperand accessible
  by_cases h1 : crosses4G s ea offs = true
  · simp [h1]
  · by_cases h2 : segmentOk s seg ea offs = true
    · by_cases h3 : (align && !aligned16 s seg ea) = true
      · have : ¬ (align = true → aligned16 s seg ea = true) := by simpa using h3
        simp [h1, h2, h3, this]
      · have h3' : align = true → aligned16 s seg ea = true := by simpa using h3
        simpa [h1, h2, h3, pageCheck_eq_next] using fun _ => h3'
    · simp [h1, h2, segmentFault_ne_next]

/-- The source read answers the lanes of the source exactly when the source is ready. -/
theorem readSource_eq_next {s : State} {align : Bool} {src : Source} {act : List Bool} {bs : List Double} :
    readSource s align src act = .next bs ↔
      SourceReady s align src act ∧ bs = (List.range act.length).map (sourceLane s src) := by
  cases src with
  | reg n =>
    simp only [readSource, SourceReady, true_and, Host.Outcome.next.injEq]
    exact ⟨fun h => h.symm, fun h => h.symm⟩
  | mem seg dflt ea bcast =>
    simp only [readSource, SourceReady, andThen_eq_next, checkOperand_eq_next]
    constructor
    · rintro ⟨_, ⟨h1, h2⟩, h⟩
      split at h
      · cases h
      · rename_i hf
        refine ⟨⟨h1, h2, ?_⟩, (Host.Outcome.next.inj h).symm⟩
        simp at hf
        cases hs : s.cfg.faultSuppression
        · exact .inr (hf hs)
        · exact .inl rfl
    · rintro ⟨⟨h1, h2, h3⟩, rfl⟩
      refine ⟨(), ⟨h1, h2⟩, ?_⟩
      rw [if_neg]
      · rfl
      · rcases h3 with h3 | h3 <;> simp [h3]

/-- What a failing segment check answers: #SS(0) or #GP(0), and the state as it was but for the counter of draws. -/
theorem segmentFault_eq (s : State) (seg dflt : Seg) (m : Bool) :
    ∃ n, (n = s.draws ∨ n = s.draws + 1) ∧ (segmentFault s seg dflt m = .fault (.stackSegment { s with draws := n }) ∨
      segmentFault s seg dflt m = .fault (.generalProtection { s with draws := n })) := by
  unfold segmentFault
  dsimp only
  split
  · refine ⟨_, .inr rfl, ?_⟩
    cases Config.freeTieIsGp s.draws
    · exact .inl rfl
    · exact .inr rfl
  · cases overrideContested s seg dflt <;> cases reportsStack s seg dflt
    · exact ⟨_, .inl rfl, .inr rfl⟩
    · exact ⟨_, .inl rfl, .inl rfl⟩
    · exact ⟨_, .inr rfl, .inr rfl⟩
    · exact ⟨_, .inr rfl, .inl rfl⟩

/-- Where no override is in dispute the exception is that of the segment. -/
theorem segmentFault_of_uncontested {s : State} {seg dflt : Seg} (m : Bool) (h : overrideContested s seg dflt = false) :
    segmentFault s seg dflt m =
      if seg = .ss ∧ m = true then raise (if Config.freeTieIsGp s.draws then .gp else .ss) { s with draws := s.draws + 1 }
      else raise (if seg = .ss then .ss else .gp) s := by
  simp [segmentFault, reportsStack, h]

/-- Where one is, a draw is taken. -/
theorem segmentFault_of_contested {s : State} {seg dflt : Seg} (m : Bool) (h : overrideContested s seg dflt = true) :
    segmentFault s seg dflt m = .fault (.stackSegment { s with draws := s.draws + 1 }) ∨
      segmentFault s seg dflt m = .fault (.generalProtection { s with draws := s.draws + 1 }) := by
  unfold segmentFault
  dsimp only
  rw [h]
  cases reportsStack s seg dflt <;> cases m <;> cases Config.freeTieIsGp s.draws <;> simp [raise]

/-- A fault of the checks leaves the state as it was, but for CR2 at a page fault and the counter of draws. -/
theorem checkOperand_eq_fault {s : State} {seg dflt : Seg} {ea : Addr} {align : Bool} {offs : List Nat} {f : Fault}
    (h : checkOperand s seg dflt ea align offs = .fault f) :
    (∃ n, f = .stackSegment { s with draws := n } ∨ f = .generalProtection { s with draws := n }) ∨
      ∃ e ∈ refusedBytes s seg ea offs, ∃ n, f = .pageFault e.1 e.2 { s with cr2 := e.2, draws := n } := by
  unfold checkOperand at h
  generalize (align && !aligned16 s seg ea) = m at h
  by_cases h1 : crosses4G s ea offs = true
  · simp only [h1, if_true] at h; cases h
  · by_cases h2 : (!segmentOk s seg ea offs) = true
    · simp only [h1, h2, if_true] at h
      obtain ⟨n, _, hn | hn⟩ := segmentFault_eq s seg dflt m
      · exact .inl ⟨n, .inl (Host.Outcome.fault.inj (h.symm.trans hn))⟩
      · exact .inl ⟨n, .inr (Host.Outcome.fault.inj (h.symm.trans hn))⟩
    · simp only [h1, h2] at h
      cases m
      · by_cases hp : refusedBytes s seg ea offs = []
        · rw [hp] at h; cases h
        · obtain ⟨e, he, n, _, hn⟩ := pageCheck_of_ne_nil (s := s) hp
          exact .inr ⟨e, he, n, by simpa [hn] using h.symm⟩
      · exact .inl ⟨s.draws, .inr (Host.Outcome.fault.inj h).symm⟩

/-- A fault of the source read leaves the state as it was, but for CR2 at a page fault and the counter of draws. -/
theorem readSource_eq_fault {s : State} {align : Bool} {src : Source} {act : List Bool} {f : Fault}
    (h : readSource s align src act = .fault f) :
    (∃ n, f = .stackSegment { s with draws := n } ∨ f = .generalProtection { s with draws := n }) ∨
      ∃ code a n, translate s.cfg a .dataRead s.cpl = some code ∧
        f = .pageFault code a { s with cr2 := a, draws := n } := by
  cases src with
  | reg n => simp [readSource] at h
  | mem seg dflt ea bcast =>
    simp only [readSource, andThen_eq_fault] at h
    rcases h with h | ⟨_, _, h⟩
    · rcases checkOperand_eq_fault h with h | ⟨e, he, n, h⟩
      · exact .inl h
      · obtain ⟨o, _, hc, ha⟩ := mem_refusedBytes.mp he
        exact .inr ⟨e.1, e.2, n, ha ▸ hc, h⟩
    · split at h <;> cases h

/-! `PackedAdd`. -/

theorem laneSums_lanePairs (s : State) (rm : Rounding) (sae : Bool) (src1 : BitVec 5) (src2 : Source) (act : List Bool) :
    laneSums s rm sae (lanePairs s src1 act ((List.range act.length).map (sourceLane s src2))) =
      (List.range act.length).map fun j =>
        if act.getD j false then some (laneOut s rm (sae || s.um) src1 src2 j) else none := by
  unfold laneSums lanePairs
  rw [List.map_map]
  apply List.map_congr_left
  intro j hj
  rw [List.mem_range] at hj
  by_cases ha : act.getD j false = true
  · simp only [Function.comp, ha, if_true, Option.map_some]
    simp [List.getD, hj, laneOut]
  · simp only [Function.comp, ha]; rfl

theorem filterMap_ite {α β γ : Type} (l : List α) (p : α → Bool) (g : α → β) (f : β → γ) :
    (l.map fun j => if p j then some (g j) else none).filterMap (fun o => o.map f) = (l.filter p).map fun j => f (g j) := by
  induction l with
  | nil => rfl
  | cons a l ih => by_cases h : p a = true <;> simp [h, ih]

theorem preConds_map (out : Nat → FaddOut) (act : List Bool) :
    preConds ((List.range act.length).map fun j => if act.getD j false then some (out j) else none) = preOf out act := by
  unfold preConds preOf; rw [filterMap_ite]

theorem postConds_map (out : Nat → FaddOut) (act : List Bool) :
    postConds ((List.range act.length).map fun j => if act.getD j false then some (out j) else none) = postOf out act := by
  unfold postConds postOf; rw [filterMap_ite]

theorem union_unmasked (a b : Conds) (s : State) : (a.union b).unmasked s = (a.unmasked s).union (b.unmasked s) := by
  simp [Conds.union, Conds.unmasked, Bool.and_or_distrib_right]

theorem union_any (a b : Conds) : (a.union b).any = (a.any || b.any) := by
  cases a; cases b; simp only [Conds.union, Conds.any]; ac_rfl

/-- `PackedAdd` completes exactly when every condition is masked, or under `sae`, with the flags OR-ed in unless `sae`. -/
theorem packedAdd_eq_next {s : State} {rm : Rounding} {sae : Bool} {pairs : List (Option (Double × Double))}
    {r : List (Option Double) × State} :
    packedAdd s rm sae pairs = .next r ↔
      (sae = true ∨ (((preConds (laneSums s rm sae pairs)).union (postConds (laneSums s rm sae pairs))).unmasked s).any = false) ∧
      r.1 = (laneSums s rm sae pairs).map (fun o => o.map (·.res)) ∧
      r.2 = if sae then s else s.orFlags ((preConds (laneSums s rm sae pairs)).union (postConds (laneSums s rm sae pairs))) := by
  obtain ⟨rs, t⟩ := r
  unfold packedAdd
  simp only [union_unmasked, union_any, Bool.or_eq_false_iff]
  generalize laneSums s rm sae pairs = outs
  generalize preConds outs = pre
  generalize postConds outs = post
  generalize outs.map (fun o => o.map (·.res)) = res
  generalize s.orFlags (pre.union post) = s'
  cases sae
  · cases h1 : (pre.unmasked s).any
    · cases h2 : (post.unmasked s).any
      · simp only [Bool.false_eq_true, if_false, and_self, or_true, true_and, Host.Outcome.next.injEq, Prod.mk.injEq]
        exact ⟨fun h => ⟨h.1.symm, h.2.symm⟩, fun h => ⟨h.1.symm, h.2.symm⟩⟩
      · simp only [Bool.false_eq_true, if_false, if_true, raiseSimd_ne_next, reduceCtorEq, and_false, or_false, false_and]
    · simp only [Bool.false_eq_true, if_false, if_true, raiseSimd_ne_next, reduceCtorEq, or_false, false_and]
  · simp only [if_true, true_or, true_and, Host.Outcome.next.injEq, Prod.mk.injEq]
    exact ⟨fun h => ⟨h.1.symm, h.2.symm⟩, fun h => ⟨h.1.symm, h.2.symm⟩⟩

/-- `PackedAdd` faults only with a SIMD floating-point fault, never under `sae`: in stage 1 from the unmasked
pre-computation conditions, else in stage 2 from the unmasked post-computation conditions. -/
theorem packedAdd_eq_fault {s : State} {rm : Rounding} {sae : Bool} {pairs : List (Option (Double × Double))} {f : Fault}
    (h : packedAdd s rm sae pairs = .fault f) :
    sae = false ∧ ∃ cause seen, (raiseSimd cause seen s : Result Unit) = .fault f ∧ cause.any = true ∧
      ((cause = (preConds (laneSums s rm sae pairs)).unmasked s ∧ seen = preConds (laneSums s rm sae pairs)) ∨
       (((preConds (laneSums s rm sae pairs)).unmasked s).any = false ∧
        cause = (postConds (laneSums s rm sae pairs)).unmasked s ∧
        seen = (preConds (laneSums s rm sae pairs)).union (postConds (laneSums s rm sae pairs)))) := by
  unfold packedAdd at h
  simp only at h
  split at h
  · cases h
  · rename_i hs
    refine ⟨by simpa using hs, ?_⟩
    split at h
    · rename_i h1
      exact ⟨_, _, by rw [raiseSimd_eq] at h ⊢; simpa using h, h1, .inl ⟨rfl, rfl⟩⟩
    · rename_i h1
      split at h
      · rename_i h2
        exact ⟨_, _, by rw [raiseSimd_eq] at h ⊢; simpa using h, h2, .inr ⟨by simpa using h1, rfl, rfl⟩⟩
      · cases h

/-! One whole addition. -/

/-- The lanes' sums and the activity of an operation. -/
def AddOp.out (op : AddOp) (s : State) : Nat → FaddOut :=
  laneOut s (op.rounding s) (op.er.isSome || s.um) op.src1 op.src2

def AddOp.act (op : AddOp) (s : State) : List Bool := activeLanes s op.kl op.mask

theorem vec_congr {t u : State} (h : t.zmm = u.zmm) (n : BitVec 5) : t.vec n = u.vec n := by
  unfold State.vec; simp only [h]

theorem ripOk_congr {s s' : State} (hm : s'.mode = s.mode) (hc : s'.cfg = s.cfg) (a : Nat) : ripOk s' a = ripOk s a := by
  unfold ripOk; rw [hm, hc]

theorem destination_written (s s' t : State) (d : BitVec 5) (upper : Upper) (z : Bool) (out : Nat → FaddOut)
    (act : List Bool) (h8 : act.length ≤ 8)
    (ht : t.zmm = (s'.setVec d (newVec s.cfg upper z
      ((List.range act.length).map fun j => if act.getD j false then some (out j).res else none) (s.vec d))).zmm) :
    DestinationWritten s t d upper z out act := by
  have hv : t.vec d = newVec s.cfg upper z
      ((List.range act.length).map fun j => if act.getD j false then some (out j).res else none) (s.vec d) :=
    (vec_congr ht d).trans (State.vec_setVec_same s' d _)
  generalize hrs : ((List.range act.length).map fun j => if act.getD j false then some (out j).res else none) = rs at hv
  have hlen : rs.length = act.length := by rw [← hrs]; simp
  constructor
  · intro j hj
    have key : lane (newVec s.cfg upper z rs (s.vec d)) j = lane (writeLanes z 0 rs (s.vec d)) j := by
      cases upper with
      | keep => rfl
      | zero => exact lane_zeroUpper _ (maxvl_le _) (by omega) (by omega)
    have := lane_writeLanes z rs 0 (s.vec d) j (by omega) (by omega)
    rw [Nat.zero_add] at this
    rw [hv, key, this]
    subst hrs
    simp only [List.getElem_map, List.getElem_range]
    split <;> rfl
  · intro i h1 h2
    have key := getLsbD_writeLanes z rs 0 (s.vec d) h2 (by omega)
    rw [hv]
    cases upper with
    | keep => simpa only [newVec, reduceCtorEq, false_and, if_false] using key
    | zero =>
      simp only [newVec, getLsbD_zeroUpper _ (maxvl_le _) h2, key, true_and, hlen, h1]

/-- What one addition does when it completes, and when it does. -/
theorem execAdd_eq_next {op : AddOp} {s t : State} (h8 : op.kl ≤ 8) (h : execAdd op s = .next t) :
    Enabled op.enable s ∧ SourceReady s op.align op.src2 (op.act s) ∧
    (op.er.isSome = true ∨ ((condsOf (op.out s) (op.act s)).unmasked s).any = false) ∧
    ripOk s (s.rip.toNat + op.len) = true ∧
    AddEffect s t op.dst op.upper op.zeroing (op.out s) (op.act s)
      (if op.er.isSome then {} else condsOf (op.out s) (op.act s)) op.len := by
  unfold execAdd at h
  simp only [andThen_eq_next, checkEnabled_eq_next, readSource_eq_next, packedAdd_eq_next, advance_eq_next] at h
  obtain ⟨_, hen, bs, ⟨hsrc, rfl⟩, r, ⟨hm, hr1, hr2⟩, hrip, rfl⟩ := h
  rw [laneSums_lanePairs] at hm hr1 hr2
  rw [preConds_map, postConds_map] at hm hr2
  obtain ⟨rs, s'⟩ := r
  simp only at hr1 hr2
  have hs' : s'.zmm = s.zmm ∧ s'.cfg = s.cfg ∧ s'.mode = s.mode ∧ s'.rip = s.rip := by
    rw [hr2]; split <;> exact ⟨rfl, rfl, rfl, rfl⟩
  have hrip' : ripOk s (s.rip.toNat + op.len) = true := by
    rw [State.setVec_rip, ripOk_congr (s := s) (by exact hs'.2.2.1) (by exact hs'.2.1)] at hrip
    rw [← hs'.2.2.2]; exact hrip
  have hrs : rs = (List.range (op.act s).length).map fun j =>
      if (op.act s).getD j false then some (op.out s j).res else none := by
    rw [hr1, List.map_map]
    apply List.map_congr_left
    intro j _
    by_cases ha : (op.act s).getD j false = true
    · simp only [Function.comp]; rw [AddOp.act] at ha ⊢; simp only [ha, if_true]; rfl
    · simp only [Function.comp]; rw [AddOp.act] at ha ⊢; simp only [ha]; rfl
  refine ⟨hen, hsrc, hm, hrip', ?_, ?_, ?_, ?_⟩
  · exact destination_written s s' _ op.dst op.upper op.zeroing (op.out s) (op.act s) (by simpa [AddOp.act] using h8)
      (by rw [← hrs])
  · have e : s'.mxcsr = s.mxcsr ||| (if op.er.isSome then ({} : Conds) else condsOf (op.out s) (op.act s)).bits := by
      generalize hc : condsOf (op.out s) (op.act s) = c
      change s' = if op.er.isSome then s else s.orFlags (condsOf (op.out s) (op.act s)) at hr2
      rw [hr2, hc]
      cases op.er.isSome
      · rfl
      · rw [if_pos rfl, if_pos rfl]
        have z : ({} : Conds).bits = 0#32 := rfl
        rw [z, BitVec.or_zero]
    exact e
  · simp only [State.setVec_rip, hs'.2.2.2, BitVec.toNat_ofNat]
    exact Nat.mod_eq_of_lt (lt_of_ripOk hrip')
  · refine ⟨fun n hn => ?_, ?_⟩
    · have := State.vec_setVec_ne s' (newVec s.cfg op.upper op.zeroing rs (s.vec op.dst)) hn
      have e : s'.vec n = s.vec n := by unfold State.vec; rw [hs'.1]
      rw [← e, ← this]; rfl
    · rw [hr2]; split <;> simp [State.byteAt]

/-- One addition completes where it is enabled, its source is ready, every condition is masked (or suppressed) and the next
`RIP` is representable. -/
theorem execAdd_completes {op : AddOp} {s : State} (hen : Enabled op.enable s)
    (hsrc : SourceReady s op.align op.src2 (op.act s))
    (hm : op.er.isSome = true ∨ ((condsOf (op.out s) (op.act s)).unmasked s).any = false)
    (hrip : ripOk s (s.rip.toNat + op.len) = true) : ∃ t, execAdd op s = .next t := by
  unfold execAdd
  simp only [andThen_eq_next, checkEnabled_eq_next, readSource_eq_next, packedAdd_eq_next, advance_eq_next]
  refine ⟨_, (), hen, _, ⟨hsrc, rfl⟩, (_, _), ⟨?_, rfl, rfl⟩, ?_, rfl⟩
  · rw [laneSums_lanePairs, preConds_map, postConds_map]; exact hm
  · dsimp only
    generalize newVec _ _ _ _ _ = v
    cases op.er.isSome <;> exact hrip

/-- One addition that is enabled and whose source is ready: it completes, or is refused for its next `RIP`, or an unmasked
condition faults, of stage 1 before stage 2. -/
theorem execAdd_of_ready {op : AddOp} {s : State} (hen : Enabled op.enable s)
    (hsrc : SourceReady s op.align op.src2 (op.act s)) :
    execAdd op s =
      if op.er.isSome then
        advance op.len (s.setVec op.dst (newVec s.cfg op.upper op.zeroing
          ((List.range op.kl).map fun j => if (op.act s).getD j false then some (op.out s j).res else none) (s.vec op.dst)))
      else if ((preOf (op.out s) (op.act s)).unmasked s).any then
        raiseSimd ((preOf (op.out s) (op.act s)).unmasked s) (preOf (op.out s) (op.act s)) s
      else if ((postOf (op.out s) (op.act s)).unmasked s).any then
        raiseSimd ((postOf (op.out s) (op.act s)).unmasked s) (condsOf (op.out s) (op.act s)) s
      else
        advance op.len ((s.orFlags (condsOf (op.out s) (op.act s))).setVec op.dst (newVec s.cfg op.upper op.zeroing
          ((List.range op.kl).map fun j => if (op.act s).getD j false then some (op.out s j).res else none)
          (s.vec op.dst))) := by
  have hread : readSource s op.align op.src2 (activeLanes s op.kl op.mask) =
      .next ((List.range op.kl).map (sourceLane s op.src2)) := by
    rw [readSource_eq_next]
    exact ⟨hsrc, by rw [activeLanes_length]⟩
  have hres : (laneSums s (op.rounding s) op.er.isSome (lanePairs s op.src1 (activeLanes s op.kl op.mask)
      ((List.range op.kl).map (sourceLane s op.src2)))) =
      (List.range op.kl).map fun j => if (op.act s).getD j false then some (op.out s j) else none := by
    have := laneSums_lanePairs s (op.rounding s) op.er.isSome op.src1 op.src2 (activeLanes s op.kl op.mask)
    rw [activeLanes_length] at this
    exact this
  have hpre : preConds ((List.range op.kl).map fun j => if (op.act s).getD j false then some (op.out s j) else none) =
      preOf (op.out s) (op.act s) := by
    have := preConds_map (op.out s) (op.act s)
    rwa [show (op.act s).length = op.kl from activeLanes_length _ _ _] at this
  have hpost : postConds ((List.range op.kl).map fun j => if (op.act s).getD j false then some (op.out s j) else none) =
      postOf (op.out s) (op.act s) := by
    have := postConds_map (op.out s) (op.act s)
    rwa [show (op.act s).length = op.kl from activeLanes_length _ _ _] at this
  have hmap : ((List.range op.kl).map fun j => if (op.act s).getD j false then some (op.out s j) else none).map
      (fun o => o.map (·.res)) =
      (List.range op.kl).map fun j => if (op.act s).getD j false then some (op.out s j).res else none := by
    rw [List.map_map]
    apply List.map_congr_left
    intro j _
    simp only [Function.comp]
    split <;> rfl
  unfold execAdd packedAdd
  simp only [(checkEnabled_eq_next (u := ())).2 hen, andThen_next, hread, hres, hpre, hpost, hmap]
  cases op.er.isSome
  · cases ((preOf (op.out s) (op.act s)).unmasked s).any
    · cases ((postOf (op.out s) (op.act s)).unmasked s).any
      · rfl
      · simp only [Bool.false_eq_true, if_false, if_true, raiseSimd_eq, andThen_fault]; rfl
    · simp only [Bool.false_eq_true, if_false, if_true, raiseSimd_eq, andThen_fault]
  · rfl

/-- A fault of one addition: of the enable checks, of the source read, or a SIMD floating-point fault. -/
theorem execAdd_eq_fault {op : AddOp} {s : State} {f : Fault} (h : execAdd op s = .fault f) :
    checkEnabled op.enable s = .fault f ∨
    (Enabled op.enable s ∧ readSource s op.align op.src2 (op.act s) = .fault f) ∨
    (Enabled op.enable s ∧ SourceReady s op.align op.src2 (op.act s) ∧ op.er = none ∧
      ∃ cause seen, (raiseSimd cause seen s : Result Unit) = .fault f ∧ cause.any = true ∧
        ((cause = (preOf (op.out s) (op.act s)).unmasked s ∧ seen = preOf (op.out s) (op.act s)) ∨
         (((preOf (op.out s) (op.act s)).unmasked s).any = false ∧
          cause = (postOf (op.out s) (op.act s)).unmasked s ∧ seen = condsOf (op.out s) (op.act s)))) := by
  unfold execAdd at h
  simp only [andThen_eq_fault, checkEnabled_eq_next, readSource_eq_next] at h
  rcases h with h | ⟨_, hen, h⟩
  · exact .inl h
  · rcases h with h | ⟨bs, ⟨hsrc, rfl⟩, h⟩
    · exact .inr (.inl ⟨hen, h⟩)
    · rcases h with h | ⟨r, _, h⟩
      · obtain ⟨hsae, cause, seen, h1, h2, h3⟩ := packedAdd_eq_fault h
        rw [laneSums_lanePairs, preConds_map, postConds_map] at h3
        exact .inr (.inr ⟨hen, hsrc, by simpa using hsae, cause, seen, h1, h2, h3⟩)
      · exact absurd h advance_ne_fault

end Sys2Proof.Machine
end

