-- ==== Sys2Proof/Laws/Decode.lean ====
section
/-! SUPPORT. The pieces of the encoder read back by the pieces of the decoder. -/

namespace Sys2Proof

/-! Prefix bytes. -/

@[simp] theorem prefixByte_segByte (s : Seg) : prefixByte (segByte s) = some (.seg s) := by cases s <;> rfl

theorem prefixByte_eq_some_seg {b : Byte} {s : Seg} (h : prefixByte b = some (.seg s)) : b = segByte s := by
  revert h; cases s <;> revert b <;> decide

/-- Reading the optional prefixes of an encoding. -/
theorem scanPrefixes_encode (p : Prefixes) (rest : List Byte) :
    scanPrefixes (p.encode ++ rest) {} = scanPrefixes rest { seg := p.seg, a67 := p.a67 } := by
  obtain ⟨seg, a67⟩ := p
  cases seg <;> cases a67 <;> simp [Prefixes.encode, scanPrefixes, PrefixScan.add] <;> rfl

theorem scanPrefixes_none {b : Byte} (h : prefixByte b = none) (rest : List Byte) (a : PrefixScan) :
    scanPrefixes (b :: rest) a = .done a (b :: rest) := by
  simp [scanPrefixes, h]

theorem Prefixes.encode_length (p : Prefixes) : p.encode.length = p.length := by
  obtain ⟨seg, a67⟩ := p
  cases seg <;> cases a67 <;> rfl

/-! Bytes of fields. -/

@[simp] theorem fieldHi_byte233 (a : BitVec 2) (b c : BitVec 3) : fieldHi (byte233 a b c) = a := by decide +revert
@[simp] theorem fieldMid_byte233 (a : BitVec 2) (b c : BitVec 3) : fieldMid (byte233 a b c) = b := by decide +revert
@[simp] theorem fieldLo_byte233 (a : BitVec 2) (b c : BitVec 3) : fieldLo (byte233 a b c) = c := by decide +revert

/-- A byte is its three fields. -/
theorem byte233_fields (b : Byte) : byte233 (fieldHi b) (fieldMid b) (fieldLo b) = b := by decide +revert

theorem rexOf_byte (x : Rex) : rexOf x.byte = x := by
  obtain ⟨w, r, x, b⟩ := x; revert w r x b; decide

theorem rex_byte_high (x : Rex) : x.byte.extractLsb' 4 4 = 4#4 := by
  obtain ⟨w, r, x, b⟩ := x; revert w r x b; decide

theorem prefixByte_rex (x : Rex) : prefixByte x.byte = none := by
  obtain ⟨w, r, x, b⟩ := x; revert w r x b; decide

/-- A REX byte is the byte of its fields. -/
theorem byte_rexOf {b : Byte} (h : b.extractLsb' 4 4 = 4#4) : (rexOf b).byte = b := by
  revert b; decide

/-! Displacements. -/

@[simp] theorem readDisp32_bytes (d : BitVec 32) (rest : List Byte) : readDisp32 (disp32Bytes d ++ rest) = some (d, rest) := by
  have e : d.extractLsb' 24 8 ++ d.extractLsb' 16 8 ++ d.extractLsb' 8 8 ++ d.extractLsb' 0 8 = d := by
    rw [BitVec.extractLsb'_append_extractLsb'_eq_extractLsb' (by omega),
      BitVec.extractLsb'_append_extractLsb'_eq_extractLsb' (by omega),
      BitVec.extractLsb'_append_extractLsb'_eq_extractLsb' (by omega)]
    exact BitVec.extractLsb'_eq_self
  exact congrArg (fun x => some (x, rest)) e

@[simp] theorem disp32Bytes_length (d : BitVec 32) : (disp32Bytes d).length = 4 := rfl

theorem Disp.bytes_length (d : Disp) : d.bytes.length = d.length := by cases d <;> rfl

@[simp] theorem readDisp_bytes (d : Disp) (rest : List Byte) : readDisp d.mod (d.bytes ++ rest) = some (d, rest) := by
  cases d with
  | none => rfl
  | disp8 d => rfl
  | disp32 d => simp [readDisp, Disp.mod, Disp.bytes]

theorem Disp.mod_ne_three (d : Disp) : d.mod ≠ 3#2 := by cases d <;> simp [Disp.mod]

theorem RmOperand.encode_length (reg : BitVec 3) (rm : RmOperand) : (rm.encode reg).length = rm.length := by
  cases rm with
  | reg r => rfl
  | mem m => cases m <;> simp [RmOperand.encode, RmOperand.length, Disp.bytes_length] <;> omega

/-! Operands. -/

/-- A byte of fields whose first is not 3 names a memory operand. -/
theorem readOperand_encode (reg : BitVec 3) (rm : RmOperand) (h : rm.wf = true) (rest : List Byte) :
    ∃ modrm tail, rm.encode reg = modrm :: tail ∧ fieldMid modrm = reg ∧ (fieldHi modrm = 3#2 ↔ rm.isMem = false) ∧
      readOperand modrm (tail ++ rest) = some (rm, rest) := by
  cases rm with
  | reg r => exact ⟨_, _, rfl, by simp, by simp [RmOperand.isMem], by simp [readOperand]⟩
  | mem m =>
    cases m with
    | base r d =>
      simp only [RmOperand.wf, MemOperand.wf, Bool.and_eq_true, bne_iff_ne, ne_eq, Bool.or_eq_true] at h
      refine ⟨_, _, rfl, by simp, by simp [RmOperand.isMem, Disp.mod_ne_three], ?_⟩
      have hd : ¬ (d.mod = 0#2 ∧ r = 5#3) := by
        rintro ⟨h1, h2⟩; cases d <;> simp_all [Disp.mod]
      simp only [readOperand, fieldHi_byte233, fieldLo_byte233, if_neg d.mod_ne_three, if_neg h.1, if_neg hd,
        readDisp_bytes, Option.map_some]
    | sib sc ix lo d =>
      simp only [RmOperand.wf, MemOperand.wf, bne_iff_ne, ne_eq, Bool.or_eq_true] at h
      refine ⟨_, _, rfl, by simp, by simp [RmOperand.isMem, Disp.mod_ne_three], ?_⟩
      have hd : ¬ (d.mod = 0#2 ∧ lo = 5#3) := by
        rintro ⟨h1, h2⟩; cases d <;> simp_all [Disp.mod]
      simp only [readOperand, fieldHi_byte233, fieldLo_byte233, fieldMid_byte233, if_neg d.mod_ne_three, if_true,
        List.cons_append, readSib, if_neg hd, readDisp_bytes, Option.map_some]
    | sibNoBase sc ix d =>
      refine ⟨_, _, rfl, by simp, by simp [RmOperand.isMem], ?_⟩
      simp [readOperand, readSib]
    | dispOnly d =>
      refine ⟨_, _, rfl, by simp, by simp [RmOperand.isMem], ?_⟩
      simp [readOperand]

/-- The end of every scheme, on an operand and the bytes after it. -/
theorem finish_encode {mode : Mode} {total : Nat} {a67 : Bool} (bad : Byte → Bool) (mk : BitVec 3 → RmOperand → Instr)
    (reg : BitVec 3) {rm : RmOperand} (h : rm.wf = true) (hs : ¬ (mode = .mode32 ∧ a67 = true ∧ rm.isMem = true))
    (rest : List Byte) :
    ∃ modrm tail, rm.encode reg = modrm :: tail ∧ (fieldHi modrm = 3#2 ↔ rm.isMem = false) ∧
      finish mode total a67 false bad mk (rm.encode reg ++ rest) =
        if bad modrm then .ud else .ok (mk reg rm) (total - rest.length) := by
  obtain ⟨modrm, tail, h1, h2, h3, h4⟩ := readOperand_encode reg rm h rest
  refine ⟨modrm, tail, h1, h3, ?_⟩
  have hn : ¬ (mode = .mode32 ∧ a67 = true ∧ fieldHi modrm ≠ 3#2) := by
    rintro ⟨ha, hb, hc⟩
    exact hs ⟨ha, hb, by cases hm : rm.isMem <;> simp_all⟩
  rw [h1, List.cons_append, finish, if_neg hn, h4, h2, Bool.false_or]

/-- The end of every scheme, where the bytes before ModRM are already illegal. -/
theorem finish_illegal {mode : Mode} {total : Nat} {a67 : Bool} (bad : Byte → Bool) (mk : BitVec 3 → RmOperand → Instr)
    (reg : BitVec 3) {rm : RmOperand} (h : rm.wf = true) (rest : List Byte) :
    finish mode total a67 true bad mk (rm.encode reg ++ rest) = .ud := by
  obtain ⟨modrm, tail, h1, h2, h3, h4⟩ := readOperand_encode reg rm h rest
  rw [h1, List.cons_append, finish]
  split
  · rfl
  · rw [h4]; rfl

/-! VEX and EVEX payloads. -/

theorem vex2_fields (v : Vex2) (l : Bool) (b : Byte) (h : b = bit1 (!v.r) ++ ~~~v.vvvv ++ bit1 l ++ 1#2) :
    vex2Of b = v ∧ bitAt b 2 = l ∧ b.extractLsb' 0 2 = 1#2 := by
  obtain ⟨r, w⟩ := v; subst h; dsimp only; revert r w l; decide

theorem vex3_first (v : Vex3) (b : Byte) (h : b = bit1 (!v.r) ++ bit1 (!v.x) ++ bit1 (!v.b) ++ 1#5) :
    (!bitAt b 7) = v.r ∧ (!bitAt b 6) = v.x ∧ (!bitAt b 5) = v.b ∧ b.extractLsb' 0 5 = 1#5 := by
  obtain ⟨r, x, b', w, vv⟩ := v; subst h; dsimp only; revert r x b'; decide

theorem vex3_second (v : Vex3) (l : Bool) (b : Byte) (h : b = bit1 v.w ++ ~~~v.vvvv ++ bit1 l ++ 1#2) :
    bitAt b 7 = v.w ∧ ~~~(b.extractLsb' 3 4) = v.vvvv ∧ bitAt b 2 = l ∧ b.extractLsb' 0 2 = 1#2 := by
  obtain ⟨r, x, b', w, vv⟩ := v; subst h; dsimp only; revert w vv l; decide

theorem evex_p0 (e : Evex) (b : Byte)
    (h : b = bit1 (!e.r) ++ bit1 (!e.x) ++ bit1 (!e.b) ++ bit1 (!e.rr) ++ 0#2 ++ 1#2) :
    (!bitAt b 7) = e.r ∧ (!bitAt b 6) = e.x ∧ (!bitAt b 5) = e.b ∧ (!bitAt b 4) = e.rr ∧ b.extractLsb' 2 2 = 0#2 ∧
      b.extractLsb' 0 2 = 1#2 := by
  obtain ⟨r, x, b', rr, v, vv, z, a⟩ := e; subst h; dsimp only; revert r x b' rr; decide

theorem evex_p1 (e : Evex) (b : Byte) (h : b = 1#1 ++ ~~~e.vvvv ++ 1#1 ++ 1#2) :
    bitAt b 7 = true ∧ ~~~(b.extractLsb' 3 4) = e.vvvv ∧ bitAt b 2 = true ∧ b.extractLsb' 0 2 = 1#2 := by
  obtain ⟨r, x, b', rr, v, vv, z, a⟩ := e; subst h; dsimp only; revert v; decide

theorem evex_p2 (e : Evex) (ll : BitVec 2) (bc : Bool) (b : Byte) (h : b = bit1 e.z ++ ll ++ bit1 bc ++ bit1 (!e.vv) ++ e.aaa) :
    bitAt b 7 = e.z ∧ b.extractLsb' 5 2 = ll ∧ bitAt b 4 = bc ∧ (!bitAt b 3) = e.vv ∧ b.extractLsb' 0 3 = e.aaa := by
  obtain ⟨r, x, b', rr, v, vv, z, a⟩ := e; subst h; dsimp only; revert z ll bc vv a; decide

/-- In 32-bit mode the stored bits of a `low` prefix begin with `11`. -/
theorem fieldHi_vex2 (v : Vex2) (l : Bool) (h : v.low = true) :
    fieldHi (bit1 (!v.r) ++ ~~~v.vvvv ++ bit1 l ++ 1#2 : Byte) = 3#2 := by
  obtain ⟨r, w⟩ := v; revert r w l; decide

theorem fieldHi_vex3 (v : Vex3) (h : v.low = true) :
    fieldHi (bit1 (!v.r) ++ bit1 (!v.x) ++ bit1 (!v.b) ++ 1#5 : Byte) = 3#2 := by
  obtain ⟨r, x, b, w, vv⟩ := v; simp only [Vex3.low] at h; dsimp only; revert r x b vv; decide

theorem fieldHi_evex (e : Evex) (h : e.low = true) :
    fieldHi (bit1 (!e.r) ++ bit1 (!e.x) ++ bit1 (!e.b) ++ bit1 (!e.rr) ++ 0#2 ++ 1#2 : Byte) = 3#2 := by
  obtain ⟨r, x, b, rr, v, vv, z, a⟩ := e
  simp only [Evex.low, Bool.and_eq_true, Bool.not_eq_true'] at h
  obtain ⟨⟨⟨⟨⟨rfl, rfl⟩, -⟩, -⟩, -⟩, -⟩ := h
  dsimp only; revert b rr; decide

end Sys2Proof
end

