-- ==== Sys2Proof/Laws/Instr.lean ====
section
/-! SUPPORT. Every instruction is one addition with its operands resolved: what it can answer, in the terms of Safety.lean. -/

namespace Sys2Proof.Machine

/-- The addition an instruction performs. -/
def opOf (s : State) (i : Instr) : AddOp where
  enable := enableClass i
  kl := laneCount i
  dst := destination i
  src1 := firstSource i
  src2 := secondSource s i
  mask := writemask i
  zeroing := zeroingOf i
  er := embeddedRounding i
  align := isLegacy i
  upper := if isLegacy i then .keep else .zero
  len := i.length

theorem exec_eq (i : Instr) (s : State) : exec i s = execAdd (opOf s i) s := by
  cases i <;> rfl

theorem laneCount_le (i : Instr) : laneCount i ≤ 8 := by cases i <;> simp [laneCount]

@[simp] theorem activity_length (s : State) (i : Instr) : (activity s i).length = laneCount i := by simp [activity]

theorem activity_getD (s : State) (i : Instr) {j : Nat} (hj : j < laneCount i) :
    (activity s i).getD j false = Active s (writemask i) j := activeLanes_getD s (writemask i) hj

/-- When an instruction answers a next state, and which. -/
theorem exec_eq_next {i : Instr} {s t : State} (h : exec i s = .next t) :
    Enabled (enableClass i) s ∧ SourceReady s (isLegacy i) (secondSource s i) (activity s i) ∧
    ((embeddedRounding i).isSome = true ∨ NoneUnmasked (condsOf (sumOf s i) (activity s i)) s) ∧
    ripOk s (s.rip.toNat + i.length) = true ∧
    AddEffect s t (destination i) (if isLegacy i then .keep else .zero) (zeroingOf i) (sumOf s i) (activity s i)
      (if (embeddedRounding i).isSome then {} else condsOf (sumOf s i) (activity s i)) i.length := by
  rw [exec_eq] at h
  exact execAdd_eq_next (op := opOf s i) (laneCount_le i) h

/-- An instruction completes where it is enabled, its source is ready, no condition is unmasked and the next `RIP` is
representable. -/
theorem exec_completes {i : Instr} {s : State} (hen : Enabled (enableClass i) s)
    (hsrc : SourceReady s (isLegacy i) (secondSource s i) (activity s i))
    (hm : (embeddedRounding i).isSome = true ∨ NoneUnmasked (condsOf (sumOf s i) (activity s i)) s)
    (hrip : ripOk s (s.rip.toNat + i.length) = true) : ∃ t, exec i s = .next t := by
  rw [exec_eq]
  exact execAdd_completes (op := opOf s i) hen hsrc hm hrip

/-- An instruction that is enabled and whose source is ready. -/
theorem exec_of_ready {i : Instr} {s : State} (hen : Enabled (enableClass i) s)
    (hsrc : SourceReady s (isLegacy i) (secondSource s i) (activity s i)) :
    exec i s =
      if (embeddedRounding i).isSome then
        advance i.length (s.setVec (destination i) (newVec s.cfg (if isLegacy i then .keep else .zero) (zeroingOf i)
          ((List.range (laneCount i)).map fun j => if (activity s i).getD j false then some (sumOf s i j).res else none)
          (s.vec (destination i))))
      else if ((preOf (sumOf s i) (activity s i)).unmasked s).any then
        raiseSimd ((preOf (sumOf s i) (activity s i)).unmasked s) (preOf (sumOf s i) (activity s i)) s
      else if ((postOf (sumOf s i) (activity s i)).unmasked s).any then
        raiseSimd ((postOf (sumOf s i) (activity s i)).unmasked s) (condsOf (sumOf s i) (activity s i)) s
      else
        advance i.length ((s.orFlags (condsOf (sumOf s i) (activity s i))).setVec (destination i)
          (newVec s.cfg (if isLegacy i then .keep else .zero) (zeroingOf i)
            ((List.range (laneCount i)).map fun j => if (activity s i).getD j false then some (sumOf s i j).res else none)
            (s.vec (destination i)))) := by
  rw [exec_eq]
  exact execAdd_of_ready (op := opOf s i) hen hsrc

/-- An instruction that is enabled and whose source read faults or is refused. -/
theorem exec_of_read_fault {i : Instr} {s : State} {f : Fault} (hen : Enabled (enableClass i) s)
    (h : readSource s (isLegacy i) (secondSource s i) (activity s i) = .fault f) : exec i s = .fault f := by
  rw [exec_eq, execAdd, show (opOf s i).enable = enableClass i from rfl, (checkEnabled_eq_next (u := ())).2 hen, andThen_next,
    show readSource s (opOf s i).align (opOf s i).src2 (activeLanes s (opOf s i).kl (opOf s i).mask) = _ from h]
  rfl

theorem exec_of_read_refused {i : Instr} {s : State} {r : Refusal} (hen : Enabled (enableClass i) s)
    (h : readSource s (isLegacy i) (secondSource s i) (activity s i) = .refused r) : exec i s = .refused r := by
  rw [exec_eq, execAdd, show (opOf s i).enable = enableClass i from rfl, (checkEnabled_eq_next (u := ())).2 hen, andThen_next,
    show readSource s (opOf s i).align (opOf s i).src2 (activeLanes s (opOf s i).kl (opOf s i).mask) = _ from h]
  rfl

/-- The faults of an instruction. -/
theorem exec_eq_fault {i : Instr} {s : State} {f : Fault} (h : exec i s = .fault f) :
    checkEnabled (enableClass i) s = .fault f ∨
    (Enabled (enableClass i) s ∧ readSource s (isLegacy i) (secondSource s i) (activity s i) = .fault f) ∨
    (Enabled (enableClass i) s ∧ SourceReady s (isLegacy i) (secondSource s i) (activity s i) ∧
      embeddedRounding i = none ∧ ∃ cause seen, (raiseSimd cause seen s : Result Unit) = .fault f ∧ cause.any = true ∧
        ((cause = (preOf (sumOf s i) (activity s i)).unmasked s ∧ seen = preOf (sumOf s i) (activity s i)) ∨
         (((preOf (sumOf s i) (activity s i)).unmasked s).any = false ∧
          cause = (postOf (sumOf s i) (activity s i)).unmasked s ∧ seen = condsOf (sumOf s i) (activity s i)))) := by
  rw [exec_eq] at h
  exact execAdd_eq_fault (op := opOf s i) h

end Sys2Proof.Machine
end

