-- ==== Sys2Proof/Laws/Fetch.lean ====
section
/-! SUPPORT. Instruction fetch and one step: what each can answer. -/

namespace Sys2Proof.Machine

theorem fetchInRange_iff (s : State) (j : Nat) :
    FetchInRange s j ↔ ¬ (if s.mode = .mode64 then 2 ^ 64 else 2 ^ 32) ≤ s.rip.toNat + j := by
  unfold FetchInRange; omega

/-- A byte is fetched exactly when it is fetchable. -/
theorem fetchByte_eq_next {s : State} {j : Nat} {b : Byte} : fetchByte s j = .next b ↔ Fetchable s j b := by
  unfold Fetchable fetchByte
  rw [fetchInRange_iff]
  by_cases h1 : (if s.mode = .mode64 then 2 ^ 64 else 2 ^ 32) ≤ s.rip.toNat + j
  · rw [if_pos h1]; exact ⟨fun h => (nomatch h), fun h => absurd h1 h.1⟩
  · rw [if_neg h1]
    cases h2 : fetchSegmentOk s j
    · simp [raise]
    · rw [if_neg (by simp)]
      cases h3 : translate s.cfg (fetchAddr s j) .fetch s.cpl with
      | some c => simp
      | none => simp only [Host.Outcome.next.injEq]; exact ⟨fun h => ⟨h1, trivial, trivial, h⟩, fun h => h.2.2.2⟩

/-- The faults of the fetch of a byte in range. -/
theorem fetchByte_gp {s : State} {j : Nat} (h : FetchInRange s j) (hc : fetchSegmentOk s j = false) :
    fetchByte s j = .fault (.generalProtection s) := by
  rw [fetchInRange_iff] at h
  rw [fetchByte, if_neg h, hc]; rfl

theorem fetchByte_pf {s : State} {j : Nat} {code : BitVec 32} (h : FetchInRange s j)
    (hc : fetchSegmentOk s j = true)
    (ht : translate s.cfg (fetchAddr s j) .fetch s.cpl = some code) :
    fetchByte s j = .fault (.pageFault code (fetchAddr s j) { s with cr2 := fetchAddr s j }) := by
  rw [fetchInRange_iff] at h
  rw [fetchByte, if_neg h, hc, if_neg (by simp), ht]; rfl

theorem fetchByte_eq_fault {s : State} {j : Nat} {f : Fault} (h : fetchByte s j = .fault f) :
    f = .generalProtection s ∨ ∃ code, translate s.cfg (fetchAddr s j) .fetch s.cpl = some code ∧
      f = .pageFault code (fetchAddr s j) { s with cr2 := fetchAddr s j } := by
  unfold fetchByte at h
  by_cases h1 : (if s.mode = .mode64 then 2 ^ 64 else 2 ^ 32) ≤ s.rip.toNat + j
  · rw [if_pos h1] at h; cases h
  · rw [if_neg h1] at h
    cases h2 : fetchSegmentOk s j
    · rw [h2] at h; exact .inl (Host.Outcome.fault.inj h).symm
    · rw [h2, if_neg (by simp)] at h
      cases h3 : translate s.cfg (fetchAddr s j) .fetch s.cpl with
      | some c => rw [h3] at h; exact .inr ⟨c, rfl, (Host.Outcome.fault.inj h).symm⟩
      | none => rw [h3] at h; cases h

/-- What the fetch stops with is a fault of some byte, or #GP(0) past the longest instruction, or a refusal. -/
theorem fetchBytes_stop (s : State) (n i : Nat) :
    (∃ f, (fetchBytes s n i).2 = .fault f ∧ (f = .generalProtection s ∨ ∃ j code,
      translate s.cfg (fetchAddr s j) .fetch s.cpl = some code ∧
      f = .pageFault code (fetchAddr s j) { s with cr2 := fetchAddr s j })) ∨
    ∃ r, (fetchBytes s n i).2 = .refused r := by
  induction n generalizing i with
  | zero => exact .inl ⟨_, rfl, .inl rfl⟩
  | succ n ih =>
    rw [fetchBytes]
    split
    · exact ih _
    · rename_i f hf
      rcases fetchByte_eq_fault hf with h | ⟨c, hc, h⟩
      · exact .inl ⟨f, rfl, .inl h⟩
      · exact .inl ⟨f, rfl, .inr ⟨_, c, hc, h⟩⟩
    · exact .inr ⟨_, rfl⟩

/-- What one step does: it is refused, or over, or stops at fetch or decode, or executes the decoded instruction. -/
theorem step_cases (s : State) :
    (∃ r, step s = .refused r) ∨ (premises s = none ∧ s.rip = s.cfg.endRip ∧ step s = .next s) ∨
    (premises s = none ∧ s.rip ≠ s.cfg.endRip ∧
      ((∃ i n, decode s.mode (fetchBytes s maxLength 0).1 = .ok i n ∧ step s = exec i s) ∨
       step s = .fault (.invalidOpcode s) ∨
       (decode s.mode (fetchBytes s maxLength 0).1 = .short ∧ step s = (fetchBytes s maxLength 0).2))) := by
  cases hp : premises s with
  | some r => exact .inl ⟨r, by rw [step, hp]⟩
  | none =>
    by_cases he : s.rip = s.cfg.endRip
    · exact .inr (.inl ⟨rfl, he, by rw [step, hp]; exact if_pos he⟩)
    · have hs : step s = match fetchInstr s with | .instr i => exec i s | .stop o => o := by
        rw [step, hp]; exact if_neg he
      cases hd : decode s.mode (fetchBytes s maxLength 0).1 with
      | ok i n => exact .inr (.inr ⟨rfl, he, .inl ⟨i, n, rfl, by rw [hs, fetchInstr, hd]⟩⟩)
      | ud => exact .inr (.inr ⟨rfl, he, .inr (.inl (by rw [hs, fetchInstr, hd]; rfl))⟩)
      | refused r => exact .inl ⟨_, by rw [hs, fetchInstr, hd]⟩
      | short => exact .inr (.inr ⟨rfl, he, .inr (.inr ⟨rfl, by rw [hs, fetchInstr, hd]⟩)⟩)

/-- A step that answers a next state is at `END` or executes an instruction. -/
theorem step_eq_next {s t : State} (h : step s = .next t) : t = s ∨ ∃ i, exec i s = .next t := by
  rcases step_cases s with ⟨r, hr⟩ | ⟨_, _, hs⟩ | ⟨_, _, ⟨i, n, _, hs⟩ | hs | ⟨_, hs⟩⟩
  · rw [hr] at h; cases h
  · rw [hs] at h; exact .inl (Host.Outcome.next.inj h).symm
  · rw [hs] at h; exact .inr ⟨i, h⟩
  · rw [hs] at h; cases h
  · rw [hs] at h
    rcases fetchBytes_stop s maxLength 0 with ⟨f, hf, _⟩ | ⟨r, hr⟩
    · rw [hf] at h; cases h
    · rw [hr] at h; cases h

/-- The faults of a step. -/
theorem step_eq_fault {s : State} {f : Fault} (h : step s = .fault f) :
    (∃ i n, decode s.mode (fetchBytes s maxLength 0).1 = .ok i n ∧ exec i s = .fault f) ∨ f = .invalidOpcode s ∨ f = .generalProtection s ∨ ∃ j code,
      translate s.cfg (fetchAddr s j) .fetch s.cpl = some code ∧
      f = .pageFault code (fetchAddr s j) { s with cr2 := fetchAddr s j } := by
  rcases step_cases s with ⟨r, hr⟩ | ⟨_, _, hs⟩ | ⟨_, _, ⟨i, n, hd, hs⟩ | hs | ⟨_, hs⟩⟩
  · rw [hr] at h; cases h
  · rw [hs] at h; cases h
  · rw [hs] at h; exact .inl ⟨i, n, hd, h⟩
  · rw [hs] at h; exact .inr (.inl (Host.Outcome.fault.inj h).symm)
  · rw [hs] at h
    rcases fetchBytes_stop s maxLength 0 with ⟨g, hg, hk⟩ | ⟨r, hr⟩
    · rw [hg] at h
      have := Host.Outcome.fault.inj h
      subst this
      exact .inr (.inr hk)
    · rw [hr] at h; cases h

end Sys2Proof.Machine
end

