-- ==== Sys2Proof/Laws/Memory.lean ====
section
/-! SUPPORT. Memory: a read after a write, and the canonical form, which every operation keeps. -/

namespace Sys2Proof.Machine

theorem Memory.read_of_lt {m : Memory} {lo a : Nat} (h : Memory.wfFrom lo m = true) (ha : a < lo) :
    Memory.read m a = Memory.unlisted := by
  induction m generalizing lo with
  | nil => rfl
  | cons c m ih =>
    obtain ⟨k, b⟩ := c
    simp only [Memory.wfFrom, Bool.and_eq_true, decide_eq_true_eq] at h
    have : k ≠ a := by omega
    simp only [Memory.read, if_neg this]
    exact ih h.2 (by omega)

theorem Memory.read_write_same {m : Memory} {lo : Nat} (h : Memory.wfFrom lo m = true) (a : Nat) (b : Byte) :
    Memory.read (Memory.write m a b) a = b := by
  induction m generalizing lo with
  | nil => by_cases hb : b = Memory.unlisted <;> simp [Memory.write, Memory.read, hb]
  | cons c m ih =>
    obtain ⟨k, c⟩ := c
    simp only [Memory.wfFrom, Bool.and_eq_true, decide_eq_true_eq] at h
    have above : Memory.read m k = Memory.unlisted := Memory.read_of_lt h.2 (by omega)
    unfold Memory.write
    by_cases h1 : a < k
    · have hk : k ≠ a := by omega
      have := Memory.read_of_lt h.2 (show a < k + 1 by omega)
      by_cases hb : b = Memory.unlisted <;> simp [h1, hb, Memory.read, hk, this]
    · by_cases h2 : a = k
      · subst h2
        by_cases hb : b = Memory.unlisted <;> simp [hb, Memory.read, above]
      · have hk : k ≠ a := fun e => h2 e.symm
        simp only [if_neg h1, if_neg h2, Memory.read, if_neg hk]
        exact ih h.2

theorem Memory.read_write_ne (m : Memory) {a a' : Nat} (b : Byte) (hne : a' ≠ a) :
    Memory.read (Memory.write m a b) a' = Memory.read m a' := by
  induction m with
  | nil =>
    have : a ≠ a' := fun e => hne e.symm
    by_cases hb : b = Memory.unlisted <;> simp [Memory.write, Memory.read, hb, this]
  | cons c m ih =>
    obtain ⟨k, c⟩ := c
    have hne' : a ≠ a' := fun e => hne e.symm
    unfold Memory.write
    by_cases h1 : a < k
    · by_cases hb : b = Memory.unlisted <;> simp [h1, hb, Memory.read, hne']
    · by_cases h2 : a = k
      · subst h2
        by_cases hb : b = Memory.unlisted <;> simp [hb, Memory.read, hne']
      · simp only [if_neg h1, if_neg h2, Memory.read, ih]

theorem Memory.wfFrom_mono {m : Memory} {lo lo' : Nat} (h : Memory.wfFrom lo m = true) (hle : lo' ≤ lo) :
    Memory.wfFrom lo' m = true := by
  cases m with
  | nil => rfl
  | cons c m =>
    obtain ⟨k, b⟩ := c
    simp only [Memory.wfFrom, Bool.and_eq_true, decide_eq_true_eq] at h ⊢
    exact ⟨⟨⟨by omega, h.1.1.2⟩, h.1.2⟩, h.2⟩

theorem Memory.write_wfFrom {m : Memory} {lo a : Nat} (h : Memory.wfFrom lo m = true) (ha : lo ≤ a) (ha' : a < 2 ^ 64)
    (b : Byte) : Memory.wfFrom lo (Memory.write m a b) = true := by
  induction m generalizing lo with
  | nil => by_cases hb : b = Memory.unlisted <;> simp [Memory.write, Memory.wfFrom, hb]; omega
  | cons c m ih =>
    obtain ⟨k, c⟩ := c
    simp only [Memory.wfFrom, Bool.and_eq_true, decide_eq_true_eq] at h
    unfold Memory.write
    by_cases h1 : a < k
    · by_cases hb : b = Memory.unlisted
      · simp only [h1, if_true, hb, Memory.wfFrom, Bool.and_eq_true, decide_eq_true_eq]; exact h
      · simp only [h1, if_true, if_neg hb, Memory.wfFrom, Bool.and_eq_true, decide_eq_true_eq, bne_iff_ne, ne_eq]
        exact ⟨⟨⟨ha, ha'⟩, hb⟩, ⟨⟨by omega, h.1.1.2⟩, bne_iff_ne.mp h.1.2⟩, h.2⟩
    · by_cases h2 : a = k
      · subst h2
        by_cases hb : b = Memory.unlisted
        · simp only [lt_irrefl, if_false, if_true, hb]; exact Memory.wfFrom_mono h.2 (by omega)
        · simp only [lt_irrefl, if_false, if_true, if_neg hb, Memory.wfFrom, Bool.and_eq_true, decide_eq_true_eq,
            bne_iff_ne, ne_eq]
          exact ⟨⟨⟨ha, ha'⟩, hb⟩, h.2⟩
      · simp only [if_neg h1, if_neg h2, Memory.wfFrom, Bool.and_eq_true, decide_eq_true_eq]
        exact ⟨h.1, ih h.2 (by omega)⟩

/-- A write keeps the canonical form. -/
theorem Memory.write_wf {m : Memory} (h : m.wf = true) (a : Addr) (b : Byte) : (Memory.write m a.toNat b).wf = true :=
  Memory.write_wfFrom h (Nat.zero_le _) a.isLt b

theorem reset_mem_wf : State.reset.mem.wf = true := rfl

/-- Placing a program keeps the canonical form. -/
theorem placeBytes_mem_wf (s : State) (bs : List Byte) (i : Nat) (h : s.mem.wf = true) :
    (placeBytes s bs i).mem.wf = true := by
  induction bs generalizing s i with
  | nil => exact h
  | cons b bs ih => exact ih _ _ (Memory.write_wf h _ _)

end Sys2Proof.Machine
end

