-- ==== Sys2Proof/Laws/PerInstr.lean ====
section
/-! SUPPORT. The per-instruction family `Length`: the encoder writes as many bytes as the length rule says (30_encoding.md
R117), and no instruction reaches the 15-byte limit (R88). -/

namespace Sys2Proof.Laws

theorem Length.prefixes_le (p : Prefixes) : p.length ≤ 2 := by
  obtain ⟨seg, a67⟩ := p
  cases seg <;> cases a67 <;> simp [Prefixes.length]

theorem Length.operand_bounds (rm : RmOperand) : 1 ≤ rm.length ∧ rm.length ≤ 6 := by
  cases rm with
  | reg r => simp [RmOperand.length]
  | mem m =>
    cases m with
    | base r d => cases d <;> simp [RmOperand.length, Disp.length]
    | sib sc ix lo d => cases d <;> simp [RmOperand.length, Disp.length]
    | sibNoBase sc ix d => simp [RmOperand.length]
    | dispOnly d => simp [RmOperand.length]

theorem Length.of_head {i : Instr} (h : i.head.length = i.headLength) (hl : 3 ≤ i.headLength) (hu : i.headLength ≤ 5) :
    (encode i).length = i.length ∧ 4 ≤ i.length ∧ i.length ≤ 13 := by
  have h1 := Length.prefixes_le i.prefixes
  have h2 := Length.operand_bounds i.operand
  refine ⟨?_, ?_, ?_⟩
  · simp only [encode, List.length_append, Prefixes.encode_length, RmOperand.encode_length, h, Instr.length]
  · unfold Instr.length; omega
  · unfold Instr.length; omega

/-- The encoding of an instruction has its length, between 4 and 13 bytes. -/
def Length.Statement (i : Instr) : Prop :=
  (encode i).length = i.length ∧ 4 ≤ i.length ∧ i.length ≤ 13

theorem Length.addpdSse (p : Prefixes) (reg : BitVec 3) (rm : RmOperand) :
    Length.Statement (.addpdSse p reg rm) :=
  Length.of_head rfl (by simp [Instr.headLength]) (by simp [Instr.headLength])

theorem Length.addpdSseRex (p : Prefixes) (rex : Rex) (reg : BitVec 3) (rm : RmOperand) :
    Length.Statement (.addpdSseRex p rex reg rm) :=
  Length.of_head rfl (by simp [Instr.headLength]) (by simp [Instr.headLength])

theorem Length.vaddpdVex128C5 (p : Prefixes) (v : Vex2) (reg : BitVec 3) (rm : RmOperand) :
    Length.Statement (.vaddpdVex128C5 p v reg rm) :=
  Length.of_head rfl (by simp [Instr.headLength]) (by simp [Instr.headLength])

theorem Length.vaddpdVex128C4 (p : Prefixes) (v : Vex3) (reg : BitVec 3) (rm : RmOperand) :
    Length.Statement (.vaddpdVex128C4 p v reg rm) :=
  Length.of_head rfl (by simp [Instr.headLength]) (by simp [Instr.headLength])

theorem Length.vaddpdVex256C5 (p : Prefixes) (v : Vex2) (reg : BitVec 3) (rm : RmOperand) :
    Length.Statement (.vaddpdVex256C5 p v reg rm) :=
  Length.of_head rfl (by simp [Instr.headLength]) (by simp [Instr.headLength])

theorem Length.vaddpdVex256C4 (p : Prefixes) (v : Vex3) (reg : BitVec 3) (rm : RmOperand) :
    Length.Statement (.vaddpdVex256C4 p v reg rm) :=
  Length.of_head rfl (by simp [Instr.headLength]) (by simp [Instr.headLength])

theorem Length.vaddpdEvex128 (p : Prefixes) (e : Evex) (bcast : Bool) (reg : BitVec 3) (rm : RmOperand) :
    Length.Statement (.vaddpdEvex128 p e bcast reg rm) :=
  Length.of_head rfl (by simp [Instr.headLength]) (by simp [Instr.headLength])

theorem Length.vaddpdEvex256 (p : Prefixes) (e : Evex) (bcast : Bool) (reg : BitVec 3) (rm : RmOperand) :
    Length.Statement (.vaddpdEvex256 p e bcast reg rm) :=
  Length.of_head rfl (by simp [Instr.headLength]) (by simp [Instr.headLength])

theorem Length.vaddpdEvex512 (p : Prefixes) (e : Evex) (bcast : Bool) (reg : BitVec 3) (rm : RmOperand) :
    Length.Statement (.vaddpdEvex512 p e bcast reg rm) :=
  Length.of_head rfl (by simp [Instr.headLength]) (by simp [Instr.headLength])

theorem Length.vaddpdEvex512Er (p : Prefixes) (e : Evex) (rc : BitVec 2) (reg rm : BitVec 3) :
    Length.Statement (.vaddpdEvex512Er p e rc reg rm) :=
  Length.of_head rfl (by simp [Instr.headLength]) (by simp [Instr.headLength])

end Sys2Proof.Laws
end

