-- ==== Sys2Proof/Tests/Slice0.lean ====
section
/-! SUPPORT. Tests: ill-formed terms refused, words of the spec decoded, the spec's worked examples and vectors run for one
step, and for every statement with hypotheses a concrete state and operands that meet them. -/

namespace Sys2Proof.Tests

set_option Elab.async false

open Sys2Proof Sys2Proof.Machine

def noPrefix : Prefixes := ⟨none, false⟩
def low2 : Vex2 := ⟨false, 0#4⟩
def low3 : Vex3 := ⟨false, false, false, false, 0#4⟩
def lowE : Evex := ⟨false, false, false, false, 1#4, false, false, 0#3⟩

/-! Each check of WellFormed refuses an ill-formed term (30_encoding.md R92, R93, R97, R104, R110, R112, R114). -/

theorem test_wf_base_100 : (Instr.addpdSse noPrefix 0#3 (.mem (.base 4#3 .none))).wf .mode64 = false := by decide
theorem test_wf_base_101 : (Instr.addpdSse noPrefix 0#3 (.mem (.base 5#3 .none))).wf .mode64 = false := by decide
theorem test_wf_sib_101 : (Instr.addpdSse noPrefix 0#3 (.mem (.sib 0#2 4#3 5#3 .none))).wf .mode64 = false := by decide
theorem test_wf_rex_mode32 :
    (Instr.addpdSseRex noPrefix ⟨false, false, false, false⟩ 0#3 (.reg 0#3)).wf .mode32 = false := by decide
theorem test_wf_address16 :
    (Instr.addpdSse ⟨none, true⟩ 0#3 (.mem (.base 0#3 .none))).wf .mode32 = false := by decide
theorem test_wf_vex2_r : (Instr.vaddpdVex128C5 noPrefix ⟨true, 0#4⟩ 0#3 (.reg 0#3)).wf .mode32 = false := by decide
theorem test_wf_vex2_vvvv : (Instr.vaddpdVex256C5 noPrefix ⟨false, 8#4⟩ 0#3 (.reg 0#3)).wf .mode32 = false := by decide
theorem test_wf_vex3_b :
    (Instr.vaddpdVex128C4 noPrefix { low3 with b := true } 0#3 (.reg 0#3)).wf .mode32 = false := by decide
theorem test_wf_vex3_x :
    (Instr.vaddpdVex256C4 noPrefix { low3 with x := true } 0#3 (.reg 0#3)).wf .mode32 = false := by decide
theorem test_wf_evex_high :
    (Instr.vaddpdEvex512 noPrefix { lowE with rr := true } false 0#3 (.reg 0#3)).wf .mode32 = false ∧
    (Instr.vaddpdEvex512Er noPrefix { lowE with vv := true } 0#2 0#3 0#3).wf .mode32 = false := by decide
theorem test_wf_evex_mask : (Instr.vaddpdEvex128 noPrefix { lowE with z := true } false 0#3 (.reg 0#3)).wf .mode64 = false ∧
    (Instr.vaddpdEvex512Er noPrefix { lowE with z := true } 0#2 0#3 0#3).wf .mode64 = false := by decide
theorem test_wf_broadcast_register : (Instr.vaddpdEvex256 noPrefix lowE true 0#3 (.reg 0#3)).wf .mode64 = false := by decide
theorem test_wf_mode : (Instr.addpdSse noPrefix 0#3 (.reg 0#3)).wf .realAddress = false := by decide

/-! Words written out from the spec. The words of every row stand in `Obligations.SpecWordsDecode`. -/

/-- 30_encoding.md R90 to R94, R83, R97: `FS`, `67`, `66 0F 58`, ModRM 84 (mod 2, rm 4), SIB 4B (scale 1, index 1, base 3). -/
theorem test_decode_prefixes_sib :
    decode .mode64 [0x64#8, 0x67#8, 0x66#8, 0x0F#8, 0x58#8, 0x84#8, 0x4B#8, 0x78#8, 0x56#8, 0x34#8, 0x12#8] =
      .ok (.addpdSse ⟨some .fs, true⟩ 0#3 (.mem (.sib 1#2 1#3 3#3 (.disp32 0x12345678#32)))) 11 := by decide

/-- 30_encoding.md R95: mod 0, rm 5 is RIP-relative. -/
theorem test_decode_rip_relative :
    decode .mode64 [0xC5#8, 0xF9#8, 0x58#8, 0x0D#8, 0x10#8, 0#8, 0#8, 0#8] =
      .ok (.vaddpdVex128C5 noPrefix low2 1#3 (.mem (.dispOnly 0x10#32))) 8 := by decide

/-- 30_encoding.md R107, R113: `62 A1 F5 40 58 C1` names `zmm16`, `zmm17` and `zmm17`. -/
theorem test_decode_evex_high_registers :
    decode .mode64 [0x62#8, 0xA1#8, 0xF5#8, 0x40#8, 0x58#8, 0xC1#8] =
      .ok (.vaddpdEvex512 noPrefix ⟨false, true, false, true, 1#4, true, false, 0#3⟩ false 0#3 (.reg 1#3)) 6 := by decide

/-- 30_encoding.md R87: a repeated prefix is refused. -/
theorem test_decode_repeated_prefix :
    decode .mode64 [0x66#8, 0x66#8, 0x0F#8, 0x58#8, 0xC1#8] = .refused .redundantPrefix := by decide

/-- 30_encoding.md R104, R114: a high register-extension bit in 32-bit mode is refused. -/
theorem test_decode_mode32_extension :
    decode .mode32 [0xC4#8, 0xC1#8, 0x71#8, 0x58#8, 0xC2#8] = .refused .mode32Extension := by decide

/-- 30_encoding.md R97: 16-bit addressing is refused. -/
theorem test_decode_address16 : decode .mode32 [0x67#8, 0xC5#8, 0xF9#8, 0x58#8, 0x03#8] = .refused .address16 := by decide

/-- 30_encoding.md R128: a word of the opcode table, its first byte most significant. -/
theorem test_table_word : decodeTableWord 32 0x660F58C1 = some (.addpdSse noPrefix 0#3 (.reg 1#3)) := by decide +kernel

/-! One step on small states. -/

/-- A machine in 64-bit mode with every form enabled (70_reset_and_hazards.md R241 to R244), `RIP = 0x1000`. -/
def ready : State := { launch State.reset with rip := 0x1000#64 }

/-- `ready` with an instruction's bytes at `RIP`. -/
def withBytes (s : State) (bs : List Byte) : State := placeBytes s bs 0

/-- Bytes from a linear address on. -/
def withData (s : State) : List Byte → Nat → State
  | [], _ => s
  | b :: bs, a => withData { s with mem := Memory.write s.mem a b } bs (a + 1)

/-- The 8 bytes of a double, least significant first. -/
def le (d : Double) : List Byte := (List.range 8).map fun i => d.extractLsb' (8 * i) 8

/-- The register of given lanes, lane 0 first. -/
def lanes : Nat → List Double → VecReg
  | _, [] => 0#512
  | j, d :: ds => setLane (lanes (j + 1) ds) j d

def after (o : Host.Outcome State Fault Refusal) (p : State → Bool) : Bool :=
  match o with
  | .next t => p t
  | _ => false

theorem next_of_after {o : Host.Outcome State Fault Refusal} {p : State → Bool} (h : after o p = true) :
    ∃ t, o = .next t := by
  cases o with
  | next t => exact ⟨t, rfl⟩
  | fault f => cases h
  | refused r => cases h

def faulted : Host.Outcome State Fault Refusal → Option Fault
  | .fault f => some f
  | _ => none

theorem fault_of_faulted {o : Host.Outcome State Fault Refusal} {f : Fault} (h : faulted o = some f) : o = .fault f := by
  cases o <;> simp_all [faulted]

def ones : Double := 0x3FF0000000000000#64
def two : Double := 0x4000000000000000#64

/-- 41_addpd_legacy_sse.md R165: `ADDPD xmm0, xmm1`; the bits above 127 stay. -/
def r165 : State :=
  withBytes ((ready.setVec 0#5 (lanes 0 [ones, two, 7#64])).setVec 1#5 (lanes 0 [0x3FE0000000000000#64, 0x3FD0000000000000#64]))
    [0x66#8, 0x0F#8, 0x58#8, 0xC1#8]

theorem test_step_addpd : after (step r165) (fun t =>
    t.vec 0#5 == lanes 0 [0x3FF8000000000000#64, 0x4002000000000000#64, 7#64] && t.mxcsr == 0x1F80#32 &&
    t.rip == 0x1004#64) = true := by decide +kernel

/-- 41_addpd_legacy_sse.md R164: a misaligned operand of ADDPD is #GP(0) (20_memory.md R56), here with REX. -/
theorem test_step_addpd_rex_misaligned :
    let s := withBytes { ready with gpr := ready.gpr.set 8 0x2008#64 } [0x66#8, 0x41#8, 0x0F#8, 0x58#8, 0x00#8]
    faulted (step s) = some (.generalProtection s) := by
  decide +kernel

/-- 42_vaddpd_vex.md R176 (a): `VADDPD xmm0, xmm0, [rbx+8]`; the bits above 127 are zeroed. -/
def r176a : State :=
  withData (withBytes ({ ready with gpr := ready.gpr.set 3 0x3000#64 }.setVec 0#5
      (lanes 0 [0x3FF8000000000000#64, 0x4002000000000000#64, 7#64])) [0xC5#8, 0xF9#8, 0x58#8, 0x43#8, 0x08#8])
    (le 0x4024000000000000#64 ++ le 0xC002000000000000#64) 0x3008

theorem test_step_vex128_memory : after (step r176a) (fun t =>
    t.vec 0#5 == lanes 0 [0x4027000000000000#64, 0#64] && t.mxcsr == 0x1F80#32 && t.rip == 0x1005#64) = true := by
  decide +kernel

/-- 30_encoding.md R103: `C4 41 31 58 C2` is `VADDPD xmm8, xmm9, xmm10`. -/
theorem test_step_vex128_c4 : after (step (withBytes ((ready.setVec 9#5 (lanes 0 [ones])).setVec 10#5 (lanes 0 [ones]))
    [0xC4#8, 0x41#8, 0x31#8, 0x58#8, 0xC2#8])) (fun t => t.vec 8#5 == lanes 0 [two]) = true := by decide +kernel

/-- 42_vaddpd_vex.md R176 (b): `VADDPD ymm0, ymm1, ymm2`. -/
theorem test_step_vex256 : after (step (withBytes ((ready.setVec 1#5 (lanes 0 [ones, ones, ones, ones, ones])).setVec 2#5
    (lanes 0 [ones, 0#64, ones, 0#64])) [0xC5#8, 0xF5#8, 0x58#8, 0xC2#8])) (fun t =>
    t.vec 0#5 == lanes 0 [two, ones, two, ones]) = true := by decide +kernel

/-- 42_vaddpd_vex.md R174: the three-byte prefix with `W = 1`. -/
theorem test_step_vex256_c4 : after (step (withBytes ((ready.setVec 1#5 (lanes 0 [ones])).setVec 10#5
    (lanes 0 [ones, 0#64, ones])) [0xC4#8, 0xC1#8, 0xF5#8, 0x58#8, 0xC2#8])) (fun t =>
    t.vec 0#5 == lanes 0 [two, 0#64, ones, 0#64]) = true := by decide +kernel

/-- 43_vaddpd_evex.md R195 (c): `VADDPD xmm1{k2}, xmm2, [rax+8]{1to2}`; lane 1 is masked off and keeps its value. -/
theorem test_step_evex128 : after (step (withData (withBytes
    (({ ready with k := ready.k.set 2 1#64 }.setVec 1#5 (lanes 0 [7#64, 9#64, 9#64])).setVec 2#5 (lanes 0 [ones]))
    [0x62#8, 0xF1#8, 0xED#8, 0x1A#8, 0x58#8, 0x48#8, 0x01#8]) (le ones) 8)) (fun t =>
    t.vec 1#5 == lanes 0 [two, 9#64]) = true := by decide +kernel

/-- 43_vaddpd_evex.md R191: form F5 with registers. -/
theorem test_step_evex256 : after (step (withBytes ((ready.setVec 1#5 (lanes 0 [ones])).setVec 2#5
    (lanes 0 [ones, ones, 0#64, ones, ones])) [0x62#8, 0xF1#8, 0xF5#8, 0x28#8, 0x58#8, 0xC2#8])) (fun t =>
    t.vec 0#5 == lanes 0 [two, ones, 0#64, ones]) = true := by decide +kernel

/-- 43_vaddpd_evex.md R195 (a): `VADDPD zmm0{k1}{z}, zmm1, [rax]{1to8}` with `K[1] = 0xA5`. -/
theorem test_step_evex512 : after (step (withData (withBytes
    ({ ready with k := ready.k.set 1 0xA5#64, gpr := ready.gpr.set 0 0x2003#64 }.setVec 1#5
      (lanes 0 [0#64, ones, two, 0x4008000000000000#64, 0x4010000000000000#64, 0x4014000000000000#64,
        0x4018000000000000#64, 0x401C000000000000#64])) [0x62#8, 0xF1#8, 0xF5#8, 0xD9#8, 0x58#8, 0x00#8])
    (le 0x3FE0000000000000#64) 0x2003)) (fun t =>
    t.vec 0#5 == lanes 0 [0x3FE0000000000000#64, 0#64, 0x4004000000000000#64, 0#64, 0#64, 0x4016000000000000#64, 0#64,
      0x401E000000000000#64] && t.mxcsr == 0x1F80#32) = true := by decide +kernel

/-- 43_vaddpd_evex.md R195 (b): `VADDPD zmm0, zmm1, zmm2, {ru-sae}`. -/
theorem test_step_evex512_er : after (step (withBytes ((ready.setVec 1#5 (lanes 0 [ones])).setVec 2#5
    (lanes 0 [0x3CA0000000000000#64])) [0x62#8, 0xF1#8, 0xF5#8, 0x58#8, 0x58#8, 0xC2#8])) (fun t =>
    t.vec 0#5 == lanes 0 [0x3FF0000000000001#64] && t.mxcsr == 0x1F80#32) = true := by decide +kernel

/-! Witnesses of the statements' hypotheses. -/

theorem enabled_of {c : EnableClass} {s : State}
    (h : (premises s == none && !disabled c s && !s.ts) = true) : Enabled c s := by
  simpa [Enabled, and_assoc] using h

/-- `SourceReady` as a computation. -/
def sourceReadyB (s : State) (align : Bool) (src : Source) (act : List Bool) : Bool :=
  match src with
  | .reg _ => true
  | .mem seg _ ea bcast =>
      accessible s seg ea (offsets bcast act true) && (!align || aligned16 s seg ea) &&
        (s.cfg.faultSuppression || accessible s seg ea (offsets bcast act false))

theorem sourceReady_of {s : State} {align : Bool} {src : Source} {act : List Bool}
    (h : sourceReadyB s align src act = true) : SourceReady s align src act := by
  cases src with
  | reg n => trivial
  | mem seg dflt ea bcast =>
    simp only [sourceReadyB, Bool.and_eq_true, Bool.or_eq_true, Bool.not_eq_true'] at h
    refine ⟨h.1.1, ?_, h.2⟩
    rcases h.1.2 with h | h
    · intro ha; rw [h] at ha; cases ha
    · exact fun _ => h

/-- A memory operand `[rax]` at `0x2000`, a multiple of 16. -/
def memRax : RmOperand := .mem (.base 0#3 .none)
def withRax : State := { ready with gpr := ready.gpr.set 0 0x2000#64 }

def iSse : Instr := .addpdSse noPrefix 0#3 memRax
def iSseRex : Instr := .addpdSseRex noPrefix ⟨true, true, false, false⟩ 0#3 memRax
def iVexC5 : Instr := .vaddpdVex128C5 noPrefix low2 0#3 memRax
def iVexC4 : Instr := .vaddpdVex128C4 noPrefix low3 0#3 memRax
def iVex256C5 : Instr := .vaddpdVex256C5 noPrefix low2 0#3 memRax
def iVex256C4 : Instr := .vaddpdVex256C4 noPrefix low3 0#3 memRax
def iEvex128 : Instr := .vaddpdEvex128 noPrefix lowE true 0#3 memRax
def iEvex256 : Instr := .vaddpdEvex256 noPrefix lowE true 0#3 memRax
def iEvex512 : Instr := .vaddpdEvex512 noPrefix lowE true 0#3 memRax
def iEr : Instr := .vaddpdEvex512Er noPrefix lowE 1#2 0#3 0#3

/-- One instruction of every constructor. -/
def allInstrs : List Instr :=
  [iSse, iSseRex, iVexC5, iVexC4, iVex256C5, iVex256C4, iEvex128, iEvex256, iEvex512, iEr]

theorem witness_DecodeEncodeAgree : ∀ i ∈ allInstrs, i.wf .mode64 = true := by decide
theorem witness_DecodedIsWellFormed : decode .mode64 [0xC5#8, 0xF5#8, 0x58#8, 0xC2#8] =
    .ok (.vaddpdVex256C5 noPrefix ⟨false, 1#4⟩ 0#3 (.reg 2#3)) 4 := by decide
/-- Two prefixes in the order the encoder does not write. -/
theorem witness_EveryBitIsDecoded : decode .mode64 [0x67#8, 0x2E#8, 0xC5#8, 0xF5#8, 0x58#8, 0xC2#8] =
    .ok (.vaddpdVex256C5 ⟨some .cs, true⟩ ⟨false, 1#4⟩ 0#3 (.reg 2#3)) 6 := by decide
theorem witness_IllegalPrefixesAreUndefined : iVexC5.wf .mode64 = true ∧ isLegacy iVexC5 = false ∧
    iSse.wf .mode32 = true ∧ isLegacy iSse = true := by decide
theorem witness_EvexReservedIsUndefined : (RmOperand.reg 0#3).wf = true ∧ (0xF5#8).extractLsb' 2 2 ≠ 0#2 ∧
    (0xF5#8 : Byte).extractLsb' 6 2 = 3#2 ∧
    (0xF1#8 : Byte).getLsbD 2 = false ∧ Mode.admits .mode64 lowE.low = true ∧
    ({ lowE with z := true } : Evex).z = true ∧ ({ lowE with z := true } : Evex).aaa = 0#3 := by decide
theorem witness_OtherInstructionsAreRefused : (0xF8#8 : Byte).extractLsb' 0 2 ≠ 1#2 ∧ (0xF2#8 : Byte).extractLsb' 0 5 ≠ 1#5 ∧
    (0xF8#8 : Byte).extractLsb' 6 2 = 3#2 ∧ (0xF2#8 : Byte).extractLsb' 6 2 = 3#2 ∧ (0xF1#8 : Byte).extractLsb' 6 2 = 3#2 ∧
    (0xF1#8 : Byte).extractLsb' 2 2 = 0#2 ∧ (0x75#8 : Byte).getLsbD 2 = true ∧ (0x75#8 : Byte).getLsbD 7 = false ∧
    (0x4F#8 : Byte).extractLsb' 4 4 = 4#4 ∧ (0x00#8 : Byte).extractLsb' 6 2 ≠ 3#2 := by decide

theorem witness_StepRunsDecodedInstruction : premises r165 = none ∧ r165.rip ≠ r165.cfg.endRip ∧
    decode r165.mode (fetchBytes r165 maxLength 0).1 = .ok (.addpdSse noPrefix 0#3 (.reg 1#3)) 4 := by decide +kernel
theorem witness_StepRunsDecodedInstruction_end :
    let s : State := { ready with rip := ready.cfg.endRip }
    premises s = none ∧ s.rip = s.cfg.endRip := by decide +kernel

/-- LOCK before form F1 (#UD), the scalar addition (refused), and a page fault on the second byte (too few bytes). -/
theorem witness_StepRunsDecodedInstruction_stops :
    let ud := withBytes ready [0xF0#8, 0x66#8, 0x0F#8, 0x58#8, 0xC1#8]
    let other := withBytes ready [0xF2#8, 0x0F#8, 0x58#8, 0xC1#8]
    let cut : State := { r165 with cfg := { r165.cfg with pageFaults := [⟨0x1001#64, 0x1FFF#64, .fetch, 0#2, 16#32⟩] } }
    premises ud = none ∧ ud.rip ≠ ud.cfg.endRip ∧ decode ud.mode (fetchBytes ud maxLength 0).1 = .ud ∧
    premises other = none ∧ decode other.mode (fetchBytes other maxLength 0).1 = .refused .otherInstruction ∧
    premises cut = none ∧ decode cut.mode (fetchBytes cut maxLength 0).1 = .short := by decide +kernel

theorem r165_fetchable : Fetchable r165 0 0x66#8 ∧ Fetchable r165 1 0x0F#8 ∧ Fetchable r165 2 0x58#8 ∧
    Fetchable r165 3 0xC1#8 := by
  simp only [← fetchByte_eq_next]
  have h : (List.range 4).map (fun j => match fetchByte r165 j with | .next b => some b | _ => none) =
      [some 0x66#8, some 0x0F#8, some 0x58#8, some 0xC1#8] := by decide +kernel
  have g : ∀ j (b : Byte), (match fetchByte r165 j with | .next b => some b | _ => none) = some b →
      fetchByte r165 j = .next b := by
    intro j b hb; split at hb <;> simp_all
  simp only [show List.range 4 = [0, 1, 2, 3] from rfl, List.map_cons, List.cons.injEq] at h
  exact ⟨g 0 _ h.1, g 1 _ h.2.1, g 2 _ h.2.2.1, g 3 _ h.2.2.2.1⟩

theorem witness_InstructionInMemoryRuns : premises r165 = none ∧ r165.rip ≠ r165.cfg.endRip ∧
    (Instr.addpdSse noPrefix 0#3 (.reg 1#3)).wf r165.mode = true ∧
    ∀ j, j < (Instr.addpdSse noPrefix 0#3 (.reg 1#3)).length →
      Fetchable r165 j ((encode (Instr.addpdSse noPrefix 0#3 (.reg 1#3))).getD j 0#8) := by
  refine ⟨by decide +kernel, by decide +kernel, by decide +kernel, ?_⟩
  intro j hj
  have h4 : j < 4 := hj
  obtain ⟨h0, h1, h2, h3⟩ := r165_fetchable
  interval_cases j
  · exact h0
  · exact h1
  · exact h2
  · exact h3

/-- A 32-bit mode whose code segment ends before `RIP`. -/
def code32 : State :=
  { ready with mode := .mode32, cfg := { ready.cfg with segDenied := [⟨.cs, 0x1000#64, 0xFFFFFFFF#64, 1, 64⟩] } }

/-- 20_memory.md R62, R70: the segment check applies to fetch. -/
theorem test_fetch_beyond_code_segment : faulted (step code32) = some (.generalProtection code32) := by decide +kernel

/-- The first byte at the lowest non-canonical address, refused by the translation, and outside the code segment. -/
theorem witness_FetchFaultsComeFirst :
    (let s : State := { ready with rip := 0x800000000000#64 }
     premises s = none ∧ s.rip ≠ s.cfg.endRip ∧ iSse.wf s.mode = true ∧ 0 < iSse.length ∧ FetchInRange s 0 ∧
       s.mode = .mode64 ∧ canonical s.cfg.vabits (fetchAddr s 0) = false) ∧
    (let s : State := { ready with cfg := { ready.cfg with pageFaults := [⟨0x1000#64, 0x1FFF#64, .fetch, 0#2, 16#32⟩] } }
     premises s = none ∧ s.rip ≠ s.cfg.endRip ∧ iSse.wf s.mode = true ∧ FetchInRange s 0 ∧
       s.mode = .mode64 ∧ canonical s.cfg.vabits (fetchAddr s 0) = true ∧
       translate s.cfg (fetchAddr s 0) .fetch s.cpl = some 16#32) ∧
    (let s : State := code32
     premises s = none ∧ s.rip ≠ s.cfg.endRip ∧ iSse.wf s.mode = true ∧ FetchInRange s 0 ∧ s.mode = .mode32 ∧
       segCheck s.cfg .cs (s.rip + BitVec.ofNat 64 0) 1 = false) := by
  unfold FetchInRange
  decide +kernel

theorem ready_inv : Inv ready := by
  refine ⟨by decide +kernel, by decide +kernel, ?_, by decide +kernel, by decide +kernel⟩
  intro n i _
  simp [State.vec, ready, launch, State.reset]

/-- The invariant and a next state together: at `END`, and for the worked example of R165. -/
theorem witness_StepKeepsInv : Inv { ready with cfg := { ready.cfg with endRip := 0x1000#64 } } ∧
    ∃ t, step { ready with cfg := { ready.cfg with endRip := 0x1000#64 } } = .next t :=
  ⟨ready_inv, next_of_after (p := fun _ => true) (by decide +kernel)⟩

theorem witness_RunKeepsEverythingElse : ∃ t, runSteps 1 r165 = .next t :=
  next_of_after (p := fun _ => true) (by decide +kernel)

theorem witness_AddpdCompletes :
    (∀ i ∈ [iSse, iSseRex], Enabled .sse withRax ∧ SourceReady withRax true (secondSource withRax i) [true, true] ∧
      NoneUnmasked (condsOf (sumOf withRax i) [true, true]) withRax ∧
      ripOk withRax (withRax.rip.toNat + i.length) = true) := by
  intro i hi
  have h : ∀ i ∈ [iSse, iSseRex], (premises withRax == none && !disabled .sse withRax && !withRax.ts) = true ∧
      sourceReadyB withRax true (secondSource withRax i) [true, true] = true ∧
      ((condsOf (sumOf withRax i) [true, true]).unmasked withRax).any = false ∧
      ripOk withRax (withRax.rip.toNat + i.length) = true := by decide +kernel
  obtain ⟨h1, h2, h3, h4⟩ := h i hi
  exact ⟨enabled_of h1, sourceReady_of h2, h3, h4⟩

theorem witness_VaddpdVex128Completes :
    (∀ i ∈ [iVexC5, iVexC4], Enabled .vex withRax ∧ SourceReady withRax false (secondSource withRax i) [true, true] ∧
      NoneUnmasked (condsOf (sumOf withRax i) [true, true]) withRax ∧
      ripOk withRax (withRax.rip.toNat + i.length) = true) := by
  intro i hi
  have h : ∀ i ∈ [iVexC5, iVexC4], (premises withRax == none && !disabled .vex withRax && !withRax.ts) = true ∧
      sourceReadyB withRax false (secondSource withRax i) [true, true] = true ∧
      ((condsOf (sumOf withRax i) [true, true]).unmasked withRax).any = false ∧
      ripOk withRax (withRax.rip.toNat + i.length) = true := by decide +kernel
  obtain ⟨h1, h2, h3, h4⟩ := h i hi
  exact ⟨enabled_of h1, sourceReady_of h2, h3, h4⟩

theorem witness_VaddpdVex256Completes :
    (∀ i ∈ [iVex256C5, iVex256C4], Enabled .vex withRax ∧
      SourceReady withRax false (secondSource withRax i) [true, true, true, true] ∧
      NoneUnmasked (condsOf (sumOf withRax i) [true, true, true, true]) withRax ∧
      ripOk withRax (withRax.rip.toNat + i.length) = true) := by
  intro i hi
  have h : ∀ i ∈ [iVex256C5, iVex256C4], (premises withRax == none && !disabled .vex withRax && !withRax.ts) = true ∧
      sourceReadyB withRax false (secondSource withRax i) [true, true, true, true] = true ∧
      ((condsOf (sumOf withRax i) [true, true, true, true]).unmasked withRax).any = false ∧
      ripOk withRax (withRax.rip.toNat + i.length) = true := by decide +kernel
  obtain ⟨h1, h2, h3, h4⟩ := h i hi
  exact ⟨enabled_of h1, sourceReady_of h2, h3, h4⟩

/-- For the three completion statements of the EVEX forms, with a broadcast memory operand. -/
theorem witness_EvexCompletes :
    (∀ i ∈ [iEvex128, iEvex256, iEvex512], Enabled (enableClass i) withRax ∧
      SourceReady withRax false (secondSource withRax i) (activity withRax i) ∧
      NoneUnmasked (condsOf (sumOf withRax i) (activity withRax i)) withRax ∧
      ripOk withRax (withRax.rip.toNat + i.length) = true) := by
  intro i hi
  have h : ∀ i ∈ [iEvex128, iEvex256, iEvex512],
      (premises withRax == none && !disabled (enableClass i) withRax && !withRax.ts) = true ∧
      sourceReadyB withRax false (secondSource withRax i) (activity withRax i) = true ∧
      ((condsOf (sumOf withRax i) (activity withRax i)).unmasked withRax).any = false ∧
      ripOk withRax (withRax.rip.toNat + i.length) = true := by decide +kernel
  obtain ⟨h1, h2, h3, h4⟩ := h i hi
  exact ⟨enabled_of h1, sourceReady_of h2, h3, h4⟩

/-- For the completion statement of embedded rounding and `EmbeddedRoundingSuppresses`, with lane 0 active. -/
theorem witness_VaddpdEvex512ErCompletes : Enabled .evex512 ready ∧ ripOk ready (ready.rip.toNat + iEr.length) = true ∧
    Active ready lowE.aaa 0 = true :=
  ⟨enabled_of (by decide +kernel), by decide +kernel, by decide +kernel⟩

/-- Every instruction answers a next state on a small state: the hypothesis of the frame statements, of `FlagsAreSticky` and
of the second part of `TinySumsAreExact` and of `DivideByZeroNeverArises` (`withRax` masks underflow and has FTZ off). -/
theorem witness_frames : (∀ i ∈ allInstrs, ∃ t, exec i withRax = .next t) ∧ withRax.mxcsr.getLsbD 11 = true ∧
    withRax.mxcsr.getLsbD 15 = false := by
  refine ⟨fun i hi => ?_, by decide +kernel, by decide +kernel⟩
  have h : ∀ i ∈ allInstrs, after (exec i withRax) (fun _ => true) = true := by decide +kernel
  exact next_of_after (h i hi)

theorem witness_OnlyTheWritemaskBitsAreRead :
    let i : Instr := .vaddpdEvex128 noPrefix { lowE with aaa := 7#3 } false 0#3 (.reg 0#3)
    writemask i ≠ 0#3 ∧ ∀ j, j < laneCount i →
      (State.kreg { ready with k := ready.k.set 7 0xFFFFFFFFFFFFFFFC#64 } (writemask i)).getLsbD j =
        (ready.kreg (writemask i)).getLsbD j := by
  decide +kernel

theorem witness_MaskedOffLanesDoNotMatter :
    let i : Instr := .vaddpdEvex128 noPrefix { lowE with aaa := 7#3 } false 0#3 (.reg 2#3)
    let s : State := { ready with k := ready.k.set 7 1#64 }
    2#5 ≠ destination i ∧ ∀ j, j < laneCount i → Active s (writemask i) j = true →
      lane (lanes 0 [0#64, ones, ones]) j = lane (s.vec 2#5) j := by
  decide +kernel

theorem witness_DisabledIsUndefined : premises { ready with cr4 := 0#32 } = none ∧
    (State.cr4 { ready with cr4 := 0#32 }).getLsbD 9 = false ∧ (State.cr4 { ready with cr4 := 0#32 }).getLsbD 18 = false ∧
    premises { ready with cr0 := 0x80000005#32 } = none ∧ (State.cr0 { ready with cr0 := 0x80000005#32 }).getLsbD 2 = true ∧
    premises { ready with xcr0 := 0x67#8 } = none ∧
    (State.xcr0 { ready with xcr0 := 0x67#8 }).extractLsb' 5 3 ≠ 7#3 := by decide +kernel

theorem witness_TaskSwitchedIsDeviceNotAvailable :
    let s : State := { ready with cr0 := 0x80000009#32 }
    let u : State := { ready with cr0 := 0x8000000D#32 }
    premises s = none ∧ (∀ i ∈ allInstrs, disabled (enableClass i) s = false) ∧ s.cr0.getLsbD 3 = true ∧
    premises u = none ∧ isLegacy iSse = true ∧ u.cr0.getLsbD 2 = true ∧ u.cr0.getLsbD 3 = true := by decide +kernel

/-- 64-bit mode with the address `a` in RAX and RBP, and `ADDPD xmm0` of the operand at it in the data or, through RBP, in the
stack segment. -/
def addressed (a : Addr) : State := { ready with gpr := (ready.gpr.set 0 a).set 5 a }
def addpdIn (seg : Seg) : Instr :=
  if seg = .ss then .addpdSse noPrefix 0#3 (.mem (.base 5#3 (.disp8 0#8))) else .addpdSse noPrefix 0#3 memRax

/-- The address one below and one above a multiple of 16, in the stack segment and in another. -/
theorem witness_MisalignedAddpdFaults :
    let holds := fun (a : Addr) (seg : Seg) =>
      let s : State := addressed a
      let i : Instr := addpdIn seg
      isLegacy i && secondSource s i == .mem seg seg a false && premises s == none && !disabled .sse s && !s.ts &&
      !crosses4G s a (List.range 16) && segmentOk s seg a (List.range 16) && (linear s seg a 0).toNat % 16 != 0
    holds 0x1FFF#64 .ss = true ∧ holds 0x2001#64 .ss = true ∧ holds 0x1FFF#64 .ds = true ∧ holds 0x2001#64 .ds = true := by
  decide +kernel

/-- The first address whose last byte is not canonical, in another segment, in the stack segment with an aligned operand, and
in the stack segment with a misaligned one. -/
theorem witness_SegmentCheckFaults :
    let holds := fun (a : Addr) (seg : Seg) (aligned : Bool) =>
      let s : State := addressed a
      let i : Instr := addpdIn seg
      secondSource s i == .mem seg seg a false && premises s == none && !disabled .sse s && !s.ts &&
      !crosses4G s a (offsets false (activity s i) true) && !segmentOk s seg a (offsets false (activity s i) true) &&
      aligned16 s seg a == aligned
    holds 0x7FFFFFFFFFF1#64 .ds false = true ∧ holds 0x800000000000#64 .ss true = true ∧
    holds 0x7FFFFFFFFFF1#64 .ss false = true := by
  decide +kernel

/-- 20_memory.md R61: the segment that an override names, and the one of the form without it, at a non-canonical address; an SS
override moves the operand into SS, a DS override out of it, and FS is no matter of dispute. -/
theorem witness_contested_override :
    let s := addressed 0x800000000000#64
    let moved := fun (seg dflt : Seg) => secondSource s (withPrefixes ⟨some seg, false⟩ (addpdIn dflt)) ==
      .mem seg dflt 0x800000000000#64 false && overrideContested s seg dflt == (seg != .fs) &&
      !segmentOk s seg 0x800000000000#64 (List.range 16)
    moved .ss .ds = true ∧ moved .ds .ss = true ∧ moved .fs .ss = true := by decide +kernel

/-- 60_exceptions.md R204: with an FS override a non-canonical operand at `[rbp]` is #GP(0). -/
theorem test_fs_override_is_gp : let s := addressed 0x800000000000#64
    faulted (exec (withPrefixes ⟨some .fs, false⟩ (addpdIn .ss)) s) = some (.generalProtection s) := by decide +kernel

/-- A register operand in 32-bit mode, and a memory operand in 64-bit mode, with prefixes of one length and of two. -/
theorem witness_IgnoredPrefixes :
    let r : Instr := .addpdSse noPrefix 0#3 (.reg 1#3)
    r.operand.isMem = false ∧ withRax.mode = .mode64 ∧ iVexC5.operand = memRax ∧
    (after (exec (withPrefixes ⟨some .fs, true⟩ r) { ready with mode := .mode32 }) (fun _ => true) &&
      after (exec (withPrefixes ⟨none, false⟩ r) { ready with mode := .mode32 }) (fun _ => true) &&
      after (exec (withPrefixes ⟨some .ss, false⟩ iVexC5) withRax) (fun _ => true) &&
      after (exec (withPrefixes ⟨some .cs, false⟩ iVexC5) withRax) (fun _ => true) &&
      after (exec (withPrefixes ⟨none, false⟩ iVexC5) withRax) (fun _ => true)) = true := by decide +kernel

/-- A 32-bit mode whose segment check refuses the access to 16 bytes at `0x2000` and admits the one to 8 bytes. -/
def seg32 : State :=
  { withRax with mode := .mode32, cfg := { withRax.cfg with segDenied := [⟨.ds, 0x2000#64, 0x2000#64, 16, 64⟩] } }

/-- 20_memory.md R62, R66: the check is of the access as a whole. -/
theorem test_segCheck_whole_access : faulted (exec iVexC5 seg32) = some (.generalProtection seg32) ∧
    after (exec iEvex128 seg32) (fun _ => true) = true := by decide +kernel

theorem witness_SegmentCheckFaults_mode32 : seg32.mode = .mode32 ∧ writemask iVexC5 = 0#3 ∧
    (premises seg32 == none && !disabled .vex seg32 && !seg32.ts) = true ∧
    secondSource seg32 iVexC5 = .mem .ds .ds 0x2000#64 false ∧
    crosses4G seg32 0x2000#64 (offsets false (activity seg32 iVexC5) true) = false ∧
    segmentOk seg32 .ds 0x2000#64 (offsets false (activity seg32 iVexC5) true) = false := by decide +kernel

/-- A page refused from the ninth byte of the operand on. -/
theorem witness_OperandPageFaults :
    let s : State := { withRax with cfg := { ready.cfg with pageFaults := [⟨0x2008#64, 0x2FFF#64, .dataRead, 0#2, 0#32⟩] } }
    let offs := offsets false (activity s iVexC5) true
    secondSource s iVexC5 = .mem .ds .ds 0x2000#64 false ∧ (premises s == none && !disabled .vex s && !s.ts) = true ∧
    crosses4G s 0x2000#64 offs = false ∧ segmentOk s .ds 0x2000#64 offs = true ∧ isLegacy iVexC5 = false ∧ 8 ∈ offs ∧
    translate s.cfg (linear s .ds 0x2000#64 8) .dataRead s.cpl = some 0#32 ∧
    translate s.cfg (linear s .ds 0x2000#64 7) .dataRead s.cpl = none := by decide +kernel

/-- All lanes masked off, at a non-canonical address; and the same without fault suppression. -/
theorem witness_AllMaskedOff :
    let i : Instr := .vaddpdEvex512 noPrefix { lowE with aaa := 1#3 } false 0#3 memRax
    let s : State := { ready with gpr := ready.gpr.set 0 0x800000000000#64 }
    let u : State := { s with cfg := { ready.cfg with faultSuppression := false } }
    (premises s == none && !disabled .evex512 s && !s.ts) = true ∧
    (∀ j, j < laneCount i → Active s (writemask i) j = false) ∧ ripOk s (s.rip.toNat + i.length) = true ∧
    s.cfg.faultSuppression = true ∧ (premises u == none && !disabled .evex512 u && !u.ts) = true ∧
    (∀ j, j < laneCount i → Active u (writemask i) j = false) ∧ ripOk u (u.rip.toNat + i.length) = true ∧
    u.cfg.faultSuppression = false ∧ secondSource u i = .mem .ds .ds 0x800000000000#64 false ∧
    accessible u .ds 0x800000000000#64 (offsets false (activity u i) false) = false := by decide +kernel

/-- Opposite infinities with I unmasked (stage 1), and an inexact sum with P unmasked (stage 2). -/
theorem witness_UnmaskedConditionsFault :
    let i : Instr := .vaddpdVex128C5 noPrefix ⟨false, 1#4⟩ 0#3 (.reg 2#3)
    let s : State := ({ ready with mxcsr := 0x1F00#32 }.setVec 1#5 (lanes 0 [posInf])).setVec 2#5 (lanes 0 [negInf])
    let u : State := ({ ready with mxcsr := 0x0F80#32 }.setVec 1#5 (lanes 0 [ones])).setVec 2#5
      (lanes 0 [0x3CA0000000000000#64])
    embeddedRounding i = none ∧ (premises s == none && !disabled .vex s && !s.ts) = true ∧
    ((preOf (sumOf s i) (activity s i)).unmasked s).any = true ∧
    (premises u == none && !disabled .vex u && !u.ts) = true ∧
    ((preOf (sumOf u i) (activity u i)).unmasked u).any = false ∧
    ((postOf (sumOf u i) (activity u i)).unmasked u).any = true := by decide +kernel

/-- Which exception a step takes. -/
def faultedAs (v : Nat) (o : Host.Outcome State Fault Refusal) : Bool :=
  match o with
  | .fault f => faultVector f == v
  | _ => false

theorem fault_of_faultedAs {v : Nat} {o : Host.Outcome State Fault Refusal} (h : faultedAs v o = true) :
    ∃ f, o = .fault f ∧ faultVector f = v := by
  cases o with
  | next t => cases h
  | fault f => exact ⟨f, rfl, by simpa [faultedAs] using h⟩
  | refused r => cases h

/-- `VADDPD xmm0, xmm1, xmm2` on opposite infinities with I unmasked. -/
def invalidSum : State :=
  withBytes ((({ ready with mxcsr := 0x1F00#32 } : State).setVec 1#5 (lanes 0 [posInf])).setVec 2#5 (lanes 0 [negInf]))
    [0xC5#8, 0xF1#8, 0x58#8, 0xC2#8]

/-- A fetch fault, a decode-time #UD with CR4.OSXMMEXCPT = 0, an unmasked condition as #UD and, with CR4.OSXMMEXCPT = 1, as
#XM. -/
theorem witness_FaultsArePrecise :
    (∃ f, step { ready with rip := 0x800000000000#64 } = .fault f ∧ faultVector f = 13) ∧
    (∃ f, step (withBytes ready [0xF0#8, 0x66#8, 0x0F#8, 0x58#8, 0xC1#8]) = .fault f ∧ faultVector f = 6) ∧
    (∃ f, step invalidSum = .fault f ∧ faultVector f = 6) ∧
    (∃ f, step { invalidSum with cr4 := invalidSum.cr4 ||| 0x400#32 } = .fault f ∧ faultVector f = 19) :=
  ⟨fault_of_faultedAs (by decide +kernel), fault_of_faultedAs (by decide +kernel), fault_of_faultedAs (by decide +kernel),
    fault_of_faultedAs (by decide +kernel)⟩

theorem witness_PageFaultCodes :
    let s : State := { ready with cfg := { ready.cfg with pageFaults := [⟨0x1000#64, 0x1FFF#64, .fetch, 0#2, 16#32⟩] } }
    s.cfg.wf = true ∧ faulted (step s) = some (.pageFault 16#32 0x1000#64 { s with cr2 := 0x1000#64 }) := by
  decide +kernel

theorem witness_PrivilegeDoesNotMatter : ready.cfg.pageFaults = [] ∧ (ready.am && ready.ac) = false := by decide +kernel

/-- The last canonical `RIP` below the hole: the next is not canonical. -/
theorem witness_UnrepresentableRipIsRefused :
    let i : Instr := .addpdSse noPrefix 0#3 (.reg 1#3)
    let s : State := { ready with rip := 0x7FFFFFFFFFFC#64 }
    (premises s == none && !disabled .sse s && !s.ts) = true ∧ secondSource s i = .reg 1#5 ∧
    ((condsOf (sumOf s i) (activity s i)).unmasked s).any = false ∧ ripOk s (s.rip.toNat + i.length) = false := by
  decide +kernel

theorem witness_LegacyAndVexDifferOnlyAbove128 :
    (∃ t, exec (.addpdSse noPrefix 3#3 (.reg 1#3)) ready = .next t) ∧
    (∃ u, exec (.vaddpdVex128C5 noPrefix ⟨false, 0#1 ++ 3#3⟩ 3#3 (.reg 1#3)) ready = .next u) ∧
    (∃ t, exec (.addpdSseRex noPrefix ⟨false, true, false, false⟩ 7#3 memRax) withRax = .next t) ∧
    ∃ u, exec (.vaddpdVex128C4 noPrefix ⟨true, false, false, true, bit1 true ++ 7#3⟩ 7#3 memRax) withRax = .next u :=
  ⟨next_of_after (p := fun _ => true) (by decide +kernel), next_of_after (p := fun _ => true) (by decide +kernel),
    next_of_after (p := fun _ => true) (by decide +kernel), next_of_after (p := fun _ => true) (by decide +kernel)⟩

/-- A register, and one memory operand spelled with a scaled 8-bit displacement and with a 32-bit one. -/
theorem witness_UnmaskedEvexIsVex :
    let v : Vex3 := ⟨false, false, false, true, 1#4⟩
    let m := fun d => RmOperand.mem (.base 0#3 d)
    (∀ q ∈ [(RmOperand.reg 1#3, RmOperand.reg 1#3), (m (.disp8 1#8), m (.disp32 16#32))],
      secondSource withRax (.vaddpdEvex128 noPrefix lowE false 0#3 q.1) =
        secondSource withRax (.vaddpdVex128C4 noPrefix v 0#3 q.2) ∧
      (after (exec (.vaddpdEvex128 noPrefix lowE false 0#3 q.1) withRax) (fun _ => true) &&
        after (exec (.vaddpdVex128C4 noPrefix v 0#3 q.2) withRax) (fun _ => true)) = true) ∧
    ∀ q ∈ [(RmOperand.reg 1#3, RmOperand.reg 1#3), (m (.disp8 1#8), m (.disp32 32#32))],
      secondSource withRax (.vaddpdEvex256 noPrefix lowE false 0#3 q.1) =
        secondSource withRax (.vaddpdVex256C4 noPrefix v 0#3 q.2) ∧
      (after (exec (.vaddpdEvex256 noPrefix lowE false 0#3 q.1) withRax) (fun _ => true) &&
        after (exec (.vaddpdVex256C4 noPrefix v 0#3 q.2) withRax) (fun _ => true)) = true := by
  decide +kernel

theorem witness_WorkedExampleAddpd : r165.mode = .mode64 ∧ premises r165 = none ∧ r165.rip ≠ r165.cfg.endRip ∧
    disabled .sse r165 = false ∧ r165.ts = false ∧ r165.rip = 0x1000#64 ∧ r165.mxcsr = 0x1F80#32 ∧
    (Fetchable r165 0 0x66#8 ∧ Fetchable r165 1 0x0F#8 ∧ Fetchable r165 2 0x58#8 ∧ Fetchable r165 3 0xC1#8) ∧
    (r165.vec 0#5).extractLsb' 0 128 = 0x40000000000000003FF0000000000000#128 ∧
    (r165.vec 1#5).extractLsb' 0 128 = 0x3FD00000000000003FE0000000000000#128 :=
  ⟨by decide +kernel, by decide +kernel, by decide +kernel, by decide +kernel, by decide +kernel, by decide +kernel,
    by decide +kernel, r165_fetchable, by decide +kernel, by decide +kernel⟩

/-! Operands of the statements about the addition of one lane. -/

theorem witness_NanOperands : isNaN 0x7FF4000000000456#64 = true ∧ isNaN 0x7FF8000000000123#64 = true ∧
    isNaN ones = false := by decide +kernel
theorem witness_InfinityOperands : isNaN posInf = false ∧ isInf posInf = true ∧ isInf negInf = true ∧
    sign posInf ≠ sign negInf ∧ isInf ones = false ∧ isNaN ones = false := by decide +kernel
/-- Both clauses: two zeros of one sign, and a number and its negative. -/
theorem witness_ZeroSums : isFinite 0#64 = true ∧ value 0#64 + value 0#64 = 0 ∧ isZero 0#64 = true ∧
    isFinite ones = true ∧ isFinite 0xBFF0000000000000#64 = true ∧ value ones + value 0xBFF0000000000000#64 = 0 ∧
    isZero ones = false := by decide +kernel
/-- A tie, in every rounding mode. -/
theorem witness_RoundingIsCorrect : ∀ rm ∈ [Rounding.rn, .rd, .ru, .rz], isFinite ones = true ∧
    isFinite 0x3CA0000000000000#64 = true ∧ value ones + value 0x3CA0000000000000#64 ≠ 0 ∧
    (fadd64 ones 0x3CA0000000000000#64 rm false false true).post.o = false := by decide +kernel
/-- The first sum that overflows under RN. -/
theorem witness_OverflowResults : isFinite maxf = true ∧ isFinite 0x7C90000000000000#64 = true ∧
    value maxf + value 0x7C90000000000000#64 ≠ 0 ∧
    (fadd64 maxf 0x7C90000000000000#64 .rn false false true).post.o = true := by decide +kernel
/-- The largest tiny sum and the smallest that is not tiny. -/
theorem witness_TinyResults : isFinite 0x000FFFFFFFFFFFFF#64 = true ∧
    value 0x000FFFFFFFFFFFFF#64 + value 0#64 ≠ 0 ∧
    (round53 false (value 0x000FFFFFFFFFFFFF#64 + value 0#64).natAbs .rn).1 < minnUnits ∧
    value 0x000FFFFFFFFFFFFF#64 + value 1#64 ≠ 0 ∧
    ¬ (round53 false (value 0x000FFFFFFFFFFFFF#64 + value 1#64).natAbs .rn).1 < minnUnits := by decide +kernel
theorem witness_PrecisionMeansInexact : isFinite ones = true ∧ isFinite posInf = false := by decide +kernel
theorem witness_AdditionCommutes : isNaN ones = false ∧ isNaN 1#64 = false ∧ isDenormal 1#64 = true ∧
    isDenormal ones = false := by decide +kernel
/-- The third part: an unmasked invalid operation, with underflow masked and FTZ off. -/
theorem witness_TinySumsAreExact_fault : invalidSum.mxcsr.getLsbD 11 = true ∧ invalidSum.mxcsr.getLsbD 15 = false ∧
    ∃ f, exec (.vaddpdVex128C5 noPrefix ⟨false, 1#4⟩ 0#3 (.reg 2#3)) invalidSum = .fault f ∧ faultVector f = 6 :=
  ⟨by decide +kernel, by decide +kernel, fault_of_faultedAs (by decide +kernel)⟩
theorem witness_TinySumsAreExact : (1 : Nat) ≠ 0 ∧ 2 ^ 52 - 1 < minnUnits ∧ minnUnits ≤ 2 ^ 52 := by decide +kernel
theorem witness_MemoryIsLittleEndian : ready.mode = .mode64 ∧
    (let s : State := { ready with mode := .mode32 }
     (linear s .ds 0xFFFFFFF8#64 0).toNat + 7 < 2 ^ 32) ∧
    readDisp32 [0x78#8, 0x56#8, 0x34#8, 0x12#8] = some (0x12345678#32, []) := by decide +kernel
theorem witness_Addresses : ready.mode = .mode64 ∧ (State.mode { ready with mode := .mode32 }) = .mode32 := by
  decide +kernel

end Sys2Proof.Tests
end

section
/-! What the decoder answers is well-formed: one lemma for each stage of 30_encoding.md R116, from the operand bytes outwards. -/

namespace Sys2Proof

/-! The operand. -/

/-- `mod = 00` selects no displacement; the other two values of a memory operand select one. -/
theorem readDisp_eq_none {mod : BitVec 2} {bs rest : List Byte} (h : readDisp mod bs = some (.none, rest)) :
    mod = 0#2 := by
  unfold readDisp at h
  split at h
  · assumption
  · split at h
    · cases bs <;> simp at h
    · simp at h

/-- With a SIB byte, `base = 101` and no displacement is never read: `mod = 00` then reads four bytes (30_encoding.md R93). -/
theorem readSib_wf {mod : BitVec 2} {sib : Byte} {bs rest : List Byte} {m : MemOperand}
    (h : readSib mod sib bs = some (m, rest)) : m.wf = true := by
  unfold readSib at h
  split at h
  · obtain ⟨d, _, he⟩ := Option.map_eq_some_iff.mp h
    cases he; rfl
  · rename_i hbase
    obtain ⟨⟨disp, rest'⟩, hd, he⟩ := Option.map_eq_some_iff.mp h
    cases he
    have : disp = .none → fieldLo sib ≠ 5#3 := by
      rintro rfl h5
      exact hbase ⟨readDisp_eq_none hd, h5⟩
    simp only [MemOperand.wf, Bool.or_eq_true, bne_iff_ne]
    exact or_iff_not_imp_left.mpr fun hn => this (not_not.mp hn)

/-- An operand that is read is one that ModRM and SIB can spell, and it is a register exactly when `mod = 11`
(30_encoding.md R91 to R93). -/
theorem readOperand_eq_some {modrm : Byte} {bs rest : List Byte} {rm : RmOperand}
    (h : readOperand modrm bs = some (rm, rest)) : rm.wf = true ∧ (fieldHi modrm = 3#2 ↔ rm.isMem = false) := by
  unfold readOperand at h
  split at h
  · rename_i hreg
    cases h
    exact ⟨rfl, iff_of_true hreg rfl⟩
  · rename_i hmem
    suffices ∃ m : MemOperand, rm = .mem m ∧ m.wf = true by
      obtain ⟨m, rfl, hm⟩ := this
      exact ⟨hm, iff_of_false hmem Bool.noConfusion⟩
    split at h
    · cases bs with
      | nil => cases h
      | cons sib bs =>
        obtain ⟨⟨m, rest'⟩, hs, he⟩ := Option.map_eq_some_iff.mp h
        cases he
        exact ⟨m, rfl, readSib_wf hs⟩
    · rename_i hsib
      split at h
      · obtain ⟨d, _, he⟩ := Option.map_eq_some_iff.mp h
        cases he
        exact ⟨_, rfl, rfl⟩
      · rename_i hdisp
        obtain ⟨⟨disp, rest'⟩, hd, he⟩ := Option.map_eq_some_iff.mp h
        cases he
        refine ⟨_, rfl, ?_⟩
        have : disp = .none → fieldLo modrm ≠ 5#3 := by
          rintro rfl h5
          exact hdisp ⟨readDisp_eq_none hd, h5⟩
        simp only [MemOperand.wf, Bool.and_eq_true, Bool.or_eq_true, bne_iff_ne]
        exact ⟨hsib, or_iff_not_imp_left.mpr fun hn => this (not_not.mp hn)⟩

theorem Prefixes.sizeOk_iff {p : Prefixes} {mode : Mode} {isMem : Bool} :
    p.sizeOk mode isMem = true ↔ ¬ (mode = .mode32 ∧ p.a67 = true ∧ isMem = true) := by
  simp [Prefixes.sizeOk, ← and_assoc, imp_iff_not_or]

/-! The common end of the prefix schemes. -/

/-- An instruction read from ModRM on: nothing makes it #UD, its operand is well-formed and no `67` in 32-bit mode stands
before a memory operand. -/
theorem finish_eq_ok {mode : Mode} {total n : Nat} {a67 ill : Bool} {bad : Byte → Bool}
    {mk : BitVec 3 → RmOperand → Instr} {bs : List Byte} {i : Instr}
    (h : finish mode total a67 ill bad mk bs = .ok i n) :
    ∃ modrm rest rm rest', bs = modrm :: rest ∧ readOperand modrm rest = some (rm, rest') ∧
      ¬ (mode = .mode32 ∧ a67 = true ∧ rm.isMem = true) ∧ ill = false ∧ bad modrm = false ∧
      i = mk (fieldMid modrm) rm ∧ n = total - rest'.length := by
  cases bs with
  | nil => cases h
  | cons modrm rest =>
    rw [finish] at h
    split at h
    · split at h <;> cases h
    · rename_i hsize
      cases hr : readOperand modrm rest with
      | none => rw [hr] at h; cases h
      | some q =>
        obtain ⟨rm, rest'⟩ := q
        simp only [hr] at h
        split at h
        · cases h
        · rename_i hlegal
          obtain ⟨rfl, rfl⟩ := Decoded.ok.inj h
          obtain ⟨hill, hbad⟩ := Bool.or_eq_false_iff.mp (Bool.eq_false_iff.mpr hlegal)
          have hmod := (readOperand_eq_some hr).2
          refine ⟨modrm, rest, rm, rest', rfl, hr, ?_, hill, hbad, rfl, rfl⟩
          rintro ⟨hm, ha, hmem⟩
          exact hsize ⟨hm, ha, fun h3 => by simp [hmod.mp h3] at hmem⟩

theorem selectForm_eq_ok {ill mismatch restricted : Bool} {k : Decoded} {i : Instr} {n : Nat}
    (h : selectForm ill mismatch restricted k = .ok i n) :
    mismatch = false ∧ (restricted && !ill) = false ∧ k = .ok i n := by
  unfold selectForm at h
  split at h
  · split at h <;> cases h
  · rename_i hm
    split at h
    · cases h
    · rename_i hr
      exact ⟨Bool.eq_false_iff.mpr hm, Bool.eq_false_iff.mpr hr, h⟩

/-- Both together: what every prefix scheme knows of an instruction it answers. -/
theorem selectForm_finish_eq_ok {mode : Mode} {a : PrefixScan} {total n : Nat} {ill mismatch restricted : Bool}
    {bad : Byte → Bool} {mk : BitVec 3 → RmOperand → Instr} {bs : List Byte} {i : Instr}
    (h : selectForm ill mismatch restricted (finish mode total a.a67 ill bad mk bs) = .ok i n) :
    restricted = false ∧ ∃ modrm rm, i = mk (fieldMid modrm) rm ∧ bad modrm = false ∧ rm.wf = true ∧
      (fieldHi modrm = 3#2 ↔ rm.isMem = false) ∧ a.prefixes.sizeOk mode rm.isMem = true := by
  obtain ⟨-, hres, hfin⟩ := selectForm_eq_ok h
  obtain ⟨modrm, rest, rm, rest', -, hread, hsize, hill, hbad, hi, -⟩ := finish_eq_ok hfin
  obtain ⟨hwf, hmod⟩ := readOperand_eq_some hread
  exact ⟨by simpa [hill] using hres, modrm, rm, hi, hbad, hwf, hmod, Prefixes.sizeOk_iff.mpr hsize⟩

theorem Mode.admits_of_unrestricted {mode : Mode} {low : Bool} (hm : mode = .mode64 ∨ mode = .mode32)
    (h : (mode == .mode32 && !low) = false) : mode.admits low = true := by
  rcases hm with rfl | rfl
  · rfl
  · simpa [Mode.admits] using h

/-! The prefix schemes. -/

/-- REX stands in 64-bit mode only. -/
theorem decodeLegacy_wf {mode : Mode} (hm : mode = .mode64 ∨ mode = .mode32) {total n : Nat} {a : PrefixScan}
    {rex : Option Rex} (hrex : rex.isSome = true → mode = .mode64) {bs : List Byte} {i : Instr}
    (h : decodeLegacy mode total a rex bs = .ok i n) : i.wf mode = true := by
  unfold decodeLegacy at h
  split at h
  · cases h
  · split at h
    · cases h
    · obtain ⟨-, modrm, rm, rfl, -, hwf, -, hsize⟩ := selectForm_finish_eq_ok h
      cases rex with
      | none =>
        have hadm : mode.admits true = true := Mode.admits_of_unrestricted hm (by simp)
        simp [Instr.wf, hadm, hwf, hsize]
      | some r =>
        obtain rfl := hrex rfl
        simp [Instr.wf, hwf, Mode.admits]

theorem decodeVex2_wf {mode : Mode} (hm : mode = .mode64 ∨ mode = .mode32) {total n : Nat} {a : PrefixScan}
    {rex : Option Rex} {bs : List Byte} {i : Instr} (h : decodeVex2 mode total a rex bs = .ok i n) :
    i.wf mode = true := by
  unfold decodeVex2 at h
  split at h
  · rename_i v1 op rest
    obtain ⟨hres, modrm, rm, rfl, -, hwf, -, hsize⟩ := selectForm_finish_eq_ok h
    have hadm := Mode.admits_of_unrestricted hm hres
    split <;> simp [Instr.wf, hadm, hwf, hsize]
  · cases h

theorem decodeVex3_wf {mode : Mode} (hm : mode = .mode64 ∨ mode = .mode32) {total n : Nat} {a : PrefixScan}
    {rex : Option Rex} {bs : List Byte} {i : Instr} (h : decodeVex3 mode total a rex bs = .ok i n) :
    i.wf mode = true := by
  unfold decodeVex3 at h
  split at h
  · rename_i v1 v2 op rest
    obtain ⟨hres, modrm, rm, rfl, -, hwf, -, hsize⟩ := selectForm_finish_eq_ok h
    have hadm := Mode.admits_of_unrestricted hm hres
    split <;> simp [Instr.wf, hadm, hwf, hsize]
  · cases h

/-- Embedded rounding is the form of a register operand with `b = 1`, so `b = 1` is broadcast in the other forms
(30_encoding.md R109, R110). -/
theorem evexForm_wf {mode : Mode} {p : Prefixes} {e : Evex} {ll : BitVec 2} {b : Bool} {reg : BitVec 3} {rm : RmOperand}
    (hadm : mode.admits e.low = true) (hmask : e.maskOk = true) (hwf : rm.wf = true)
    (hsize : p.sizeOk mode rm.isMem = true) : (evexForm p e ll b reg rm).wf mode = true := by
  unfold evexForm
  split
  · simp [Instr.wf, hadm, hmask]
  · rename_i hne
    have hb : (!b || rm.isMem) = true := by
      cases rm with
      | mem m => simp [RmOperand.isMem]
      | reg r => simpa [RmOperand.isMem] using hne r rfl
    split
    · simp [Instr.wf, hadm, hmask, hb, hwf, hsize]
    · split <;> simp [Instr.wf, hadm, hmask, hb, hwf, hsize]

theorem decodeEvex_wf {mode : Mode} (hm : mode = .mode64 ∨ mode = .mode32) {total n : Nat} {a : PrefixScan}
    {rex : Option Rex} {bs : List Byte} {i : Instr} (h : decodeEvex mode total a rex bs = .ok i n) :
    i.wf mode = true := by
  unfold decodeEvex at h
  split at h
  · rename_i p0 p1 p2 op rest
    obtain ⟨hres, modrm, rm, rfl, hlegal, hwf, -, hsize⟩ := selectForm_finish_eq_ok h
    have hmask : (evexOf p0 p1 p2).maskOk = true := by simpa using (Bool.or_eq_false_iff.mp hlegal).2
    exact evexForm_wf (Mode.admits_of_unrestricted hm hres) hmask hwf hsize
  · cases h

/-! The whole decoder. -/

theorem decodeOpcode_wf {mode : Mode} (hm : mode = .mode64 ∨ mode = .mode32) {total n : Nat} {a : PrefixScan}
    {rex : Option Rex} (hrex : rex.isSome = true → mode = .mode64) {bs : List Byte} {i : Instr}
    (h : decodeOpcode mode total a rex bs = .ok i n) : i.wf mode = true := by
  cases bs with
  | nil => cases h
  | cons op rest =>
    rw [decodeOpcode] at h
    split at h
    · exact decodeLegacy_wf hm hrex h
    · split at h
      · split at h
        · cases h
        · cases h
        · split at h
          · exact decodeVex2_wf hm h
          · split at h
            · exact decodeVex3_wf hm h
            · exact decodeEvex_wf hm h
      · cases h

theorem decodeRex_wf {mode : Mode} (hm : mode = .mode64 ∨ mode = .mode32) {total n : Nat} {a : PrefixScan}
    {bs : List Byte} {i : Instr} (h : decodeRex mode total a bs = .ok i n) : i.wf mode = true := by
  unfold decodeRex at h
  split at h
  · cases h
  · split at h
    · rename_i hrex
      split at h
      · cases h
      · split at h
        · cases h
        · exact decodeOpcode_wf hm (fun _ => hrex.1) h
    · exact decodeOpcode_wf hm (fun hsome => Bool.noConfusion hsome) h

/-- An instruction that the decoder answers is one that some encoding spells in that mode. -/
theorem decode_wf {mode : Mode} {bs : List Byte} {i : Instr} {n : Nat} (h : decode mode bs = .ok i n) :
    i.wf mode = true := by
  unfold decode at h
  split at h
  · rename_i hm
    split at h
    · cases h
    · cases h
    · exact decodeRex_wf hm h
  · cases h

end Sys2Proof
end

section
/-! What a step answers for each answer of the fetch, and the machine after reset. -/

namespace Sys2Proof.Machine

/-! The fetched instruction, for each answer of the decoder. -/

theorem fetchInstr_of_decode_ok {s : State} {i : Instr} {n : Nat}
    (h : decode s.mode (fetchBytes s maxLength 0).1 = .ok i n) : fetchInstr s = .instr i := by
  rw [fetchInstr, h]

theorem fetchInstr_of_decode_ud {s : State} (h : decode s.mode (fetchBytes s maxLength 0).1 = .ud) :
    fetchInstr s = .stop (.fault (.invalidOpcode s)) := by
  rw [fetchInstr, h]; rfl

theorem fetchInstr_of_decode_refused {s : State} {r : DecodeRefusal}
    (h : decode s.mode (fetchBytes s maxLength 0).1 = .refused r) :
    fetchInstr s = .stop (.refused (decodeRefusal r)) := by
  rw [fetchInstr, h]

theorem fetchInstr_of_decode_short {s : State} (h : decode s.mode (fetchBytes s maxLength 0).1 = .short) :
    fetchInstr s = .stop (fetchBytes s maxLength 0).2 := by
  rw [fetchInstr, h]

/-! A step under the launch premises. -/

theorem step_of_endRip {s : State} (hp : premises s = none) (he : s.rip = s.cfg.endRip) : step s = .next s := by
  rw [step, hp]; exact if_pos he

theorem step_of_instr {s : State} {i : Instr} (hp : premises s = none) (he : s.rip ≠ s.cfg.endRip)
    (hf : fetchInstr s = .instr i) : step s = exec i s := by
  simp only [step, hp, if_neg he, hf]

theorem step_of_stop {s : State} {o : Host.Outcome State Fault Refusal} (hp : premises s = none)
    (he : s.rip ≠ s.cfg.endRip) (hf : fetchInstr s = .stop o) : step s = o := by
  simp only [step, hp, if_neg he, hf]

/-- Settles O8: each answer of the decoder fixes what the fetch answers, and with it the step. -/
theorem stepRunsDecodedInstruction : Obligations.StepRunsDecodedInstruction := by
  intro s hp
  refine ⟨step_of_endRip hp, fun i n he hd => ⟨decode_wf hd, ?decoded⟩, fun he hd => ?undefined, fun r he hd => ?refused,
    fun he hd => ?short⟩
  case decoded => exact step_of_instr hp he (fetchInstr_of_decode_ok hd)
  case undefined => exact step_of_stop hp he (fetchInstr_of_decode_ud hd)
  case refused => exact step_of_stop hp he (fetchInstr_of_decode_refused hd)
  case short => exact step_of_stop hp he (fetchInstr_of_decode_short hd)

/-! The machine after reset. -/

@[simp] theorem State.reset_vec (n : BitVec 5) : State.reset.vec n = 0#512 := by
  simp [State.vec, State.reset]

theorem reset_mxcsrOk : State.reset.mxcsrOk = true := by decide

/-- The reset vector lies below `2^32`, as real-address mode needs. -/
theorem reset_ripOk : ripOk State.reset State.reset.rip.toNat = true := by decide

theorem reset_cfg_wf : State.reset.cfg.wf = true := by decide

/-- Settles O13: memory lists nothing and every vector register is zero; the rest is read off the reset values. -/
theorem invAtReset : Obligations.InvAtReset := by
  have hvec (n : BitVec 5) (i : Nat) (_ : maxvl State.reset.cfg ≤ i) : (State.reset.vec n).getLsbD i = false := by simp
  exact ⟨reset_mem_wf, reset_mxcsrOk, hvec, reset_ripOk, reset_cfg_wf⟩

end Sys2Proof.Machine
end

section
/-! Every step keeps the invariant: the register widths the enable checks guarantee, and what a completed addition does to each
conjunct of `Inv`. -/

namespace Sys2Proof.Machine

/-! The bits an addition may write. -/

theorem laneCount_of_sse {i : Instr} (h : enableClass i = .sse) : laneCount i = 2 := by
  cases i <;> simp_all [enableClass, laneCount]

theorem laneCount_le_of_vex {i : Instr} (h : enableClass i = .vex) : laneCount i ≤ 4 := by
  cases i <;> simp_all [enableClass, laneCount]

theorem le_maxvl (c : Cfg) : 128 ≤ maxvl c := by
  unfold maxvl
  split
  · omega
  · split <;> omega

theorem le_maxvl_of_avx {c : Cfg} (h : c.avx = true) : 256 ≤ maxvl c := by
  unfold maxvl
  rw [if_pos h]
  split <;> omega

theorem maxvl_of_avx512f {c : Cfg} (h : c.avx512f = true) : maxvl c = 512 := if_pos h

/-- A form that is enabled writes no lane outside the vector registers of the implementation (10_state.md R20): 128 bits at
least, 256 with AVX, 512 with AVX512F. -/
theorem width_le_maxvl {i : Instr} {s : State} (hen : Enabled (enableClass i) s) : 64 * laneCount i ≤ maxvl s.cfg := by
  obtain ⟨-, hdis, -⟩ := hen
  have h8 := laneCount_le i
  cases hc : enableClass i with
  | sse =>
    have := laneCount_of_sse hc
    have := le_maxvl s.cfg
    omega
  | vex =>
    have havx : s.cfg.avx = true := by simp_all [disabled]
    have := laneCount_le_of_vex hc
    have := le_maxvl_of_avx havx
    omega
  | evexVl | evex512 =>
    have hf : s.cfg.avx512f = true := by simp_all [disabled]
    rw [maxvl_of_avx512f hf]
    omega

/-- The flags lie below the reserved bits of MXCSR (10_state.md R27). -/
theorem Conds.bits_reserved (c : Conds) : c.bits.extractLsb' 16 16 = 0#16 := by
  apply BitVec.eq_of_getLsbD_eq
  intro b hb
  have : 16 + b ∉ [0, 1, 3, 4, 5] := by simp; omega
  simp [c.getLsbD_bits_other this]

theorem mxcsrOk_of_or_bits {s t : State} {c : Conds} (ht : t.mxcsr = s.mxcsr ||| c.bits) (h : s.mxcsrOk = true) :
    t.mxcsrOk = true := by
  simp only [State.mxcsrOk, beq_iff_eq] at h ⊢
  rw [ht, BitVec.extractLsb'_or, h, c.bits_reserved, BitVec.zero_or]

/-- A bit from `MAXVL` up stays as it was, in the destination too: the lanes lie below it and zeroing stops before it. -/
theorem AddEffect.getLsbD_vec_of_maxvl_le {s t : State} {d : BitVec 5} {upper : Upper} {z : Bool} {out : Nat → FaddOut}
    {act : List Bool} {c : Conds} {len : Nat} (h : AddEffect s t d upper z out act c len)
    (hw : 64 * act.length ≤ maxvl s.cfg) (n : BitVec 5) {b : Nat} (hb : maxvl s.cfg ≤ b) :
    (t.vec n).getLsbD b = (s.vec n).getLsbD b := by
  obtain ⟨⟨-, hupper⟩, -, -, hother, -⟩ := h
  by_cases hn : n = d
  · subst hn
    by_cases h512 : b < 512
    · rw [hupper b (by omega) h512, if_neg (by omega)]
    · rw [BitVec.getLsbD_of_ge _ _ (by omega), BitVec.getLsbD_of_ge _ _ (by omega)]
  · rw [hother n hn]

/-- An instruction that completes keeps the invariant. -/
theorem exec_keeps_inv {i : Instr} {s t : State} (hinv : Inv s) (h : exec i s = .next t) : Inv t := by
  obtain ⟨hmem, hmx, hvec, -, hcfg⟩ := hinv
  obtain ⟨hen, -, -, hnext, heff⟩ := exec_eq_next h
  have hbits := heff.getLsbD_vec_of_maxvl_le (by rw [activity_length]; exact width_le_maxvl hen)
  obtain ⟨-, hmxcsr, hrip, -, -, -, -, -, -, -, -, -, -, hmode, hmem', -, hcfg', -⟩ := heff
  refine ⟨by rw [hmem']; exact hmem, mxcsrOk_of_or_bits hmxcsr hmx, fun n b hb => ?_, ?_, by rw [hcfg']; exact hcfg⟩
  · rw [hcfg'] at hb
    rw [hbits n hb, hvec n b hb]
  · rw [hrip, ripOk_congr hmode hcfg', hnext]

/-- Settles O14: a step that answers a next state is at `END` or runs an instruction, which keeps the invariant. -/
theorem stepKeepsInv : Obligations.StepKeepsInv := by
  intro s t hinv h
  obtain rfl | ⟨i, hi⟩ := step_eq_next h
  · exact hinv
  · exact exec_keeps_inv hinv hi

end Sys2Proof.Machine
end

section
/-! How many bytes a decoded instruction has: each stage of 30_encoding.md R116 accounts for the bytes it reads, and together
they are the bytes of the length rule (R117). -/

namespace Sys2Proof

/-! The operand. -/

theorem readDisp32_length {bs rest : List Byte} {d : BitVec 32} (h : readDisp32 bs = some (d, rest)) :
    4 + rest.length = bs.length := by
  unfold readDisp32 at h
  split at h
  · cases h
    simp only [List.length_cons]
    omega
  · cases h

theorem readDisp_length {mod : BitVec 2} {bs rest : List Byte} {d : Disp} (h : readDisp mod bs = some (d, rest)) :
    d.length + rest.length = bs.length := by
  unfold readDisp at h
  split at h
  · cases h
    simp [Disp.length]
  · split at h
    · cases bs with
      | nil => cases h
      | cons b bs =>
        cases h
        simp only [Disp.length, List.length_cons]
        omega
    · obtain ⟨d', hd, he⟩ := Option.map_eq_some_iff.mp h
      cases he
      exact readDisp32_length hd

/-- The SIB byte stands before `bs`. -/
theorem readSib_length {mod : BitVec 2} {sib : Byte} {bs rest : List Byte} {m : MemOperand}
    (h : readSib mod sib bs = some (m, rest)) : (RmOperand.mem m).length + rest.length = bs.length + 2 := by
  unfold readSib at h
  split at h
  · obtain ⟨d, hd, he⟩ := Option.map_eq_some_iff.mp h
    cases he
    have := readDisp32_length hd
    simp only [RmOperand.length]
    omega
  · obtain ⟨d, hd, he⟩ := Option.map_eq_some_iff.mp h
    cases he
    have := readDisp_length hd
    simp only [RmOperand.length]
    omega

/-- The ModRM byte stands before `bs`. -/
theorem readOperand_length {modrm : Byte} {bs rest : List Byte} {rm : RmOperand}
    (h : readOperand modrm bs = some (rm, rest)) : rm.length + rest.length = bs.length + 1 := by
  unfold readOperand at h
  split at h
  · cases h
    simp only [RmOperand.length]
    omega
  · split at h
    · cases bs with
      | nil => cases h
      | cons sib bs =>
        obtain ⟨m, hm, he⟩ := Option.map_eq_some_iff.mp h
        cases he
        exact readSib_length hm
    · split at h
      · obtain ⟨d, hd, he⟩ := Option.map_eq_some_iff.mp h
        cases he
        have := readDisp32_length hd
        simp only [RmOperand.length]
        omega
      · obtain ⟨d, hd, he⟩ := Option.map_eq_some_iff.mp h
        cases he
        have := readDisp_length hd
        simp only [RmOperand.length]
        omega

/-! The prefix schemes. -/

/-- An instruction answered with length `n`, where `before` bytes were read before `bs` and `total` bytes were given: the bytes
read are as many as the length rule says, and `n` is `total` less those left over. -/
def Accounts (total before : Nat) (bs : List Byte) (i : Instr) (n : Nat) : Prop :=
  ∃ left, i.length + left = before + bs.length ∧ n = total - left

theorem Accounts.congr {total before before' : Nat} {bs bs' : List Byte} {i : Instr} {n : Nat}
    (h : Accounts total before bs i n) (he : before + bs.length = before' + bs'.length) :
    Accounts total before' bs' i n := by
  obtain ⟨left, hl, hn⟩ := h
  exact ⟨left, hl.trans he, hn⟩

/-- With all the bytes given, the length answered is that of the length rule, and no more than were given. -/
theorem Accounts.length_eq {bs : List Byte} {i : Instr} {n : Nat} (h : Accounts bs.length 0 bs i n) :
    n = i.length ∧ n ≤ bs.length := by
  obtain ⟨left, hl, hn⟩ := h
  omega

/-- How many prefix bytes have been read. -/
def PrefixScan.count (a : PrefixScan) : Nat :=
  a.seg.isSome.toNat + a.a67.toNat + a.p66.toNat + a.lock.toNat + a.f2.toNat + a.f3.toNat

theorem PrefixScan.add_count {a a' : PrefixScan} {p : PrefixByte} (h : a.add p = some a') : a'.count = a.count + 1 := by
  cases p <;>
  · simp only [PrefixScan.add] at h
    split at h
    · cases h
    · cases h
      simp_all +arith [PrefixScan.count]

theorem scanPrefixes_length {bs rest : List Byte} {a a' : PrefixScan} (h : scanPrefixes bs a = .done a' rest) :
    a'.count + rest.length = a.count + bs.length := by
  induction bs generalizing a with
  | nil => cases h
  | cons b bs ih =>
    rw [scanPrefixes] at h
    split at h
    · cases h
      rfl
    · split at h
      · cases h
      · rename_i p _ a₁ hadd
        have := ih h
        have := PrefixScan.add_count hadd
        simp only [List.length_cons]
        omega

/-- A prefix scheme that answers an instruction has read its operand, and neither its prefixes nor its opcode spoke against
it. -/
theorem selectForm_finish_length {mode : Mode} {a67 : Bool} {total n : Nat} {ill mismatch restricted : Bool}
    {bad : Byte → Bool} {mk : BitVec 3 → RmOperand → Instr} {bs : List Byte} {i : Instr}
    (h : selectForm ill mismatch restricted (finish mode total a67 ill bad mk bs) = .ok i n) :
    mismatch = false ∧ ill = false ∧ ∃ reg rm left, i = mk reg rm ∧ rm.length + left = bs.length ∧ n = total - left := by
  obtain ⟨hmis, -, hfin⟩ := selectForm_eq_ok h
  obtain ⟨modrm, rest, rm, rest', rfl, hread, -, hill, -, hi, hn⟩ := finish_eq_ok hfin
  exact ⟨hmis, hill, _, rm, rest'.length, hi, by simpa using readOperand_length hread, hn⟩

/-- Of the prefix bytes the legacy scheme admits only the optional ones and the mandatory `66`. -/
theorem PrefixScan.count_legacy {a : PrefixScan} (hmis : (a.f2 || a.f3 || !a.p66) = false) (hill : a.lock = false) :
    a.count = a.prefixes.length + 1 := by
  simp at hmis
  simp [PrefixScan.count, PrefixScan.prefixes, Prefixes.length, hmis, hill]

/-- Before a VEX or EVEX prefix only the optional prefix bytes are admitted, and no REX. -/
theorem PrefixScan.count_vex {a : PrefixScan} {rex : Option Rex} (hill : a.illegalBeforeVex rex = false) :
    a.count = a.prefixes.length ∧ rex = none := by
  simp [PrefixScan.illegalBeforeVex] at hill
  simp [PrefixScan.count, PrefixScan.prefixes, Prefixes.length, hill]

/-- The byte `0F` stands before `bs`. -/
theorem decodeLegacy_accounts {mode : Mode} {total n : Nat} {a : PrefixScan} {rex : Option Rex} {bs : List Byte} {i : Instr}
    (h : decodeLegacy mode total a rex bs = .ok i n) :
    Accounts total (a.count + rex.isSome.toNat + 1) bs i n := by
  unfold decodeLegacy at h
  split at h
  · cases h
  · split at h
    · cases h
    · obtain ⟨hmis, hill, reg, rm, left, rfl, hlen, hn⟩ := selectForm_finish_length h
      refine ⟨left, ?_, hn⟩
      rw [PrefixScan.count_legacy hmis hill]
      cases rex <;>
      · simp only [Instr.length, Instr.prefixes, Instr.headLength, Instr.operand, List.length_cons, Option.isSome,
          Bool.toNat_false, Bool.toNat_true]
        omega

/-- The end of the VEX and EVEX schemes, where `head` bytes stand between the prefixes and ModRM in every form. -/
theorem vexScheme_accounts {mode : Mode} {a : PrefixScan} {rex : Option Rex} {head total n : Nat}
    {ill mismatch restricted : Bool} {bad : Byte → Bool} {mk : BitVec 3 → RmOperand → Instr} {bs : List Byte} {i : Instr}
    (hmk : ∀ reg rm, (mk reg rm).length = a.prefixes.length + head + rm.length)
    (hvex : ill = false → a.illegalBeforeVex rex = false)
    (h : selectForm ill mismatch restricted (finish mode total a.a67 ill bad mk bs) = .ok i n) :
    Accounts total (a.count + rex.isSome.toNat + head) bs i n := by
  obtain ⟨-, hill, reg, rm, left, rfl, hlen, hn⟩ := selectForm_finish_length h
  obtain ⟨hcount, rfl⟩ := PrefixScan.count_vex (hvex hill)
  refine ⟨left, ?_, hn⟩
  rw [hmk, hcount, Option.isSome_none, Bool.toNat_false]
  omega

/-- The byte `C5` stands before `bs`. -/
theorem decodeVex2_accounts {mode : Mode} {total n : Nat} {a : PrefixScan} {rex : Option Rex} {bs : List Byte} {i : Instr}
    (h : decodeVex2 mode total a rex bs = .ok i n) : Accounts total (a.count + rex.isSome.toNat + 1) bs i n := by
  unfold decodeVex2 at h
  split at h
  · refine (vexScheme_accounts (head := 3) (fun reg rm => ?_) id h).congr (by simp only [List.length_cons]; omega)
    split <;> rfl
  · cases h

/-- The byte `C4` stands before `bs`. -/
theorem decodeVex3_accounts {mode : Mode} {total n : Nat} {a : PrefixScan} {rex : Option Rex} {bs : List Byte} {i : Instr}
    (h : decodeVex3 mode total a rex bs = .ok i n) : Accounts total (a.count + rex.isSome.toNat + 1) bs i n := by
  unfold decodeVex3 at h
  split at h
  · refine (vexScheme_accounts (head := 4) (fun reg rm => ?_) id h).congr (by simp only [List.length_cons]; omega)
    split <;> rfl
  · cases h

/-- Whichever form it selects, an EVEX encoding has four prefix bytes and an opcode. -/
theorem evexForm_length (p : Prefixes) (e : Evex) (ll : BitVec 2) (b : Bool) (reg : BitVec 3) (rm : RmOperand) :
    (evexForm p e ll b reg rm).length = p.length + 5 + rm.length := by
  unfold evexForm
  split
  · rfl
  · split
    · rfl
    · split <;> rfl

/-- The byte `62` stands before `bs`. -/
theorem decodeEvex_accounts {mode : Mode} {total n : Nat} {a : PrefixScan} {rex : Option Rex} {bs : List Byte} {i : Instr}
    (h : decodeEvex mode total a rex bs = .ok i n) : Accounts total (a.count + rex.isSome.toNat + 1) bs i n := by
  unfold decodeEvex at h
  split at h
  · refine (vexScheme_accounts (rex := rex) (head := 5) (evexForm_length _ _ _ _) (fun hill => ?_) h).congr
      (by simp only [List.length_cons]; omega)
    exact (Bool.or_eq_false_iff.mp (Bool.or_eq_false_iff.mp hill).1).1
  · cases h

/-! The whole decoder. -/

theorem decodeOpcode_accounts {mode : Mode} {total n : Nat} {a : PrefixScan} {rex : Option Rex} {bs : List Byte} {i : Instr}
    (h : decodeOpcode mode total a rex bs = .ok i n) : Accounts total (a.count + rex.isSome.toNat) bs i n := by
  cases bs with
  | nil => cases h
  | cons op rest =>
    suffices Accounts total (a.count + rex.isSome.toNat + 1) rest i n from
      this.congr (by rw [List.length_cons]; omega)
    rw [decodeOpcode] at h
    split at h
    · exact decodeLegacy_accounts h
    · split at h
      · split at h
        · cases h
        · cases h
        · split at h
          · exact decodeVex2_accounts h
          · split at h
            · exact decodeVex3_accounts h
            · exact decodeEvex_accounts h
      · cases h

theorem decodeRex_accounts {mode : Mode} {total n : Nat} {a : PrefixScan} {bs : List Byte} {i : Instr}
    (h : decodeRex mode total a bs = .ok i n) : Accounts total a.count bs i n := by
  unfold decodeRex at h
  split at h
  · cases h
  · split at h
    · split at h
      · cases h
      · split at h
        · cases h
        · exact (decodeOpcode_accounts h).congr (by simp only [List.length_cons, Option.isSome, Bool.toNat_true]; omega)
    · exact decodeOpcode_accounts h

/-- The length the decoder answers is that of the length rule, and as many bytes were given (30_encoding.md R117). -/
theorem decode_length {mode : Mode} {bs : List Byte} {i : Instr} {n : Nat} (h : decode mode bs = .ok i n) :
    n = i.length ∧ n ≤ bs.length := by
  unfold decode at h
  split at h
  · split at h
    · cases h
    · cases h
    · rename_i a rest hscan
      have hcount : a.count + rest.length = 0 + bs.length := scanPrefixes_length hscan
      exact ((decodeRex_accounts h).congr hcount).length_eq
  · cases h

/-- The bytes before ModRM that are not optional: at most 4 in the legacy and VEX schemes, 5 in the EVEX scheme. -/
theorem headLength_of_enableClass (i : Instr) :
    match Machine.enableClass i with
    | .sse | .vex => 3 ≤ i.headLength ∧ i.headLength ≤ 4
    | .evexVl | .evex512 => i.headLength = 5 := by
  cases i <;> simp [Machine.enableClass, Instr.headLength]

/-- Settles O2: the instruction is well-formed by `decode_wf`, its length that of the rule, and the rule bounds each part. -/
theorem decodedIsWellFormed : Obligations.DecodedIsWellFormed := by
  intro m bs i n h
  obtain ⟨hn, hle⟩ := decode_length h
  refine ⟨decode_wf h, hn, hle, ?bounds⟩
  have hpre := Laws.Length.prefixes_le i.prefixes
  have hrm := Laws.Length.operand_bounds i.operand
  have hhead := headLength_of_enableClass i
  have hsum : n = i.prefixes.length + i.headLength + i.operand.length := hn
  cases hc : Machine.enableClass i <;>
  · simp only [hc] at hhead ⊢
    omega

end Sys2Proof
end

section
/-! Only the writemask bits are read: each operation of an addition commutes with a change of the mask registers that keeps the
activity of the lanes. -/

namespace Sys2Proof.Machine

/-! Outcomes under a change of the state. -/

/-- A change `g` of the state applied to the state a fault holds, and `h` to the value of an outcome. -/
def mapResult {α β : Type} (g : State → State) (h : α → β) : Result α → Result β
  | .next a => .next (h a)
  | .fault f => .fault (mapFault g f)
  | .refused r => .refused r

theorem mapResult_self (g : State → State) (o : Result State) : mapResult g g o = mapOutcome g o := by
  cases o <;> rfl

/-- Sequencing commutes with the change where both parts do. -/
theorem andThen_mapResult {α α' β β' : Type} {g : State → State} {h : α → α'} {h' : β → β'} {o : Result α}
    {f : α → Result β} {f' : α' → Result β'} (hf : ∀ a, f' (h a) = mapResult g h' (f a)) :
    andThen (mapResult g h o) f' = mapResult g h' (andThen o f) := by
  cases o with
  | next a => exact hf a
  | fault f => rfl
  | refused r => rfl

/-! The mask registers replaced. -/

def State.withMasks (k : Vector (BitVec 64) 8) (s : State) : State := { s with k := k }

section Masks
variable (k : Vector (BitVec 64) 8) (s : State)

theorem raise_withMasks {α β : Type} (h : α → β) (e : Exn) :
    raise e (s.withMasks k) = mapResult (State.withMasks k) h (raise e s) := by
  cases e <;> rfl

theorem raiseSimd_withMasks {α β : Type} (h : α → β) (cause seen : Conds) :
    raiseSimd cause seen (s.withMasks k) = mapResult (State.withMasks k) h (raiseSimd cause seen s) :=
  raise_withMasks k (simdFaultState cause seen s) h _

theorem checkEnabled_withMasks (c : EnableClass) :
    checkEnabled c (s.withMasks k) = mapResult (State.withMasks k) id (checkEnabled c s) := by
  have hp : premises (s.withMasks k) = premises s := rfl
  have hd : disabled c (s.withMasks k) = disabled c s := rfl
  have ht : (s.withMasks k).ts = s.ts := rfl
  unfold checkEnabled
  rw [hp, hd, ht]
  cases premises s with
  | some r => rfl
  | none => cases disabled c s <;> cases s.ts <;> rfl

theorem segmentFault_withMasks (seg dflt : Seg) (m : Bool) :
    segmentFault (s.withMasks k) seg dflt m = mapResult (State.withMasks k) id (segmentFault s seg dflt m) := by
  have hr : reportsStack (s.withMasks k) seg dflt = reportsStack s seg dflt := rfl
  have hc : overrideContested (s.withMasks k) seg dflt = overrideContested s seg dflt := rfl
  unfold segmentFault
  rw [hr, hc]
  dsimp only
  split
  · exact raise_withMasks k { s with draws := s.draws + 1 } id _
  · cases overrideContested s seg dflt
    · exact raise_withMasks k s id _
    · exact raise_withMasks k { s with draws := s.draws + 1 } id _

theorem pageCheck_withMasks (es : List (BitVec 32 × Addr)) :
    pageCheck (s.withMasks k) es = mapResult (State.withMasks k) id (pageCheck s es) := by
  match es with
  | [] => rfl
  | [_] => rfl
  | _ :: _ :: _ => rfl

theorem checkOperand_withMasks (seg dflt : Seg) (ea : Addr) (align : Bool) (offs : List Nat) :
    checkOperand (s.withMasks k) seg dflt ea align offs =
      mapResult (State.withMasks k) id (checkOperand s seg dflt ea align offs) := by
  have hx : crosses4G (s.withMasks k) ea offs = crosses4G s ea offs := rfl
  have hs : segmentOk (s.withMasks k) seg ea offs = segmentOk s seg ea offs := rfl
  have ha : aligned16 (s.withMasks k) seg ea = aligned16 s seg ea := rfl
  have hr : refusedBytes (s.withMasks k) seg ea offs = refusedBytes s seg ea offs := rfl
  unfold checkOperand
  rw [hx, hs, ha, hr]
  dsimp only
  split
  · rfl
  · split
    · exact segmentFault_withMasks k s seg dflt _
    · split
      · exact raise_withMasks k s id .gp
      · exact pageCheck_withMasks k s _

theorem readSource_withMasks (align : Bool) (src : Source) (act : List Bool) :
    readSource (s.withMasks k) align src act = mapResult (State.withMasks k) id (readSource s align src act) := by
  cases src with
  | reg n => rfl
  | mem seg dflt ea bcast =>
    simp only [readSource]
    rw [checkOperand_withMasks]
    refine andThen_mapResult fun _ => ?_
    have hf : (s.withMasks k).cfg.faultSuppression = s.cfg.faultSuppression := rfl
    have ha (offs : List Nat) : accessible (s.withMasks k) seg ea offs = accessible s seg ea offs := rfl
    rw [hf, ha]
    split <;> rfl

theorem packedAdd_withMasks (rm : Rounding) (sae : Bool) (pairs : List (Option (Double × Double))) :
    packedAdd (s.withMasks k) rm sae pairs =
      mapResult (State.withMasks k) (Prod.map id (State.withMasks k)) (packedAdd s rm sae pairs) := by
  have hl : laneSums (s.withMasks k) rm sae pairs = laneSums s rm sae pairs := rfl
  have hu (c : Conds) : c.unmasked (s.withMasks k) = c.unmasked s := rfl
  unfold packedAdd
  dsimp only
  rw [hl, hu, hu]
  split
  · rfl
  · split
    · exact raiseSimd_withMasks k s _ _ _
    · split
      · exact raiseSimd_withMasks k s _ _ _
      · rfl

theorem advance_withMasks (len : Nat) :
    advance len (s.withMasks k) = mapResult (State.withMasks k) (State.withMasks k) (advance len s) := by
  have hr (a : Nat) : ripOk (s.withMasks k) a = ripOk s a := rfl
  have hp : (s.withMasks k).rip = s.rip := rfl
  unfold advance
  rw [hr, hp]
  split <;> rfl

/-- An addition whose lanes keep their activity has the same outcome, with the mask registers replaced in it. -/
theorem execAdd_withMasks {op : AddOp} (hact : op.act (s.withMasks k) = op.act s) :
    execAdd op (s.withMasks k) = mapOutcome (State.withMasks k) (execAdd op s) := by
  simp only [AddOp.act] at hact
  rw [← mapResult_self]
  unfold execAdd
  dsimp only
  rw [hact, checkEnabled_withMasks]
  refine andThen_mapResult fun _ => ?_
  rw [readSource_withMasks]
  refine andThen_mapResult fun bs => ?_
  have hpairs : lanePairs (s.withMasks k) op.src1 (activeLanes s op.kl op.mask) bs =
      lanePairs s op.src1 (activeLanes s op.kl op.mask) bs := rfl
  have hrm : op.rounding (s.withMasks k) = op.rounding s := rfl
  rw [id, hpairs, hrm, packedAdd_withMasks]
  exact andThen_mapResult fun r => advance_withMasks k (r.2.setVec op.dst _) op.len

/-- Which addition an instruction performs does not depend on the mask registers. -/
theorem opOf_withMasks (i : Instr) : opOf (s.withMasks k) i = opOf s i := by
  cases i <;> rfl

/-- The active lanes depend on bits `KL-1:0` of the selected mask register only, and with `aaa = 0` on none. -/
theorem activity_withMasks {i : Instr}
    (h : writemask i ≠ 0#3 → ∀ j, j < laneCount i →
      ((s.withMasks k).kreg (writemask i)).getLsbD j = (s.kreg (writemask i)).getLsbD j) :
    activity (s.withMasks k) i = activity s i := by
  refine List.map_congr_left fun j hj => ?_
  unfold Active
  by_cases h0 : writemask i = 0#3
  · simp [h0]
  · rw [h h0 j (List.mem_range.mp hj)]

end Masks

/-- Settles O28: the activity of the lanes is all an addition takes from the mask registers. -/
theorem onlyTheWritemaskBitsAreRead : Obligations.OnlyTheWritemaskBitsAreRead := by
  intro i s k h
  change exec i (s.withMasks k) = mapOutcome (State.withMasks k) (exec i s)
  rw [exec_eq, exec_eq, opOf_withMasks]
  exact execAdd_withMasks k s (activity_withMasks k s h)

end Sys2Proof.Machine
end

section
/-! A next `RIP` that is not representable, the values after RESET and INIT, and what an instruction does at the reset values. -/

namespace Sys2Proof.Machine

/-! The next `RIP`. -/

theorem advance_refused {len : Nat} {s : State} (h : ripOk s (s.rip.toNat + len) = false) :
    advance len s = .refused .ripOutOfRange := by
  rw [advance, h]
  rfl

/-- No condition is unmasked exactly when none is before and none is after computation (40_numerics_double_add.md R150). -/
theorem noneUnmasked_condsOf {out : Nat → FaddOut} {act : List Bool} {s : State} :
    NoneUnmasked (condsOf out act) s ↔
      ((preOf out act).unmasked s).any = false ∧ ((postOf out act).unmasked s).any = false := by
  rw [NoneUnmasked, condsOf, union_unmasked, union_any, Bool.or_eq_false_iff]

/-- Settles O43: with nothing left to fault the outcome is that of `advance`, on a state with the same `RIP`, mode and
configuration. -/
theorem unrepresentableRipIsRefused : Obligations.UnrepresentableRipIsRefused := by
  intro i s hen hsrc hmask hrip
  rw [exec_of_ready hen hsrc]
  by_cases her : (embeddedRounding i).isSome = true
  · rw [if_pos her]
    exact advance_refused hrip
  · obtain ⟨hpre, hpost⟩ := noneUnmasked_condsOf.mp (hmask.resolve_left her)
    simp only [her, hpre, hpost, Bool.false_eq_true, if_false]
    exact advance_refused hrip

/-! The registers after RESET and INIT. -/

@[simp] theorem State.reset_kreg (n : BitVec 3) : State.reset.kreg n = 0#64 := by
  simp [State.kreg, State.reset]

@[simp] theorem State.reset_x (n : BitVec 4) : State.reset.x n = 0#64 := by
  simp [State.x, State.reset]

theorem State.reset_base_cs : State.reset.base .cs = 0xFFFF0000#64 := rfl

theorem State.reset_base {seg : Seg} (h : seg ≠ .cs) : State.reset.base seg = 0#64 := by
  cases seg
  case cs => exact absurd rfl h
  all_goals rfl

@[simp] theorem State.afterInit_x (s : State) (n : BitVec 4) : s.afterInit.x n = State.reset.x n := rfl

@[simp] theorem State.afterInit_base (s : State) (seg : Seg) : s.afterInit.base seg = State.reset.base seg := rfl

theorem getLsbD_setBits {n : Nat} (r m v : BitVec n) (b : Nat) :
    (setBits r m v).getLsbD b = if m.getLsbD b then v.getLsbD b else r.getLsbD b := by
  by_cases hb : b < n
  · simp only [setBits, BitVec.getLsbD_or, BitVec.getLsbD_and, BitVec.getLsbD_not, hb, decide_true, Bool.true_and]
    cases m.getLsbD b <;> simp
  · simp [BitVec.getLsbD_of_ge _ b (Nat.le_of_not_lt hb)]

/-- The two bits of CR0 that INIT leaves. -/
theorem getLsbD_cr0InitMask (b : Nat) : (0x60000000#32).getLsbD b = decide (b = 30 ∨ b = 29) := by
  by_cases hb : b < 32
  · have h : ∀ c : Fin 32, (0x60000000#32).getLsbD c = decide (c.1 = 30 ∨ c.1 = 29) := by decide
    exact h ⟨b, hb⟩
  · rw [BitVec.getLsbD_of_ge _ _ (by omega), eq_comm, decide_eq_false_iff_not]
    omega

theorem State.getLsbD_afterInit_cr0 (s : State) (b : Nat) :
    s.afterInit.cr0.getLsbD b = if b = 30 ∨ b = 29 then s.cr0.getLsbD b else (0x60000010#32).getLsbD b := by
  have h : s.afterInit.cr0 = setBits 0x60000010#32 0x60000000#32 s.cr0 := rfl
  rw [h, getLsbD_setBits, getLsbD_cr0InitMask]
  simp only [decide_eq_true_eq]

/-- Settles O11: each column of the table of R45; INIT sets what it does not leave to the value after RESET. -/
theorem resetValues : Obligations.ResetValues := by
  refine ⟨State.reset_vec, State.reset_kreg, rfl, fun n _ => State.reset_x n, rfl, rfl, rfl, rfl, rfl, State.reset_base_cs,
    fun _ => State.reset_base, rfl, rfl, fun s => ?init, 30, 29, by decide, by decide, by decide, ?cr0⟩
  case init =>
    exact ⟨rfl, rfl, rfl, fun n _ => State.reset_x n, rfl, rfl, rfl, rfl, State.reset_base_cs, fun _ => State.reset_base,
      rfl, rfl⟩
  case cr0 => exact State.getLsbD_afterInit_cr0

/-! An instruction at the reset values. -/

theorem exec_of_check_fault {i : Instr} {s : State} {f : Fault} (h : checkEnabled (enableClass i) s = .fault f) :
    exec i s = .fault f := by
  rw [exec_eq, execAdd, show (opOf s i).enable = enableClass i from rfl, h]
  rfl

/-- With CR4.OSFXSR and CR4.OSXSAVE clear no form is enabled (10_state.md R41, 60_exceptions.md R201). -/
theorem disabled_of_cr4_clear {s : State} (hfx : s.osfxsr = false) (hxs : s.osxsave = false) (c : EnableClass) :
    disabled c s = true := by
  cases c <;> simp [disabled, hfx, hxs]

/-- In a mode in scope the reset values meet the launch premises. -/
theorem premises_reset_inMode {m : Mode} (hm : m = .mode64 ∨ m = .mode32) :
    premises { State.reset with mode := m } = none := by
  obtain rfl | rfl := hm <;> decide

theorem step_of_premises_some {s : State} {r : Refusal} (h : premises s = some r) : step s = .refused r := by
  rw [step, h]

theorem premises_reset : premises State.reset = some .modeOutOfScope := by decide

theorem reset_osfxsr : State.reset.osfxsr = false := by decide

theorem reset_osxsave : State.reset.osxsave = false := by decide

/-- Settles O12: real-address mode is out of scope, and in a mode in scope the enable checks stop every form. -/
theorem resetCannotExecute : Obligations.ResetCannotExecute := by
  refine ⟨rfl, reset_osfxsr, reset_osxsave, step_of_premises_some premises_reset, fun i m hm => ?_⟩
  have hdis := disabled_of_cr4_clear (s := { State.reset with mode := m }) reset_osfxsr reset_osxsave (enableClass i)
  exact exec_of_check_fault (checkEnabled_ud (premises_reset_inMode hm) hdis)

end Sys2Proof.Machine
end

section
/-! The bytes after an instruction do not matter: an answer other than `short` stays when more bytes are given, at each stage of
30_encoding.md R116. -/

namespace Sys2Proof

/-- The answer `d` of the decoder says that bytes are missing, or it is also the answer `d'` on more bytes. -/
def Decoded.SettledBy (d d' : Decoded) : Prop := d = .short ∨ d' = d

theorem Decoded.SettledBy.refl (d : Decoded) : d.SettledBy d := .inr rfl

theorem Decoded.SettledBy.ite {c : Prop} [Decidable c] {d e d' e' : Decoded} (ht : c → d.SettledBy d')
    (hf : ¬ c → e.SettledBy e') : (if c then d else e).SettledBy (if c then d' else e') := by
  split
  · exact ht ‹_›
  · exact hf ‹_›

/-! The operand. -/

section Operand
variable (more : List Byte)

/-- What the read `o` answers, `o'` answers too, with `more` left over after it. -/
def ReadsOn {α : Type} (o o' : Option (α × List Byte)) : Prop :=
  ∀ v rest, o = some (v, rest) → o' = some (v, rest ++ more)

variable {more} {α β : Type}

theorem ReadsOn.none (o' : Option (α × List Byte)) : ReadsOn more none o' := fun _ _ h => nomatch h

theorem ReadsOn.some (v : α) (rest : List Byte) : ReadsOn more (some (v, rest)) (some (v, rest ++ more)) := by
  intro _ _ h
  cases h
  rfl

theorem ReadsOn.ite {c : Prop} [Decidable c] {o p o' p' : Option (α × List Byte)} (ht : ReadsOn more o o')
    (hf : ReadsOn more p p') : ReadsOn more (if c then o else p) (if c then o' else p') := by
  split
  · exact ht
  · exact hf

theorem ReadsOn.map {o o' : Option (α × List Byte)} (h : ReadsOn more o o') (f : α → β) :
    ReadsOn more (o.map fun q => (f q.1, q.2)) (o'.map fun q => (f q.1, q.2)) := by
  intro _ _ hm
  obtain ⟨q, hq, he⟩ := Option.map_eq_some_iff.mp hm
  cases he
  rw [h _ _ hq]
  rfl

variable (more)

theorem readDisp32_append (bs : List Byte) : ReadsOn more (readDisp32 bs) (readDisp32 (bs ++ more)) := by
  match bs with
  | [] | [_] | [_, _] | [_, _, _] => exact .none _
  | _ :: _ :: _ :: _ :: _ => exact .some _ _

theorem readDisp_append (mod : BitVec 2) (bs : List Byte) : ReadsOn more (readDisp mod bs) (readDisp mod (bs ++ more)) := by
  refine .ite (.some _ _) (.ite ?_ ((readDisp32_append more bs).map _))
  cases bs with
  | nil => exact .none _
  | cons b rest => exact .some _ _

theorem readSib_append (mod : BitVec 2) (sib : Byte) (bs : List Byte) :
    ReadsOn more (readSib mod sib bs) (readSib mod sib (bs ++ more)) :=
  .ite ((readDisp32_append more bs).map _) ((readDisp_append more mod bs).map _)

theorem readOperand_append (modrm : Byte) (bs : List Byte) :
    ReadsOn more (readOperand modrm bs) (readOperand modrm (bs ++ more)) := by
  refine .ite (.some _ _) (.ite ?_ (.ite
    ((readDisp32_append more bs).map fun d => RmOperand.mem (.dispOnly d))
    ((readDisp_append more (fieldHi modrm) bs).map fun d => RmOperand.mem (.base (fieldLo modrm) d))))
  cases bs with
  | nil => exact .none _
  | cons sib rest => exact (readSib_append more _ sib rest).map _

end Operand

/-! The prefix schemes. -/

section Schemes
variable (mode : Mode) (total : Nat) (more : List Byte)

/-- The length answered counts the bytes read, so the further bytes, given and left over, cancel in it. -/
theorem finish_settled (a67 ill : Bool) (bad : Byte → Bool) (mk : BitVec 3 → RmOperand → Instr) (bs : List Byte) :
    (finish mode total a67 ill bad mk bs).SettledBy (finish mode (total + more.length) a67 ill bad mk (bs ++ more)) := by
  cases bs with
  | nil => exact .inl rfl
  | cons modrm rest =>
    rw [List.cons_append, finish, finish]
    refine .ite (fun _ => .refl _) fun _ => ?_
    cases h : readOperand modrm rest with
    | none => exact .inl rfl
    | some q =>
      obtain ⟨rm, rest'⟩ := q
      simp only [readOperand_append more _ _ _ _ h, List.length_append, Nat.add_sub_add_right]
      exact .refl _

theorem selectForm_settled {ill mismatch restricted : Bool} {d d' : Decoded} (h : d.SettledBy d') :
    (selectForm ill mismatch restricted d).SettledBy (selectForm ill mismatch restricted d') :=
  .ite (fun _ => .refl _) fun _ => .ite (fun _ => .refl _) fun _ => h

variable (a : PrefixScan) (rex : Option Rex) (bs : List Byte)

theorem decodeLegacy_settled :
    (decodeLegacy mode total a rex bs).SettledBy (decodeLegacy mode (total + more.length) a rex (bs ++ more)) := by
  cases bs with
  | nil => exact .inl rfl
  | cons op rest => exact .ite (fun _ => .refl _) fun _ => selectForm_settled (finish_settled ..)

theorem decodeVex2_settled :
    (decodeVex2 mode total a rex bs).SettledBy (decodeVex2 mode (total + more.length) a rex (bs ++ more)) := by
  match bs with
  | [] | [_] => exact .inl rfl
  | _ :: _ :: _ => exact selectForm_settled (finish_settled ..)

theorem decodeVex3_settled :
    (decodeVex3 mode total a rex bs).SettledBy (decodeVex3 mode (total + more.length) a rex (bs ++ more)) := by
  match bs with
  | [] | [_] | [_, _] => exact .inl rfl
  | _ :: _ :: _ :: _ => exact selectForm_settled (finish_settled ..)

theorem decodeEvex_settled :
    (decodeEvex mode total a rex bs).SettledBy (decodeEvex mode (total + more.length) a rex (bs ++ more)) := by
  match bs with
  | [] | [_] | [_, _] | [_, _, _] => exact .inl rfl
  | _ :: _ :: _ :: _ :: _ => exact selectForm_settled (finish_settled ..)

/-- In 64-bit mode an escape byte begins a VEX or EVEX prefix whatever follows, but the rest of the prefix is then missing. -/
theorem decodeOpcode_settled :
    (decodeOpcode mode total a rex bs).SettledBy (decodeOpcode mode (total + more.length) a rex (bs ++ more)) := by
  cases bs with
  | nil => exact .inl rfl
  | cons op rest =>
    rw [List.cons_append, decodeOpcode, decodeOpcode]
    refine .ite (fun _ => decodeLegacy_settled ..) fun _ => .ite (fun _ => ?_) fun _ => .refl _
    cases rest with
    | nil =>
      left
      cases mode <;> simp [escapeByte, decodeVex2, decodeVex3, decodeEvex]
    | cons b rest =>
      have hesc : escapeByte mode (b :: rest ++ more) = escapeByte mode (b :: rest) := rfl
      rw [hesc]
      cases escapeByte mode (b :: rest) with
      | none => exact .refl _
      | some isEscape =>
        cases isEscape
        · exact .refl _
        · exact .ite (fun _ => decodeVex2_settled ..) fun _ =>
            .ite (fun _ => decodeVex3_settled ..) fun _ => decodeEvex_settled ..

theorem decodeRex_settled :
    (decodeRex mode total a bs).SettledBy (decodeRex mode (total + more.length) a (bs ++ more)) := by
  cases bs with
  | nil => exact .inl rfl
  | cons b rest =>
    refine .ite (fun _ => ?_) fun _ => decodeOpcode_settled ..
    cases rest with
    | nil => exact .inl rfl
    | cons c rest => exact .ite (fun _ => .refl _) fun _ => decodeOpcode_settled ..

end Schemes

/-! The whole decoder. -/

/-- What a scan of the prefixes answers on more bytes. -/
def ScanResult.append (more : List Byte) : ScanResult → ScanResult
  | .short => .short
  | .redundant => .redundant
  | .done a rest => .done a (rest ++ more)

theorem scanPrefixes_append (bs more : List Byte) (a : PrefixScan) :
    scanPrefixes bs a = .short ∨ scanPrefixes (bs ++ more) a = (scanPrefixes bs a).append more := by
  induction bs generalizing a with
  | nil => exact .inl rfl
  | cons b bs ih =>
    rw [List.cons_append, scanPrefixes, scanPrefixes]
    cases prefixByte b with
    | none => exact .inr rfl
    | some p =>
      cases h : a.add p with
      | none => simp only [h]; exact .inr rfl
      | some a' => simp only [h]; exact ih a'

/-- An answer of the decoder other than `short` does not depend on the bytes that follow. -/
theorem decode_settled (mode : Mode) (bs more : List Byte) : (decode mode bs).SettledBy (decode mode (bs ++ more)) := by
  refine .ite (fun _ => ?_) fun _ => .refl _
  rcases scanPrefixes_append bs more {} with h | h
  · rw [h]
    exact .inl rfl
  · rw [h]
    cases scanPrefixes bs {} with
    | short => exact .inl rfl
    | redundant => exact .refl _
    | done a rest =>
      rw [ScanResult.append, List.length_append]
      exact decodeRex_settled ..

/-- Fewer bytes than the instruction has are too few. -/
theorem decode_short_of_lt {mode : Mode} {bs more : List Byte} {i : Instr} {n : Nat}
    (h : decode mode (bs ++ more) = .ok i n) (hlt : bs.length < n) : decode mode bs = .short := by
  rcases decode_settled mode bs more with hs | he
  · exact hs
  · have := (decode_length (he ▸ h)).2
    omega

end Sys2Proof
end

section
/-! An encoding is decoded again, whatever bytes follow: each stage of 30_encoding.md R116 on the bytes the encoder writes. -/

namespace Sys2Proof

theorem mode_of_admits {m : Mode} {low : Bool} (h : m.admits low = true) : m = .mode64 ∨ m = .mode32 := by
  cases m <;> simp_all [Mode.admits]

theorem unrestricted_of_admits {m : Mode} {low : Bool} (h : m.admits low = true) : (m == .mode32 && !low) = false := by
  cases m <;> simp_all [Mode.admits]

/-- The first byte after `C5`, `C4` or `62` begins a VEX or EVEX prefix: always in 64-bit mode, and in 32-bit mode where the
extension bits are low (30_encoding.md R104, R114). -/
theorem escape_of_admits {m : Mode} {low : Bool} {b : Byte} (h : m.admits low = true) (hlow : low = true → fieldHi b = 3#2) :
    m = .mode64 ∨ fieldHi b = 3#2 := by
  cases m <;> simp_all [Mode.admits]

/-- The prefixes read of the encoding of an instruction, less the mandatory `66`. -/
def Prefixes.scan (p : Prefixes) : PrefixScan := { seg := p.seg, a67 := p.a67 }

/-! The stages. -/

section Stages
variable {mode : Mode} {total : Nat} {a : PrefixScan} {rm : RmOperand}

/-- A scheme that nothing speaks against answers the instruction of its operand. -/
theorem selectForm_finish_encode {restricted : Bool} {bad : Byte → Bool} {mk : BitVec 3 → RmOperand → Instr} (reg : BitVec 3)
    (rest : List Byte) (hres : restricted = false) (hwf : rm.wf = true) (hsize : a.prefixes.sizeOk mode rm.isMem = true)
    (hbad : ∀ modrm, (fieldHi modrm = 3#2 ↔ rm.isMem = false) → bad modrm = false) :
    ∃ n, selectForm false false restricted (finish mode total a.a67 false bad mk (rm.encode reg ++ rest)) =
      .ok (mk reg rm) n := by
  obtain ⟨modrm, tail, -, hmod, hfin⟩ :=
    finish_encode (total := total) (a67 := a.a67) bad mk reg hwf (Prefixes.sizeOk_iff.mp hsize) rest
  refine ⟨total - rest.length, ?_⟩
  rw [hfin, hbad modrm hmod, hres]
  rfl

theorem decodeOpcode_vex2 {rex : Option Rex} {v1 : Byte} {bs : List Byte} (h : mode = .mode64 ∨ fieldHi v1 = 3#2) :
    decodeOpcode mode total a rex (0xC5#8 :: v1 :: bs) = decodeVex2 mode total a rex (v1 :: bs) := by
  rcases h with h | h <;> simp [decodeOpcode, escapeByte, h]

theorem decodeOpcode_vex3 {rex : Option Rex} {v1 : Byte} {bs : List Byte} (h : mode = .mode64 ∨ fieldHi v1 = 3#2) :
    decodeOpcode mode total a rex (0xC4#8 :: v1 :: bs) = decodeVex3 mode total a rex (v1 :: bs) := by
  rcases h with h | h <;> simp [decodeOpcode, escapeByte, h]

theorem decodeOpcode_evex {rex : Option Rex} {p0 : Byte} {bs : List Byte} (h : mode = .mode64 ∨ fieldHi p0 = 3#2) :
    decodeOpcode mode total a rex (0x62#8 :: p0 :: bs) = decodeEvex mode total a rex (p0 :: bs) := by
  rcases h with h | h <;> simp [decodeOpcode, escapeByte, h]

/-- What follows the optional prefixes of an encoding, once the mandatory `66`, if there is one, is read. -/
theorem decode_of_scan {p : Prefixes} {a : PrefixScan} {bs rest : List Byte} (hmode : mode = .mode64 ∨ mode = .mode32)
    (hscan : scanPrefixes bs p.scan = .done a rest) :
    ∃ total, decode mode (p.encode ++ bs) = decodeRex mode total a rest := by
  refine ⟨(p.encode ++ bs).length, ?_⟩
  have hall : scanPrefixes (p.encode ++ bs) {} = .done a rest := (scanPrefixes_encode p bs).trans hscan
  rw [decode, if_pos hmode, hall]

theorem decodeRex_of_opcode {op : Byte} {bs : List Byte} (hop : op.extractLsb' 4 4 ≠ 4#4) :
    decodeRex mode total a (op :: bs) = decodeOpcode mode total a none (op :: bs) :=
  if_neg fun h => hop h.2

end Stages

/-! The forms. -/

section Forms
variable {m : Mode} (p : Prefixes) (reg : BitVec 3) {rm : RmOperand} (rest : List Byte)

theorem decode_encode_sse (hadm : m.admits true = true) (hwf : rm.wf = true) (hsize : p.sizeOk m rm.isMem = true) :
    ∃ n, decode m (p.encode ++ 0x66#8 :: 0x0F#8 :: 0x58#8 :: (rm.encode reg ++ rest)) = .ok (.addpdSse p reg rm) n := by
  have hscan : scanPrefixes (0x66#8 :: 0x0F#8 :: 0x58#8 :: (rm.encode reg ++ rest)) p.scan =
      .done { p.scan with p66 := true } (0x0F#8 :: 0x58#8 :: (rm.encode reg ++ rest)) := rfl
  obtain ⟨total, hdec⟩ := decode_of_scan (mode_of_admits hadm) hscan
  rw [hdec, decodeRex_of_opcode (by decide)]
  exact selectForm_finish_encode (a := { p.scan with p66 := true }) reg rest rfl hwf hsize fun _ _ => rfl

theorem decode_encode_sseRex (rex : Rex) (hwf : rm.wf = true) :
    ∃ n, decode .mode64 (p.encode ++ 0x66#8 :: rex.byte :: 0x0F#8 :: 0x58#8 :: (rm.encode reg ++ rest)) =
      .ok (.addpdSseRex p rex reg rm) n := by
  have hscan : scanPrefixes (0x66#8 :: rex.byte :: 0x0F#8 :: 0x58#8 :: (rm.encode reg ++ rest)) p.scan =
      .done { p.scan with p66 := true } (rex.byte :: 0x0F#8 :: 0x58#8 :: (rm.encode reg ++ rest)) :=
    scanPrefixes_none (prefixByte_rex rex) _ _
  obtain ⟨total, hdec⟩ := decode_of_scan (.inl rfl) hscan
  rw [hdec, decodeRex, if_pos ⟨rfl, rex_byte_high rex⟩, rexOf_byte]
  exact selectForm_finish_encode (a := { p.scan with p66 := true }) reg rest rfl hwf rfl fun _ _ => rfl

theorem decode_encode_vex2 (v : Vex2) (l : Bool) (hadm : m.admits v.low = true) (hwf : rm.wf = true)
    (hsize : p.sizeOk m rm.isMem = true) :
    ∃ n, decode m (p.encode ++ (v.bytes l ++ 0x58#8 :: (rm.encode reg ++ rest))) =
      .ok (if l then .vaddpdVex256C5 p v reg rm else .vaddpdVex128C5 p v reg rm) n := by
  have hscan : scanPrefixes (v.bytes l ++ 0x58#8 :: (rm.encode reg ++ rest)) p.scan =
      .done p.scan (v.bytes l ++ 0x58#8 :: (rm.encode reg ++ rest)) := rfl
  obtain ⟨total, hdec⟩ := decode_of_scan (mode_of_admits hadm) hscan
  have hesc := escape_of_admits hadm (fieldHi_vex2 v l)
  obtain ⟨hv, hl, hpp⟩ := vex2_fields v l _ rfl
  rw [hdec, Vex2.bytes, List.cons_append, decodeRex_of_opcode (by decide), List.cons_append, decodeOpcode_vex2 hesc,
    List.nil_append, decodeVex2, hv, hl, hpp]
  have hform := selectForm_finish_encode (total := total) (a := p.scan) (bad := fun _ => false)
    (mk := if l then .vaddpdVex256C5 p v else .vaddpdVex128C5 p v) reg rest (unrestricted_of_admits hadm) hwf hsize
    fun _ _ => rfl
  cases l <;> exact hform

theorem decode_encode_vex3 (v : Vex3) (l : Bool) (hadm : m.admits v.low = true) (hwf : rm.wf = true)
    (hsize : p.sizeOk m rm.isMem = true) :
    ∃ n, decode m (p.encode ++ (v.bytes l ++ 0x58#8 :: (rm.encode reg ++ rest))) =
      .ok (if l then .vaddpdVex256C4 p v reg rm else .vaddpdVex128C4 p v reg rm) n := by
  have hscan : scanPrefixes (v.bytes l ++ 0x58#8 :: (rm.encode reg ++ rest)) p.scan =
      .done p.scan (v.bytes l ++ 0x58#8 :: (rm.encode reg ++ rest)) := rfl
  obtain ⟨total, hdec⟩ := decode_of_scan (mode_of_admits hadm) hscan
  have hesc := escape_of_admits hadm (fieldHi_vex3 v)
  obtain ⟨hr, hx, hb, hmap⟩ := vex3_first v _ rfl
  obtain ⟨hw, hvvvv, hl, hpp⟩ := vex3_second v l _ rfl
  rw [hdec, Vex3.bytes, List.cons_append, decodeRex_of_opcode (by decide), List.cons_append, decodeOpcode_vex3 hesc,
    List.cons_append, List.nil_append, decodeVex3, vex3Of, hr, hx, hb, hmap, hw, hvvvv, hl, hpp]
  have hform := selectForm_finish_encode (total := total) (a := p.scan) (bad := fun _ => false)
    (mk := if l then .vaddpdVex256C4 p v else .vaddpdVex128C4 p v) reg rest (unrestricted_of_admits hadm) hwf hsize
    fun _ _ => rfl
  cases l <;> exact hform

/-- `L'L = 11` is legal with embedded rounding only, where the operand is a register (30_encoding.md R109). -/
theorem decode_encode_evex (e : Evex) (ll : BitVec 2) (b : Bool) (hadm : m.admits e.low = true) (hmask : e.maskOk = true)
    (hll : ll = 3#2 → b = true ∧ rm.isMem = false) (hwf : rm.wf = true) (hsize : p.sizeOk m rm.isMem = true) :
    ∃ n, decode m (p.encode ++ (e.bytes ll b ++ 0x58#8 :: (rm.encode reg ++ rest))) =
      .ok (evexForm p e ll b reg rm) n := by
  have hscan : scanPrefixes (e.bytes ll b ++ 0x58#8 :: (rm.encode reg ++ rest)) p.scan =
      .done p.scan (e.bytes ll b ++ 0x58#8 :: (rm.encode reg ++ rest)) := rfl
  obtain ⟨total, hdec⟩ := decode_of_scan (mode_of_admits hadm) hscan
  have hesc := escape_of_admits hadm (fieldHi_evex e)
  obtain ⟨hr, hx, hb, hrr, hres0, hmap⟩ := evex_p0 e _ rfl
  obtain ⟨hw, hvvvv, hres1, hpp⟩ := evex_p1 e _ rfl
  obtain ⟨hz, hl, hbc, hvv, haaa⟩ := evex_p2 e ll b _ rfl
  rw [hdec, Evex.bytes, List.cons_append, decodeRex_of_opcode (by decide), List.cons_append, decodeOpcode_evex hesc,
    List.cons_append, List.cons_append, List.nil_append, decodeEvex, evexOf, hr, hx, hb, hrr, hres0, hmap, hw, hvvvv, hres1,
    hpp, hz, hl, hbc, hvv, haaa]
  refine selectForm_finish_encode (a := p.scan) reg rest (unrestricted_of_admits hadm) hwf hsize fun modrm hmod => ?_
  have hlegal : (ll == 3#2 && !(b && fieldHi modrm == 3#2)) = false := by
    by_cases h3 : ll = 3#2
    · obtain ⟨hbt, hreg⟩ := hll h3
      simp [hbt, hmod.mpr hreg]
    · simp [h3]
  rw [evexIllegal, hlegal, hmask]
  rfl

end Forms

/-! The whole decoder. -/

theorem evexForm_mem (p : Prefixes) (e : Evex) (ll : BitVec 2) (b : Bool) (reg : BitVec 3) {rm : RmOperand}
    (h : (!b || rm.isMem) = true) : evexForm p e ll b reg rm =
      if ll = 0#2 then .vaddpdEvex128 p e b reg rm else if ll = 1#2 then .vaddpdEvex256 p e b reg rm
      else .vaddpdEvex512 p e b reg rm := by
  unfold evexForm
  split
  · cases h
  · rfl

/-- Every well-formed instruction is decoded from its encoding. -/
theorem decode_encode {m : Mode} {i : Instr} (rest : List Byte) (h : i.wf m = true) :
    decode m (encode i ++ rest) = .ok i i.length := by
  suffices ∃ n, decode m (encode i ++ rest) = .ok i n by
    obtain ⟨n, hn⟩ := this
    rw [hn, (decode_length hn).1]
  have hbytes : encode i ++ rest = i.prefixes.encode ++ (i.head ++ (i.operand.encode i.modrmReg ++ rest)) := by
    simp only [encode, List.append_assoc]
  rw [hbytes]
  cases i <;> simp only [Instr.wf, Bool.and_eq_true] at h
  case addpdSse p reg rm =>
    obtain ⟨⟨hadm, hwf⟩, hsize⟩ := h
    exact decode_encode_sse p reg rest hadm hwf hsize
  case addpdSseRex p rex reg rm =>
    obtain ⟨hadm, hwf⟩ := h
    obtain rfl : m = .mode64 := by simpa [Mode.admits] using hadm
    exact decode_encode_sseRex p reg rest rex hwf
  case vaddpdVex128C5 p v reg rm =>
    obtain ⟨⟨hadm, hwf⟩, hsize⟩ := h
    exact decode_encode_vex2 p reg rest v false hadm hwf hsize
  case vaddpdVex128C4 p v reg rm =>
    obtain ⟨⟨hadm, hwf⟩, hsize⟩ := h
    exact decode_encode_vex3 p reg rest v false hadm hwf hsize
  case vaddpdVex256C5 p v reg rm =>
    obtain ⟨⟨hadm, hwf⟩, hsize⟩ := h
    exact decode_encode_vex2 p reg rest v true hadm hwf hsize
  case vaddpdVex256C4 p v reg rm =>
    obtain ⟨⟨hadm, hwf⟩, hsize⟩ := h
    exact decode_encode_vex3 p reg rest v true hadm hwf hsize
  case vaddpdEvex128 p e b reg rm =>
    obtain ⟨⟨⟨⟨hadm, hmask⟩, hb⟩, hwf⟩, hsize⟩ := h
    have hform := decode_encode_evex p reg rest e 0#2 b hadm hmask (nomatch ·) hwf hsize
    rwa [evexForm_mem p e _ b reg hb] at hform
  case vaddpdEvex256 p e b reg rm =>
    obtain ⟨⟨⟨⟨hadm, hmask⟩, hb⟩, hwf⟩, hsize⟩ := h
    have hform := decode_encode_evex p reg rest e 1#2 b hadm hmask (nomatch ·) hwf hsize
    rwa [evexForm_mem p e _ b reg hb] at hform
  case vaddpdEvex512 p e b reg rm =>
    obtain ⟨⟨⟨⟨hadm, hmask⟩, hb⟩, hwf⟩, hsize⟩ := h
    have hform := decode_encode_evex p reg rest e 2#2 b hadm hmask (nomatch ·) hwf hsize
    rwa [evexForm_mem p e _ b reg hb] at hform
  case vaddpdEvex512Er p e rc reg rm =>
    obtain ⟨hadm, hmask⟩ := h
    exact decode_encode_evex (rm := .reg rm) p reg rest e rc true hadm hmask (fun _ => ⟨rfl, rfl⟩) rfl
      (by simp [Prefixes.sizeOk, RmOperand.isMem])

end Sys2Proof
end

section
/-! The fetch of an instruction whose bytes stand at `RIP`: its bytes are read in order, up to its end or to the first that
cannot be fetched (20_memory.md R76). -/

namespace Sys2Proof

/-- The encoding of an instruction has its length, which is below the limit of 15 bytes (30_encoding.md R88, R117). -/
theorem encode_length (i : Instr) : (encode i).length = i.length ∧ 4 ≤ i.length ∧ i.length ≤ 13 := by
  cases i <;> exact Laws.Length.of_head rfl (by simp [Instr.headLength]) (by simp [Instr.headLength])

end Sys2Proof

namespace Sys2Proof.Machine

/-- Fetchable bytes are fetched one after the other. -/
theorem fetchBytes_of_fetchable {s : State} (bs : List Byte) (n i : Nat)
    (h : ∀ j, j < bs.length → Fetchable s (i + j) (bs.getD j 0#8)) :
    fetchBytes s (bs.length + n) i =
      (bs ++ (fetchBytes s n (i + bs.length)).1, (fetchBytes s n (i + bs.length)).2) := by
  induction bs generalizing i with
  | nil => simp
  | cons b bs ih =>
    have hhead : fetchByte s i = .next b := fetchByte_eq_next.mpr (h 0 (by simp))
    have htail : ∀ j, j < bs.length → Fetchable s (i + 1 + j) (bs.getD j 0#8) := fun j hj => by
      simpa [Nat.add_assoc, Nat.add_comm 1] using h (j + 1) (by simpa using hj)
    have hnext : i + 1 + bs.length = i + (b :: bs).length := by simp only [List.length_cons]; omega
    rw [List.length_cons, Nat.add_right_comm, fetchBytes, hhead]
    dsimp only
    rw [ih (i + 1) htail, hnext]
    rfl

/-- A fault of the next byte ends the fetch. -/
theorem fetchBytes_of_fault {s : State} {n i : Nat} {f : Fault} (h : fetchByte s i = .fault f) :
    fetchBytes s (n + 1) i = ([], .fault f) := by
  rw [fetchBytes, h]

/-- Settles O9: the bytes of the instruction begin what is fetched, and its encoding is decoded whatever follows. -/
theorem instructionInMemoryRuns : Obligations.InstructionInMemoryRuns := by
  intro s i hp he hwf hbytes
  obtain ⟨hlen, -, hmax⟩ := encode_length i
  have hfetch := fetchBytes_of_fetchable (encode i) (maxLength - i.length) 0 (by simpa [hlen] using hbytes)
  rw [hlen, Nat.add_sub_cancel' (by rw [maxLength]; omega)] at hfetch
  refine step_of_instr hp he (fetchInstr_of_decode_ok (n := i.length) ?_)
  rw [hfetch]
  exact decode_encode _ hwf

/-- A fault on byte `k` of an instruction whose lower bytes can be fetched is the outcome of the step: fewer bytes than the
instruction has are no instruction, and no #UD or refusal either. -/
theorem step_of_fetch_fault {s : State} {i : Instr} {k : Nat} {f : Fault} (hp : premises s = none)
    (he : s.rip ≠ s.cfg.endRip) (hwf : i.wf s.mode = true) (hk : k < i.length)
    (hbelow : ∀ j, j < k → Fetchable s j ((encode i).getD j 0#8)) (hf : fetchByte s k = .fault f) : step s = .fault f := by
  obtain ⟨hlen, -, hmax⟩ := encode_length i
  have htake : ((encode i).take k).length = k := by rw [List.length_take]; omega
  have hread : ∀ j, j < ((encode i).take k).length → Fetchable s (0 + j) (((encode i).take k).getD j 0#8) := by
    intro j hj
    rw [htake] at hj
    simpa [List.getD_eq_getElem?_getD, List.getElem?_take, hj] using hbelow j hj
  have hfetch := fetchBytes_of_fetchable ((encode i).take k) (maxLength - k - 1 + 1) 0 hread
  have hsum : k + (maxLength - k - 1 + 1) = maxLength := by rw [maxLength]; omega
  rw [htake, Nat.zero_add, fetchBytes_of_fault hf, List.append_nil, hsum] at hfetch
  have hdec : decode s.mode ((encode i).take k ++ (encode i).drop k) = .ok i i.length := by
    rw [List.take_append_drop, ← List.append_nil (encode i)]
    exact decode_encode [] hwf
  have hshort : decode s.mode (fetchBytes s maxLength 0).1 = .short := by
    rw [hfetch]
    exact decode_short_of_lt hdec (by rwa [htake])
  rw [step_of_stop hp he (fetchInstr_of_decode_short hshort), hfetch]

theorem fetchSegmentOk_mode64 {s : State} (h : s.mode = .mode64) (j : Nat) :
    fetchSegmentOk s j = canonical s.cfg.vabits (fetchAddr s j) := if_pos h

theorem fetchSegmentOk_mode32 {s : State} (h : s.mode = .mode32) (j : Nat) :
    fetchSegmentOk s j = segCheck s.cfg .cs (s.rip + BitVec.ofNat 64 j) 1 := if_neg (by simp [h])

/-- Settles O10: each of the three faults of the fetch of byte `k` is the outcome of the step. -/
theorem fetchFaultsComeFirst : Obligations.FetchFaultsComeFirst := by
  intro s i k hp he hwf hk hbelow hrange
  refine ⟨fun hm hc => ?nonCanonical, fun hm hc => ?segment, fun code h64 h32 ht => ?page⟩
  case nonCanonical =>
    exact step_of_fetch_fault hp he hwf hk hbelow (fetchByte_gp hrange ((fetchSegmentOk_mode64 hm k).trans hc))
  case segment =>
    exact step_of_fetch_fault hp he hwf hk hbelow (fetchByte_gp hrange ((fetchSegmentOk_mode32 hm k).trans hc))
  case page =>
    have hseg : fetchSegmentOk s k = true := by
      rcases mode_of_premises hp with hm | hm
      · exact (fetchSegmentOk_mode64 hm k).trans (h64 hm)
      · exact (fetchSegmentOk_mode32 hm k).trans (h32 hm)
    exact step_of_fetch_fault hp he hwf hk hbelow (fetchByte_pf hrange hseg ht)

end Sys2Proof.Machine
end

section
/-! The checks of a memory operand, in their order (20_memory.md R64): segment, alignment, pages; and the outcome of an
instruction whose operand fails one of them. -/

namespace Sys2Proof.Machine

/-! The operand of an instruction. -/

theorem sourceOf_eq_mem {s : State} {p : Prefixes} {hi x b : Bool} {n len : Nat} {bc bcast : Bool} {rm : RmOperand}
    {seg dflt : Seg} {ea : Addr} (h : sourceOf s p hi x b n len bc rm = .mem seg dflt ea bcast) :
    ∃ m, rm = .mem m ∧ seg = segmentOf p b m ∧ dflt = defaultSegment b m ∧ bcast = bc := by
  cases rm with
  | reg r => cases h
  | mem m =>
    cases h
    exact ⟨m, rfl, rfl, rfl, rfl⟩

/-- A memory operand is the one of the encoding, in the segment its prefixes and base register select. -/
theorem secondSource_eq_mem {s : State} {i : Instr} {seg dflt : Seg} {ea : Addr} {bcast : Bool}
    (h : secondSource s i = .mem seg dflt ea bcast) :
    ∃ b m, i.operand = .mem m ∧ seg = segmentOf i.prefixes b m ∧ dflt = defaultSegment b m := by
  cases i
  case vaddpdEvex512Er => cases h
  all_goals
    obtain ⟨m, hm, hseg, hdflt, -⟩ := sourceOf_eq_mem h
    exact ⟨_, m, hm, hseg, hdflt⟩

/-- Form F1 has no broadcast. -/
theorem bcast_of_isLegacy {s : State} {i : Instr} {seg dflt : Seg} {ea : Addr} {bcast : Bool} (hl : isLegacy i = true)
    (h : secondSource s i = .mem seg dflt ea bcast) : bcast = false := by
  cases i
  case addpdSse | addpdSseRex =>
    obtain ⟨-, -, -, -, hb⟩ := sourceOf_eq_mem h
    exact hb
  all_goals cases hl

theorem enableClass_of_isLegacy {i : Instr} (h : isLegacy i = true) :
    enableClass i = .sse ∧ laneCount i = 2 ∧ writemask i = 0#3 := by
  cases i
  case addpdSse | addpdSseRex => exact ⟨rfl, rfl, rfl⟩
  all_goals cases h

/-! The bytes that are accessed. -/

/-- Without a writemask every lane is active (43_vaddpd_evex.md R184). -/
theorem activity_of_no_writemask {i : Instr} (s : State) (h : writemask i = 0#3) :
    activity s i = List.replicate (laneCount i) true := by
  refine List.eq_replicate_iff.mpr ⟨activity_length s i, fun b hb => ?_⟩
  obtain ⟨j, -, rfl⟩ := List.mem_map.mp hb
  simp [Active, h]

theorem flatMap_elementBytes_range (kl : Nat) : (List.range kl).flatMap elementBytes = List.range (8 * kl) := by
  induction kl with
  | zero => rfl
  | succ kl ih =>
    rw [List.range_succ, List.flatMap_append, ih, List.flatMap_singleton, Nat.mul_succ, List.range_add]
    rfl

/-- Without writemask and broadcast every byte of the operand is accessed. -/
theorem offsets_of_all_active (kl : Nat) : offsets false (List.replicate kl true) true = List.range (8 * kl) := by
  have hall : elements false (List.replicate kl true) true = List.range kl := by
    simp only [elements, Bool.false_eq_true, if_false, List.length_replicate]
    refine List.filter_eq_self.mpr fun j hj => ?_
    simp [List.getD, List.mem_range.mp hj]
  rw [offsets, hall, flatMap_elementBytes_range]

theorem offsets_of_no_writemask {i : Instr} (s : State) (h : writemask i = 0#3) :
    offsets false (activity s i) true = List.range (8 * laneCount i) := by
  rw [activity_of_no_writemask s h, offsets_of_all_active]

/-! The checks in their order. -/

section Checks
variable {s : State} {seg dflt : Seg} {ea : Addr} {align : Bool} {offs : List Nat}

theorem checkOperand_of_segment_fails (hx : crosses4G s ea offs = false) (hs : segmentOk s seg ea offs = false) :
    checkOperand s seg dflt ea align offs = segmentFault s seg dflt (align && !aligned16 s seg ea) := by
  simp [checkOperand, hx, hs]

theorem checkOperand_of_misaligned (hx : crosses4G s ea offs = false) (hs : segmentOk s seg ea offs = true)
    (ha : aligned16 s seg ea = false) : checkOperand s seg dflt ea true offs = .fault (.generalProtection s) := by
  simp [checkOperand, hx, hs, ha, raise]

theorem checkOperand_of_aligned (hx : crosses4G s ea offs = false) (hs : segmentOk s seg ea offs = true)
    (ha : align = true → aligned16 s seg ea = true) :
    checkOperand s seg dflt ea align offs = pageCheck s (refusedBytes s seg ea offs) := by
  have hm : (align && !aligned16 s seg ea) = false := by simpa using ha
  simp [checkOperand, hx, hs, hm]

/-- An enabled instruction whose memory operand fails a check has that fault as its outcome. -/
theorem exec_of_operand_fault {i : Instr} {bcast : Bool} {f : Fault} (hsrc : secondSource s i = .mem seg dflt ea bcast)
    (hen : Enabled (enableClass i) s)
    (h : checkOperand s seg dflt ea (isLegacy i) (offsets bcast (activity s i) true) = .fault f) :
    exec i s = .fault f := by
  refine exec_of_read_fault hen ?_
  rw [hsrc, readSource, h]
  rfl

theorem aligned16_iff : aligned16 s seg ea = true ↔ (linear s seg ea 0).toNat % 16 = 0 := by
  rw [aligned16, beq_iff_eq, ← BitVec.toNat_inj, BitVec.extractLsb'_toNat]
  simp

end Checks

/-- Settles O35: the two lanes of form F1 are the sixteen bytes of its operand, and the alignment check follows the segment
check whatever the segment. -/
theorem misalignedAddpdFaults : Obligations.MisalignedAddpdFaults := by
  intro i s seg dflt ea bcast hl hsrc hen hx hs hmis
  obtain ⟨hclass, hkl, hmask⟩ := enableClass_of_isLegacy hl
  obtain rfl := bcast_of_isLegacy hl hsrc
  have hoffs : offsets false (activity s i) true = List.range 16 := by rw [offsets_of_no_writemask s hmask, hkl]
  refine exec_of_operand_fault hsrc (hclass ▸ hen) ?_
  rw [hoffs, hl]
  exact checkOperand_of_misaligned hx hs (Bool.eq_false_iff.mpr (mt aligned16_iff.mp hmis))

/-! A failing segment check. -/

theorem segmentOk_mode64 {s : State} {seg : Seg} {ea : Addr} {offs : List Nat} (h : s.mode = .mode64) :
    segmentOk s seg ea offs = true ↔ ∀ o ∈ offs, canonical s.cfg.vabits (linear s seg ea o) = true := by
  rw [segmentOk, if_pos h, List.all_eq_true]

/-- Outside 64-bit mode the access to a run of bytes from the first on is asked as a whole. -/
theorem segmentOk_range {s : State} {seg : Seg} {ea : Addr} {n : Nat} (h : s.mode ≠ .mode64) :
    segmentOk s seg ea (List.range (n + 1)) = segCheck s.cfg seg ea (n + 1) := by
  rw [segmentOk, if_neg h, List.range_eq_range', pieces_range']
  simp

theorem laneCount_pos (i : Instr) : 0 < laneCount i := by cases i <;> simp [laneCount]

theorem overrideContested_iff {s : State} {seg dflt : Seg} :
    overrideContested s seg dflt = true ↔ s.mode = .mode64 ∧ seg ≠ .fs ∧ seg ≠ .gs ∧ ¬(seg = .ss ↔ dflt = .ss) := by
  have hmoved : ((seg == .ss) != (dflt == .ss)) = true ↔ ¬(seg = .ss ↔ dflt = .ss) := by
    rw [bne_iff_ne, ne_eq, Bool.eq_iff_iff, beq_iff_eq, beq_iff_eq]
  simp only [overrideContested, Bool.and_eq_true, hmoved, bne_iff_ne, beq_iff_eq, ne_eq, and_assoc]

/-- Outside the stack segment a failing check is #GP(0). -/
theorem segmentFault_gp {s : State} {seg dflt : Seg} (m : Bool) (hc : overrideContested s seg dflt = false)
    (hseg : seg ≠ .ss) : segmentFault s seg dflt m = .fault (.generalProtection s) := by
  simp [segmentFault_of_uncontested m hc, hseg, raise]

/-- In the stack segment it is #SS(0), where the operand is aligned or need not be. -/
theorem segmentFault_ss {s : State} {dflt : Seg} (hc : overrideContested s .ss dflt = false) :
    segmentFault s .ss dflt false = .fault (.stackSegment s) := by
  simp [segmentFault_of_uncontested false hc, raise]

/-- In the stack segment it is either, where the operand is misaligned as well. -/
theorem segmentFault_ss_misaligned {s : State} {dflt : Seg} (hc : overrideContested s .ss dflt = false) :
    segmentFault s .ss dflt true = .fault (.stackSegment { s with draws := s.draws + 1 }) ∨
      segmentFault s .ss dflt true = .fault (.generalProtection { s with draws := s.draws + 1 }) := by
  rw [segmentFault_of_uncontested true hc, if_pos ⟨rfl, rfl⟩]
  cases Config.freeTieIsGp s.draws
  · exact .inl rfl
  · exact .inr rfl

/-- Settles O36: the outcome is that of `segmentFault`, by whether an override is in dispute, the segment, and the
alignment. -/
theorem segmentCheckFaults : Obligations.SegmentCheckFaults := by
  refine ⟨fun s seg ea offs => segmentOk_mode64, fun i s seg ea hmode hmask => ?wholeAccess,
    fun i s seg dflt ea bcast hsrc hen hx hs => ?outcome⟩
  case wholeAccess =>
    obtain ⟨n, hn⟩ : ∃ n, 8 * laneCount i = n + 1 := ⟨8 * laneCount i - 1, by have := laneCount_pos i; omega⟩
    rw [offsets_of_no_writemask s hmask, hn]
    exact segmentOk_range (by simp [hmode])
  case outcome =>
    have hcheck := checkOperand_of_segment_fails (dflt := dflt) (align := isLegacy i) hx hs
    have hexec {f : Fault} (hf : segmentFault s seg dflt (isLegacy i && !aligned16 s seg ea) = .fault f) :
        exec i s = .fault f := exec_of_operand_fault hsrc hen (hcheck.trans hf)
    refine ⟨fun hc => ⟨_, rfl, ?contested⟩, fun hc hseg => ?other, fun hc hseg ha => ?stack, fun hc hseg hl ha => ?tie⟩
    case contested => exact (segmentFault_of_contested _ (overrideContested_iff.mpr hc)).imp hexec hexec
    all_goals have hunc := Bool.eq_false_iff.mpr (mt overrideContested_iff.mp hc)
    case other => exact hexec (segmentFault_gp _ hunc hseg)
    case stack =>
      subst hseg
      have hm : (isLegacy i && !aligned16 s .ss ea) = false := by rcases ha with ha | ha <;> simp [ha]
      exact hexec (hm ▸ segmentFault_ss hunc)
    case tie =>
      subst hseg
      have hm : (isLegacy i && !aligned16 s .ss ea) = true := by simp [hl, ha]
      exact ⟨_, rfl, (segmentFault_ss_misaligned hunc).imp (fun h => hexec (hm ▸ h)) fun h => hexec (hm ▸ h)⟩

/-! A refused translation. -/

/-- Settles O37: the byte reported is among the refused ones, whichever the free value picks. -/
theorem operandPageFaults : Obligations.OperandPageFaults := by
  intro i s seg dflt ea bcast hsrc hen offs hx hs ha hrefused
  have hne : refusedBytes s seg ea offs ≠ [] := by
    obtain ⟨k, hk, ht⟩ := hrefused
    obtain ⟨code, hcode⟩ := Option.ne_none_iff_exists'.mp ht
    exact List.ne_nil_of_mem (mem_refusedBytes.mpr ⟨k, hk, hcode, rfl⟩ : (code, linear s seg ea k) ∈ _)
  obtain ⟨⟨code, a⟩, he, n, hn, hpage⟩ := pageCheck_of_ne_nil (s := s) hne
  obtain ⟨k, hk, hcode, rfl⟩ := mem_refusedBytes.mp he
  exact ⟨k, hk, code, n, hcode, hn, exec_of_operand_fault hsrc hen ((checkOperand_of_aligned hx hs ha).trans hpage)⟩

end Sys2Proof.Machine
end

section
/-! Addresses: the segment, the linear address of each byte, the little-endian bytes of an element, and the effective address
as one sum modulo `2^asz` (20_memory.md R53, R60 to R62). -/

namespace Sys2Proof.Machine

/-! The linear address. -/

theorem wrapLinear_mode64 {m : Mode} (h : m = .mode64) (a : Addr) : wrapLinear m a = a := if_pos h

theorem toNat_wrapLinear {m : Mode} (h : m ≠ .mode64) (a : Addr) : (wrapLinear m a).toNat = a.toNat % 2 ^ 32 := by
  rw [wrapLinear, if_neg h, BitVec.toNat_setWidth, BitVec.toNat_setWidth]
  omega

theorem wrapLinear_add (m : Mode) (a b : Addr) : wrapLinear m (wrapLinear m a + b) = wrapLinear m (a + b) := by
  by_cases h : m = .mode64
  · simp only [wrapLinear_mode64 h]
  · apply BitVec.eq_of_toNat_eq
    simp only [toNat_wrapLinear h, BitVec.toNat_add]
    omega

/-- The address of a later byte counts on from that of an earlier one, wrapping like it. -/
theorem linear_add (s : State) (seg : Seg) (ea : Addr) (off i : Nat) :
    linear s seg ea (off + i) = wrapLinear s.mode (linear s seg ea off + BitVec.ofNat 64 i) := by
  rw [linear, linear, wrapLinear_add, BitVec.ofNat_add, BitVec.add_assoc _ (BitVec.ofNat 64 off)]

/-- Where the later address does not pass `2^32`, or in 64-bit mode, it is just counted on. -/
theorem linear_add_of_lt {s : State} {seg : Seg} {ea : Addr} {off i : Nat}
    (h : s.mode = .mode64 ∨ (linear s seg ea off).toNat + i < 2 ^ 32) :
    linear s seg ea (off + i) = linear s seg ea off + BitVec.ofNat 64 i := by
  rw [linear_add]
  by_cases hm : s.mode = .mode64
  · rw [wrapLinear_mode64 hm]
  · have hlt := h.resolve_left hm
    have hsum : (linear s seg ea off + BitVec.ofNat 64 i).toNat = (linear s seg ea off).toNat + i := by
      rw [BitVec.toNat_add, BitVec.toNat_ofNat]
      omega
    apply BitVec.eq_of_toNat_eq
    rw [toNat_wrapLinear hm, hsum, Nat.mod_eq_of_lt hlt]

theorem linear_zero (s : State) (seg : Seg) (ea : Addr) :
    linear s seg ea 0 = wrapLinear s.mode (linearBase s seg + ea) := by
  rw [linear, BitVec.add_zero]

/-! Little-endian values. -/

/-- The value of the bytes `b 0` to `b n`, the first least significant (20_memory.md R53). -/
def littleEndian (b : Nat → Byte) : (n : Nat) → BitVec (8 * n + 8)
  | 0 => b 0
  | n + 1 => littleEndian (fun i => b (i + 1)) n ++ b 0

theorem extractLsb'_littleEndian (b : Nat → Byte) {n i : Nat} (h : i ≤ n) :
    (littleEndian b n).extractLsb' (8 * i) 8 = b i := by
  induction n generalizing b i with
  | zero =>
    obtain rfl : i = 0 := by omega
    exact BitVec.extractLsb'_eq_self
  | succ n ih =>
    cases i with
    | zero => exact BitVec.extractLsb'_append_eq_right
    | succ i =>
      have hstart : 8 * (i + 1) - 8 = 8 * i := by omega
      rw [littleEndian, BitVec.extractLsb'_append_eq_of_le (by omega), hstart]
      exact ih (fun i => b (i + 1)) (by omega)

theorem readLane_eq_littleEndian (s : State) (seg : Seg) (ea : Addr) (off : Nat) :
    readLane s seg ea off = littleEndian (fun i => s.byteAt (linear s seg ea (off + i))) 7 := rfl

theorem readDisp32_eq_littleEndian {bs rest : List Byte} {d : BitVec 32} (h : readDisp32 bs = some (d, rest)) :
    d = littleEndian (fun i => bs.getD i 0#8) 3 := by
  unfold readDisp32 at h
  split at h
  · cases h
    rfl
  · cases h

/-- Settles O57: both reads are little-endian values, of the bytes at the operand's addresses and of the instruction's. -/
theorem memoryIsLittleEndian : Obligations.MemoryIsLittleEndian := by
  refine ⟨fun s seg ea off i hi hlin => ?element, fun bs rest d h i hi => ?displacement⟩
  case element =>
    rw [readLane_eq_littleEndian, extractLsb'_littleEndian _ (by omega), linear_add_of_lt hlin]
  case displacement =>
    rw [readDisp32_eq_littleEndian h]
    exact extractLsb'_littleEndian _ (by omega)

/-! The segment. -/

/-- Base registers 4 and 5 are those with a clear extension bit and the low bits 4 or 5. -/
theorem defaultSegment_of_base {b : Bool} {lo : BitVec 3} {m : MemOperand} (h : baseRegister b m = some (gprNum b lo)) :
    defaultSegment b m = if b = false ∧ (lo = 4#3 ∨ lo = 5#3) then .ss else .ds := by
  have hnum : ∀ (b : Bool) (lo : BitVec 3),
      (gprNum b lo = 4#4 ∨ gprNum b lo = 5#4) ↔ (b = false ∧ (lo = 4#3 ∨ lo = 5#3)) := by decide
  simp only [defaultSegment, h, Option.some.injEq, hnum]

theorem defaultSegment_eq_or (b : Bool) (m : MemOperand) : defaultSegment b m = .ss ∨ defaultSegment b m = .ds := by
  unfold defaultSegment
  split
  · exact .inl rfl
  · exact .inr rfl

/-- In 64-bit mode only the bases of FS and GS count. -/
theorem linearBase_mode64 {s : State} (h : s.mode = .mode64) (seg : Seg) :
    linearBase s seg = if seg = .fs ∨ seg = .gs then s.base seg else 0#64 := by
  cases seg <;> simp [linearBase, h]

theorem linearBase_of_ne {s : State} (h : s.mode ≠ .mode64) (seg : Seg) : linearBase s seg = s.base seg :=
  if_neg fun hm => h hm.1

/-- Settles O58: `segmentOf` and `defaultSegment` on each addressing form, and `linear` on the first byte. -/
theorem segmentAndLinearAddress : Obligations.SegmentAndLinearAddress := by
  refine ⟨fun _ _ _ _ => ⟨rfl, rfl⟩, fun b rm disp => defaultSegment_of_base rfl,
    fun b sc ix bs disp => defaultSegment_of_base rfl, fun b sc ix d => ⟨rfl, rfl⟩, fun i s seg dflt ea bcast h => ?source,
    fun s seg ea hm => ?linear64, fun s seg ea hm => ?linear32⟩
  case source =>
    obtain ⟨b, m, -, rfl, rfl⟩ := secondSource_eq_mem h
    exact ⟨rfl, defaultSegment_eq_or b m⟩
  case linear64 =>
    rw [linear_zero, wrapLinear_mode64 hm, linearBase_mode64 hm, BitVec.toNat_add]
    split <;> rfl
  case linear32 =>
    have hne : s.mode ≠ .mode64 := by simp [hm]
    rw [linear_zero, toNat_wrapLinear hne, linearBase_of_ne hne, BitVec.toNat_add]
    omega

/-! The effective address. -/

/-- The low 32 bits of a sum, a product and a shift are those of the same operation on the low halves. -/
theorem setWidth32_add (u v : Addr) : (u + v).setWidth 32 = u.setWidth 32 + v.setWidth 32 :=
  BitVec.setWidth_add u v (by omega)

theorem setWidth32_mul (u v : Addr) : (u * v).setWidth 32 = u.setWidth 32 * v.setWidth 32 :=
  BitVec.setWidth_mul u v (by omega)

theorem setWidth32_shiftLeft (v : Addr) (k : Nat) : (v <<< k).setWidth 32 = v.setWidth 32 <<< k :=
  BitVec.setWidth_shiftLeft_of_le (by omega)

theorem setWidth32_ofNat (n : Nat) : (BitVec.ofNat 64 n).setWidth 32 = BitVec.ofNat 32 n :=
  BitVec.setWidth_ofNat_of_le (by omega) n

theorem setWidth32_signExtend {w : Nat} (d : BitVec w) : (d.signExtend 64).setWidth 32 = d.signExtend 32 := by
  apply BitVec.eq_of_getLsbD_eq
  intro k hk
  have hk64 : k < 64 := by omega
  simp only [BitVec.getLsbD_setWidth, BitVec.getLsbD_signExtend, hk, hk64, decide_true, Bool.true_and]

theorem shiftLeft_eq_mul_pow {w : Nat} (v : BitVec w) (k : Nat) : v <<< k = v * BitVec.ofNat w (2 ^ k) := by
  have htwo : BitVec.twoPow w k = BitVec.ofNat w (2 ^ k) := by
    apply BitVec.eq_of_toNat_eq
    rw [BitVec.toNat_twoPow, BitVec.toNat_ofNat]
  rw [BitVec.shiftLeft_eq_mul_twoPow, htwo]

@[simp] theorem modAsz_false (v : Addr) : modAsz false v = v := rfl

theorem modAsz_true (v : Addr) : modAsz true v = (v.setWidth 32).setWidth 64 := rfl

@[simp] theorem setWidth_modAsz (a32 : Bool) (v : Addr) : (modAsz a32 v).setWidth 32 = v.setWidth 32 := by
  cases a32
  · rfl
  · simp [modAsz]

/-- A displacement as a value of `w` bits; `n` scales an 8-bit one (20_memory.md R60, 30_encoding.md R98). -/
def displacement (n : Nat) (d : Disp) (w : Nat) : BitVec w :=
  match d with
  | .none => 0#w
  | .disp8 d8 => d8.signExtend w * BitVec.ofNat w n
  | .disp32 d => d.signExtend w

theorem dispValue_eq (n : Nat) (d : Disp) : dispValue n d = displacement n d 64 := by
  cases d <;> rfl

theorem setWidth32_displacement (n : Nat) (d : Disp) : (displacement n d 64).setWidth 32 = displacement n d 32 := by
  cases d with
  | none => rfl
  | disp8 d => simp only [displacement, setWidth32_mul, setWidth32_signExtend, setWidth32_ofNat]
  | disp32 d => exact setWidth32_signExtend d

/-- The scaled index as a value of `w` bits; none for register number 4 (30_encoding.md R93). -/
def scaledIndex (s : State) (x : Bool) (sc : BitVec 2) (ix : BitVec 3) (w : Nat) : BitVec w :=
  if x = false ∧ ix = 4#3 then 0#w else (s.x (gprNum x ix)).setWidth w * BitVec.ofNat w (2 ^ sc.toNat)

theorem gprNum_eq_four {x : Bool} {ix : BitVec 3} : gprNum x ix = 4#4 ↔ x = false ∧ ix = 4#3 := by
  revert x ix
  decide

theorem indexValue_shiftLeft (s : State) (x : Bool) (sc : BitVec 2) (ix : BitVec 3) :
    indexValue s false x ix <<< sc.toNat = scaledIndex s x sc ix 64 := by
  simp only [indexValue, scaledIndex, gprNum_eq_four, modAsz_false, BitVec.setWidth_eq, ← shiftLeft_eq_mul_pow]
  split
  · exact BitVec.zero_shiftLeft _
  · rfl

theorem setWidth32_indexValue (s : State) (a32 x : Bool) (ix : BitVec 3) :
    (indexValue s a32 x ix).setWidth 32 = (indexValue s false x ix).setWidth 32 := by
  unfold indexValue
  split
  · rfl
  · rw [setWidth_modAsz, setWidth_modAsz]

theorem setWidth32_scaledIndex (s : State) (x : Bool) (sc : BitVec 2) (ix : BitVec 3) :
    (scaledIndex s x sc ix 64).setWidth 32 = scaledIndex s x sc ix 32 := by
  unfold scaledIndex
  split
  · rfl
  · rw [setWidth32_mul, setWidth32_ofNat, BitVec.setWidth_eq]

/-- The sum an addressing form stands for, before it is taken modulo `2^asz` (20_memory.md R60). -/
def addressSum (s : State) (x b : Bool) (n len : Nat) : MemOperand → Addr
  | .base rm d => s.x (gprNum b rm) + displacement n d 64
  | .sib sc ix lo d => s.x (gprNum b lo) + scaledIndex s x sc ix 64 + displacement n d 64
  | .sibNoBase sc ix d => scaledIndex s x sc ix 64 + d.signExtend 64
  | .dispOnly d => if s.mode = .mode64 then s.rip + BitVec.ofNat 64 len + d.signExtend 64 else d.signExtend 64

/-- The effective address is that sum modulo `2^asz`: taking the registers modulo `2^asz` first makes no difference. -/
theorem effectiveAddress_eq (s : State) (p : Prefixes) (x b : Bool) (n len : Nat) (m : MemOperand) :
    effectiveAddress s p x b n len m = modAsz (addr32 s p) (addressSum s x b n len m) := by
  unfold effectiveAddress
  cases addr32 s p with
  | false => cases m <;> simp only [modAsz_false, addressSum, dispValue_eq, indexValue_shiftLeft]
  | true =>
    cases m <;> simp only [modAsz_true, addressSum, dispValue_eq, ← indexValue_shiftLeft]
    case dispOnly => split <;> rfl
    all_goals
      simp only [← modAsz_true, setWidth32_add, setWidth32_shiftLeft, setWidth_modAsz, setWidth32_indexValue s true]

theorem addr32_mode64 {s : State} (h : s.mode = .mode64) (p : Prefixes) : addr32 s p = p.a67 := by
  simp [addr32, h]

theorem addr32_of_ne {s : State} (h : s.mode ≠ .mode64) (p : Prefixes) : addr32 s p = true := by
  simp [addr32, h]

/-! Canonical addresses. -/

/-- Two words agree above bit `n` exactly when they are equal shifted down by `n`. -/
theorem ushiftRight_eq_iff (a c : Addr) (n : Nat) :
    a >>> n = c >>> n ↔ ∀ b, n ≤ b → b < 64 → a.getLsbD b = c.getLsbD b := by
  constructor
  · intro h b hn _
    have hbit := congrArg (BitVec.getLsbD · (b - n)) h
    simpa only [BitVec.getLsbD_ushiftRight, Nat.add_sub_cancel' hn] using hbit
  · intro h
    apply BitVec.eq_of_getLsbD_eq
    intro k _
    simp only [BitVec.getLsbD_ushiftRight]
    by_cases hk : n + k < 64
    · exact h _ (by omega) hk
    · rw [BitVec.getLsbD_of_ge _ _ (by omega), BitVec.getLsbD_of_ge _ _ (by omega)]

/-- Its bits from `VABITS - 1` up are all clear or all set, so all equal to bit 63. -/
theorem canonical_iff (v : VaBits) (a : Addr) :
    canonical v a = true ↔ ∀ b, vaBits v - 1 ≤ b → b < 64 → a.getLsbD b = a.getLsbD 63 := by
  have htop : vaBits v - 1 ≤ 63 := by cases v <;> decide
  have hzero : a >>> (vaBits v - 1) = 0#64 ↔ ∀ b, vaBits v - 1 ≤ b → b < 64 → a.getLsbD b = false := by
    simpa using ushiftRight_eq_iff a 0#64 (vaBits v - 1)
  have hones : a >>> (vaBits v - 1) = BitVec.allOnes 64 >>> (vaBits v - 1) ↔
      ∀ b, vaBits v - 1 ≤ b → b < 64 → a.getLsbD b = true := by
    rw [ushiftRight_eq_iff]
    refine forall₃_congr fun b _ hb => ?_
    rw [BitVec.getLsbD_allOnes, decide_eq_true hb]
  simp only [canonical, Bool.or_eq_true, beq_iff_eq]
  rw [hzero, hones]
  constructor
  · rintro (h | h) b hb hlt
    · rw [h b hb hlt, h 63 htop (by omega)]
    · rw [h b hb hlt, h 63 htop (by omega)]
  · intro h
    cases h63 : a.getLsbD 63
    · exact .inl fun b hb hlt => (h b hb hlt).trans h63
    · exact .inr fun b hb hlt => (h b hb hlt).trans h63

/-- Settles O59: the sum of each addressing form, in 64 bits and in its low 32 bits. -/
theorem effectiveAndCanonicalAddresses : Obligations.EffectiveAndCanonicalAddresses := by
  refine ⟨fun v a => ?canonical, fun s seg x b n len rm ix bs sc d d32 => ?_⟩
  case canonical => cases v <;> exact canonical_iff _ a
  intro ea disp index
  have hdisp : ∀ w, disp w = displacement n d w := fun w => by cases d <;> rfl
  have hindex : ∀ w, index w = scaledIndex s x sc ix w := fun w => rfl
  have hea : ∀ m, ea m = modAsz (addr32 s ⟨seg, false⟩) (addressSum s x b n len m) := effectiveAddress_eq s _ x b n len
  simp only [hdisp, hindex, hea, effectiveAddress_eq]
  refine ⟨fun hm => ?wide, fun hm => ?narrow, fun m hm => ?prefix67⟩
  case wide => simp only [addr32_mode64 hm, modAsz_false, addressSum, if_pos hm, and_self]
  case narrow =>
    have hne : s.mode ≠ .mode64 := by simp [hm]
    simp only [addr32_of_ne hne, modAsz_true, addressSum, if_neg hne, setWidth32_add, setWidth32_displacement,
      setWidth32_scaledIndex, setWidth32_signExtend, BitVec.signExtend_eq, and_self]
  case prefix67 => simp only [addr32_mode64 hm, modAsz_true, modAsz_false]

end Sys2Proof.Machine
end

section
/-! Encodings that are no instruction: the stages of 30_encoding.md R116 where an illegal prefix or a reserved field makes the
answer #UD (R105, R115, R120), and where the bytes spell another instruction (R121). -/

namespace Sys2Proof

/-- Settles O1: the round trip of each form, with the length that the length rule gives. -/
theorem decodeEncodeAgree : Obligations.DecodeEncodeAgree := fun _ _ rest h => decode_encode rest h

/-! The prefixes. -/

/-- The prefixes seen, with the optional ones of an encoding among them. -/
def PrefixScan.withOptional (a : PrefixScan) (p : Prefixes) : PrefixScan := { a with seg := p.seg, a67 := p.a67 }

/-- The optional prefixes of an encoding are read after any others. -/
theorem scanPrefixes_encode_of_no_optional {a : PrefixScan} (hseg : a.seg = none) (h67 : a.a67 = false) (p : Prefixes)
    (bs : List Byte) : scanPrefixes (p.encode ++ bs) a = scanPrefixes bs (a.withOptional p) := by
  obtain ⟨_, _, p66, lock, f2, f3⟩ := a
  obtain ⟨seg, a67⟩ := p
  obtain rfl : _ = none := hseg
  obtain rfl : _ = false := h67
  cases seg <;> cases a67 <;> simp [Prefixes.encode, scanPrefixes, PrefixScan.add, PrefixScan.withOptional] <;> rfl

theorem decode_eq_decodeRex {m : Mode} {bs rest : List Byte} {a : PrefixScan} (hm : m = .mode64 ∨ m = .mode32)
    (hscan : scanPrefixes bs {} = .done a rest) : decode m bs = decodeRex m bs.length a rest := by
  rw [decode, if_pos hm, hscan]

/-! The end of every scheme. -/

section Schemes
variable {mode : Mode} {total : Nat} {a : PrefixScan} {rex : Option Rex} {rm : RmOperand}

theorem selectForm_illegal {mismatch restricted : Bool} {k : Decoded} (hk : k = .ud) :
    selectForm true mismatch restricted k = .ud := by
  subst hk
  cases mismatch <;> cases restricted <;> rfl

theorem selectForm_mismatch {mismatch restricted : Bool} {k : Decoded} (h : mismatch = true) :
    selectForm false mismatch restricted k = .refused .otherInstruction := by
  subst h
  rfl

/-- An operand whose ModRM byte makes the encoding illegal. -/
theorem finish_of_bad {a67 ill : Bool} {bad : Byte → Bool} (mk : BitVec 3 → RmOperand → Instr) (reg : BitVec 3)
    (hwf : rm.wf = true) (hbad : ∀ modrm, (fieldHi modrm = 3#2 ↔ rm.isMem = false) → bad modrm = true) (rest : List Byte) :
    finish mode total a67 ill bad mk (rm.encode reg ++ rest) = .ud := by
  obtain ⟨modrm, tail, henc, -, hmod, hread⟩ := readOperand_encode reg rm hwf rest
  have hill : (ill || bad modrm) = true := by rw [hbad modrm hmod, Bool.or_true]
  rw [henc, List.cons_append, finish, if_pos hill]
  split
  · rfl
  · rw [hread]

theorem decodeOpcode_legacy (bs : List Byte) :
    decodeOpcode mode total a rex (0x0F#8 :: bs) = decodeLegacy mode total a rex bs := rfl

/-- After `0F 58` only the prefixes decide whether the bytes spell form F1; which of its two rows, REX. -/
theorem decodeLegacy_addpd (bs : List Byte) :
    ∃ mk, decodeLegacy mode total a rex (0x58#8 :: bs) =
      selectForm a.lock (a.f2 || a.f3 || !a.p66) false (finish mode total a.a67 a.lock (fun _ => false) mk bs) := ⟨_, rfl⟩

/-! An illegal prefix, or a reserved field, before the opcode: #UD whatever the other fields and the opcode. -/

theorem decodeLegacy_of_lock (hlock : a.lock = true) (hwf : rm.wf = true) (reg : BitVec 3) (rest : List Byte) :
    decodeLegacy mode total a rex (0x58#8 :: (rm.encode reg ++ rest)) = .ud := by
  obtain ⟨mk, hdec⟩ := decodeLegacy_addpd (mode := mode) (total := total) (a := a) (rex := rex) (rm.encode reg ++ rest)
  rw [hdec, hlock]
  exact selectForm_illegal (finish_illegal _ _ reg hwf rest)

theorem decodeVex2_of_illegal (hill : a.illegalBeforeVex rex = true) (hwf : rm.wf = true) (v1 op : Byte) (reg : BitVec 3)
    (rest : List Byte) : decodeVex2 mode total a rex (v1 :: op :: (rm.encode reg ++ rest)) = .ud := by
  rw [decodeVex2, hill]
  exact selectForm_illegal (finish_illegal _ _ reg hwf rest)

theorem decodeVex3_of_illegal (hill : a.illegalBeforeVex rex = true) (hwf : rm.wf = true) (v1 v2 op : Byte) (reg : BitVec 3)
    (rest : List Byte) : decodeVex3 mode total a rex (v1 :: v2 :: op :: (rm.encode reg ++ rest)) = .ud := by
  rw [decodeVex3, hill]
  exact selectForm_illegal (finish_illegal _ _ reg hwf rest)

theorem decodeEvex_of_illegal {p0 p1 : Byte}
    (hill : (a.illegalBeforeVex rex || p0.extractLsb' 2 2 != 0#2 || !bitAt p1 2) = true) (hwf : rm.wf = true) (p2 op : Byte)
    (reg : BitVec 3) (rest : List Byte) :
    decodeEvex mode total a rex (p0 :: p1 :: p2 :: op :: (rm.encode reg ++ rest)) = .ud := by
  rw [decodeEvex, hill]
  exact selectForm_illegal (finish_illegal _ _ reg hwf rest)

/-- The EVEX scheme reads back the fields that the encoder wrote. -/
theorem decodeEvex_bytes (e : Evex) (ll : BitVec 2) (b : Bool) (bs : List Byte) :
    decodeEvex mode total a rex ((e.bytes ll b).tail ++ 0x58#8 :: bs) =
      selectForm (a.illegalBeforeVex rex) false (mode == .mode32 && !e.low)
        (finish mode total a.a67 (a.illegalBeforeVex rex) (evexIllegal e ll b) (evexForm a.prefixes e ll b) bs) := by
  obtain ⟨hr, hx, hb, hrr, hres0, hmap⟩ := evex_p0 e _ rfl
  obtain ⟨hw, hvvvv, hres1, hpp⟩ := evex_p1 e _ rfl
  obtain ⟨hz, hl, hbc, hvv, haaa⟩ := evex_p2 e ll b _ rfl
  simp only [Evex.bytes, List.tail_cons, List.cons_append, List.nil_append, decodeEvex, evexOf, hr, hx, hb, hrr, hres0, hmap,
    hw, hvvvv, hres1, hpp, hz, hl, hbc, hvv, haaa, bne_self_eq_false, Bool.not_true, Bool.or_false]

end Schemes

/-! An illegal prefix before a form. -/

section IllegalPrefix
variable {m : Mode} {i : Instr}

theorem mode_of_wf (h : i.wf m = true) : m = .mode64 ∨ m = .mode32 := by
  cases i <;>
  · simp only [Instr.wf, Bool.and_eq_true, and_assoc] at h
    exact mode_of_admits h.1

theorem operand_wf_of_wf (h : i.wf m = true) : i.operand.wf = true := by
  cases i <;> simp_all [Instr.wf, Instr.operand, RmOperand.wf]

/-- The VEX and EVEX forms begin with an escape byte, which is neither a legacy prefix nor REX. -/
theorem head_of_not_isLegacy (hl : Machine.isLegacy i = false) :
    ∃ c tail, i.head = c :: tail ∧ prefixByte c = none ∧ c.extractLsb' 4 4 ≠ 4#4 := by
  cases i
  case addpdSse | addpdSseRex => cases hl
  all_goals exact ⟨_, _, rfl, by decide, by decide⟩

theorem decodeRex_head (hl : Machine.isLegacy i = false) (total : Nat) (a : PrefixScan) (bs : List Byte) :
    decodeRex m total a (i.head ++ bs) = decodeOpcode m total a none (i.head ++ bs) := by
  obtain ⟨c, tail, hhead, -, hc⟩ := head_of_not_isLegacy hl
  rw [hhead]
  exact decodeRex_of_opcode hc

/-- A REX byte is read where no legacy prefix follows it (30_encoding.md R85, R87). -/
theorem decodeRex_rex (x : Rex) {c : Byte} (hc : prefixByte c = none) (total : Nat) (a : PrefixScan) (bs : List Byte) :
    decodeRex .mode64 total a (x.byte :: c :: bs) = decodeOpcode .mode64 total a (some x) (c :: bs) := by
  rw [decodeRex, if_pos ⟨rfl, rex_byte_high x⟩, rexOf_byte, hc]
  rfl

theorem decodeRex_rex_head (hl : Machine.isLegacy i = false) (x : Rex) (total : Nat) (a : PrefixScan) (bs : List Byte) :
    decodeRex .mode64 total a (x.byte :: (i.head ++ bs)) = decodeOpcode .mode64 total a (some x) (i.head ++ bs) := by
  obtain ⟨c, tail, hhead, hc, -⟩ := head_of_not_isLegacy hl
  rw [hhead]
  exact decodeRex_rex x hc total a (tail ++ bs)

theorem scanPrefixes_head (hl : Machine.isLegacy i = false) (a : PrefixScan) (bs : List Byte) :
    scanPrefixes (i.head ++ bs) a = .done a (i.head ++ bs) := by
  obtain ⟨c, tail, hhead, hc, -⟩ := head_of_not_isLegacy hl
  rw [hhead]
  exact scanPrefixes_none hc _ _

/-- `66`, `F2`, `F3`, LOCK or REX before a VEX or EVEX form (30_encoding.md R105, R115). -/
theorem decodeOpcode_of_illegal (hwf : i.wf m = true) (hl : Machine.isLegacy i = false) {total : Nat} {a : PrefixScan}
    {rex : Option Rex} (hill : a.illegalBeforeVex rex = true) (rest : List Byte) :
    decodeOpcode m total a rex (i.head ++ (i.operand.encode i.modrmReg ++ rest)) = .ud := by
  have hrm := operand_wf_of_wf hwf
  cases i <;> simp only [Instr.wf, Bool.and_eq_true, and_assoc] at hwf
  case addpdSse | addpdSseRex => cases hl
  case vaddpdVex128C5 p v reg rm | vaddpdVex256C5 p v reg rm =>
    exact (decodeOpcode_vex2 (escape_of_admits hwf.1 (fieldHi_vex2 v _))).trans (decodeVex2_of_illegal hill hrm ..)
  case vaddpdVex128C4 p v reg rm | vaddpdVex256C4 p v reg rm =>
    exact (decodeOpcode_vex3 (escape_of_admits hwf.1 (fieldHi_vex3 v))).trans (decodeVex3_of_illegal hill hrm ..)
  case vaddpdEvex128 p e b reg rm | vaddpdEvex256 p e b reg rm | vaddpdEvex512 p e b reg rm | vaddpdEvex512Er p e b reg rm =>
    exact (decodeOpcode_evex (escape_of_admits hwf.1 (fieldHi_evex e))).trans
      (decodeEvex_of_illegal (by rw [hill]; rfl) hrm ..)

/-- A prefix byte before an encoding, where it makes a VEX or EVEX encoding illegal. -/
theorem decode_of_illegal_prefix (hwf : i.wf m = true) (hl : Machine.isLegacy i = false) {b : Byte} {a : PrefixScan}
    (hb : ∀ bs, scanPrefixes (b :: bs) {} = scanPrefixes bs a) (hseg : a.seg = none) (h67 : a.a67 = false)
    (hill : a.illegalBeforeVex none = true) (rest : List Byte) : decode m (b :: encode i ++ rest) = .ud := by
  have hscan : scanPrefixes (b :: encode i ++ rest) {} =
      .done (a.withOptional i.prefixes) (i.head ++ (i.operand.encode i.modrmReg ++ rest)) := by
    rw [List.cons_append, hb, encode, List.append_assoc, List.append_assoc,
      scanPrefixes_encode_of_no_optional hseg h67, scanPrefixes_head hl]
  rw [decode_eq_decodeRex (mode_of_wf hwf) hscan, decodeRex_head hl]
  exact decodeOpcode_of_illegal (a := a.withOptional i.prefixes) hwf hl hill rest

/-- LOCK before a legacy form (30_encoding.md R120). -/
theorem decode_of_lock_legacy (hwf : i.wf m = true) (hl : Machine.isLegacy i = true) (rest : List Byte) :
    decode m (0xF0#8 :: encode i ++ rest) = .ud := by
  have hm := mode_of_wf hwf
  have hrm := operand_wf_of_wf hwf
  have hprefixes (p : Prefixes) (bs : List Byte) : scanPrefixes (0xF0#8 :: (p.encode ++ 0x66#8 :: bs)) {} =
      scanPrefixes bs (PrefixScan.withOptional { p66 := true, lock := true } p) :=
    scanPrefixes_encode_of_no_optional (a := { lock := true }) rfl rfl p (0x66#8 :: bs)
  cases i
  case addpdSse p reg rm =>
    have hbytes : 0xF0#8 :: encode (.addpdSse p reg rm) ++ rest =
        0xF0#8 :: (p.encode ++ 0x66#8 :: 0x0F#8 :: 0x58#8 :: (rm.encode reg ++ rest)) := by
      simp [encode, Instr.prefixes, Instr.head, Instr.operand, Instr.modrmReg]
    rw [hbytes, decode_eq_decodeRex hm ((hprefixes p _).trans (scanPrefixes_none (by decide) _ _)),
      decodeRex_of_opcode (by decide), decodeOpcode_legacy]
    exact decodeLegacy_of_lock rfl hrm reg rest
  case addpdSseRex p x reg rm =>
    obtain rfl : m = .mode64 := by simpa [Instr.wf, Mode.admits] using And.left (Bool.and_eq_true_iff.mp hwf)
    have hbytes : 0xF0#8 :: encode (.addpdSseRex p x reg rm) ++ rest =
        0xF0#8 :: (p.encode ++ 0x66#8 :: x.byte :: 0x0F#8 :: 0x58#8 :: (rm.encode reg ++ rest)) := by
      simp [encode, Instr.prefixes, Instr.head, Instr.operand, Instr.modrmReg]
    rw [hbytes, decode_eq_decodeRex hm ((hprefixes p _).trans (scanPrefixes_none (prefixByte_rex x) _ _)),
      decodeRex_rex x (by decide), decodeOpcode_legacy]
    exact decodeLegacy_of_lock rfl hrm reg rest
  all_goals cases hl

/-- REX between the optional prefixes and a VEX or EVEX prefix (30_encoding.md R105, R115). -/
theorem decode_of_rex_before_vex (hwf : i.wf .mode64 = true) (hl : Machine.isLegacy i = false) (x : Rex) (rest : List Byte) :
    decode .mode64 (i.prefixes.encode ++ x.byte :: (i.head ++ i.operand.encode i.modrmReg) ++ rest) = .ud := by
  have hscan : scanPrefixes (i.prefixes.encode ++ x.byte :: (i.head ++ i.operand.encode i.modrmReg) ++ rest) {} =
      .done i.prefixes.scan (x.byte :: (i.head ++ (i.operand.encode i.modrmReg ++ rest))) := by
    rw [List.append_assoc, scanPrefixes_encode, List.cons_append, List.append_assoc, scanPrefixes_none (prefixByte_rex x)]
    rfl
  rw [decode_eq_decodeRex (.inl rfl) hscan, decodeRex_rex_head hl]
  exact decodeOpcode_of_illegal hwf hl (by simp [PrefixScan.illegalBeforeVex]) rest

end IllegalPrefix

/-- Settles O5: every form but the legacy ones meets the prefix in `illegalBeforeVex`; the legacy ones ask for LOCK. -/
theorem illegalPrefixesAreUndefined : Obligations.IllegalPrefixesAreUndefined := by
  intro m i rest hwf
  refine ⟨?lock, fun hl => ⟨fun b hb => ?legacyPrefix, fun x hm => ?rex⟩⟩
  case lock =>
    cases hl : Machine.isLegacy i with
    | true => exact decode_of_lock_legacy hwf hl rest
    | false => exact decode_of_illegal_prefix hwf hl (a := { lock := true }) (fun _ => rfl) rfl rfl rfl rest
  case legacyPrefix =>
    simp only [List.mem_cons, List.not_mem_nil, or_false] at hb
    obtain rfl | rfl | rfl := hb
    · exact decode_of_illegal_prefix hwf hl (a := { p66 := true }) (fun _ => rfl) rfl rfl rfl rest
    · exact decode_of_illegal_prefix hwf hl (a := { f2 := true }) (fun _ => rfl) rfl rfl rfl rest
    · exact decode_of_illegal_prefix hwf hl (a := { f3 := true }) (fun _ => rfl) rfl rfl rfl rest
  case rex =>
    subst hm
    exact decode_of_rex_before_vex hwf hl x rest

/-! Reserved EVEX fields. -/

/-- `62` after the optional prefixes, where it begins an EVEX prefix. -/
theorem decode_evex {m : Mode} {p0 : Byte} (hm : m = .mode64 ∨ m = .mode32) (hesc : m = .mode64 ∨ fieldHi p0 = 3#2)
    (p : Prefixes) (bs : List Byte) :
    ∃ total, decode m (p.encode ++ 0x62#8 :: p0 :: bs) = decodeEvex m total p.scan none (p0 :: bs) := by
  obtain ⟨total, hdec⟩ := decode_of_scan (p := p) hm (scanPrefixes_none (b := 0x62#8) (by decide) (p0 :: bs) p.scan)
  refine ⟨total, ?_⟩
  rw [hdec, decodeRex_of_opcode (by decide), decodeOpcode_evex hesc]

/-- Without embedded rounding `L'L = 11` is illegal, and a zeroing writemask of number 0 always is (30_encoding.md R109,
R112). -/
theorem evexIllegal_of_reserved {e : Evex} {ll : BitVec 2} {b : Bool} {rm : RmOperand} {modrm : Byte}
    (hmod : fieldHi modrm = 3#2 ↔ rm.isMem = false)
    (h : (ll = 3#2 ∧ (b = false ∨ rm.isMem = true)) ∨ (e.z = true ∧ e.aaa = 0#3)) : evexIllegal e ll b modrm = true := by
  rcases h with ⟨rfl, rfl | hmem⟩ | ⟨hz, ha⟩
  · rfl
  · have : fieldHi modrm ≠ 3#2 := fun h3 => by simp [hmod.mp h3] at hmem
    simp [evexIllegal, this]
  · simp [evexIllegal, Evex.maskOk, hz, ha]

/-- Settles O6: reserved bits of P0 and P1 make the encoding illegal before its opcode is looked at, the other fields once
ModRM is known. -/
theorem evexReservedIsUndefined : Obligations.EvexReservedIsUndefined := by
  refine ⟨fun m p p0 p1 p2 op reg rm rest hwf hm hres => ?payload, fun m p e ll b reg rm rest hadm hwf hres => ?fields⟩
  case payload =>
    have hmode : m = .mode64 ∨ m = .mode32 := hm.imp_right And.left
    obtain ⟨total, hdec⟩ := decode_evex hmode (hm.imp_right And.right) p (p1 :: p2 :: op :: (rm.encode reg ++ rest))
    have hill : (p.scan.illegalBeforeVex none || p0.extractLsb' 2 2 != 0#2 || !bitAt p1 2) = true := by
      simpa [bitAt, or_assoc] using Or.inr hres
    simp only [List.append_assoc, List.cons_append, List.nil_append]
    rw [hdec]
    exact decodeEvex_of_illegal hill hwf p2 op reg rest
  case fields =>
    have hbytes : p.encode ++ e.bytes ll b ++ [0x58#8] ++ rm.encode reg ++ rest =
        p.encode ++ 0x62#8 :: ((e.bytes ll b).tail ++ 0x58#8 :: (rm.encode reg ++ rest)) := by
      simp [Evex.bytes]
    obtain ⟨total, hdec⟩ := decode_evex (mode_of_admits hadm) (escape_of_admits hadm (fieldHi_evex e)) p _
    rw [hbytes]
    refine hdec.trans ((decodeEvex_bytes e ll b _).trans ?_)
    rw [unrestricted_of_admits hadm]
    exact finish_of_bad _ reg hwf (fun _ hmod => evexIllegal_of_reserved hmod hres) rest

/-! Other instructions. -/

section Other
variable {m : Mode} {rest : List Byte}

/-- `0F 58` is an instruction of the legacy scheme with `66` alone (30_encoding.md R86). -/
theorem decode_legacy_other {bs : List Byte} {a : PrefixScan} (hm : m = .mode64 ∨ m = .mode32)
    (hscan : scanPrefixes bs {} = .done a (0x0F#8 :: 0x58#8 :: rest)) (hlock : a.lock = false)
    (hother : (a.f2 || a.f3 || !a.p66) = true) : decode m bs = .refused .otherInstruction := by
  rw [decode_eq_decodeRex hm hscan, decodeRex_of_opcode (by decide), decodeOpcode_legacy]
  obtain ⟨mk, hdec⟩ := decodeLegacy_addpd (mode := m) (total := bs.length) (a := a) (rex := none) rest
  rw [hdec, hlock]
  exact selectForm_mismatch hother

/-- An opcode without prefixes that is not REX. -/
theorem decode_opcode {op : Byte} (hm : m = .mode64 ∨ m = .mode32) (hprefix : prefixByte op = none)
    (hrex : m = .mode64 → op.extractLsb' 4 4 ≠ 4#4) :
    decode m (op :: rest) = decodeOpcode m (op :: rest).length {} none (op :: rest) := by
  rw [decode_eq_decodeRex hm (scanPrefixes_none hprefix rest {})]
  exact if_neg fun h => hrex h.1 h.2

/-- A byte that is neither `0F` nor an escape byte is the opcode of another instruction. -/
theorem decodeOpcode_other {total : Nat} {a : PrefixScan} {rex : Option Rex} {op : Byte}
    (h : op ∉ [0x0F#8, 0xC5#8, 0xC4#8, 0x62#8]) :
    decodeOpcode m total a rex (op :: rest) = .refused .otherInstruction := by
  simp only [List.mem_cons, List.not_mem_nil, or_false, not_or] at h
  simp [decodeOpcode, h]

/-- In 32-bit mode an escape byte before a byte whose bits 7:6 are not `11` is the opcode of another instruction
(30_encoding.md R104, R114). -/
theorem decodeOpcode_no_escape {total : Nat} {a : PrefixScan} {rex : Option Rex} {op b : Byte}
    (hop : op ∈ [0x62#8, 0xC4#8, 0xC5#8]) (hb : fieldHi b ≠ 3#2) :
    decodeOpcode .mode32 total a rex (op :: b :: rest) = .refused .otherInstruction := by
  have hesc : escapeByte .mode32 (b :: rest) = some false := by
    rw [escapeByte, beq_false_of_ne hb]
    rfl
  simp only [List.mem_cons, List.not_mem_nil, or_false] at hop
  rcases hop with rfl | rfl | rfl <;> simp [decodeOpcode, hesc]

/-- In 32-bit mode there is no REX: `40` to `4F` are opcodes of other instructions. -/
theorem opcode_of_rex_byte {b : Byte} (h : b.extractLsb' 4 4 = 4#4) :
    prefixByte b = none ∧ b ∉ [0x0F#8, 0xC5#8, 0xC4#8, 0x62#8] := by
  revert b
  decide

end Other

/-- Settles O7: the fields that select the form speak against it in `selectForm`, or the opcode byte in `decodeOpcode`. -/
theorem otherInstructionsAreRefused : Obligations.OtherInstructionsAreRefused := by
  refine ⟨fun m rest hm => ⟨?plain, fun b hb => ?repeats⟩, fun m v1 op rest hm hother => ?vex2,
    fun m v1 v2 op rest hm hother => ?vex3, fun m p0 p1 p2 op rest hm hres0 hres1 hother => ?evex, fun b rest hb => ?rex,
    fun op b rest hop hb => ?noEscape⟩
  case plain => exact decode_legacy_other (a := {}) hm rfl rfl rfl
  case repeats =>
    simp only [List.mem_cons, List.not_mem_nil, or_false] at hb
    obtain rfl | rfl := hb
    · exact ⟨decode_legacy_other (a := { f2 := true }) hm rfl rfl rfl,
        decode_legacy_other (a := { p66 := true, f2 := true }) hm rfl rfl rfl,
        decode_legacy_other (a := { p66 := true, f2 := true }) hm rfl rfl rfl⟩
    · exact ⟨decode_legacy_other (a := { f3 := true }) hm rfl rfl rfl,
        decode_legacy_other (a := { p66 := true, f3 := true }) hm rfl rfl rfl,
        decode_legacy_other (a := { p66 := true, f3 := true }) hm rfl rfl rfl⟩
  case vex2 =>
    rw [decode_opcode (hm.imp_right And.left) (by decide) (fun _ => by decide), decodeOpcode_vex2 (hm.imp_right And.right)]
    exact selectForm_mismatch (by simpa using hother)
  case vex3 =>
    rw [decode_opcode (hm.imp_right And.left) (by decide) (fun _ => by decide), decodeOpcode_vex3 (hm.imp_right And.right)]
    exact selectForm_mismatch (by simpa [or_assoc] using hother)
  case evex =>
    rw [decode_opcode (hm.imp_right And.left) (by decide) (fun _ => by decide), decodeOpcode_evex (hm.imp_right And.right)]
    have hill : (({} : PrefixScan).illegalBeforeVex none || p0.extractLsb' 2 2 != 0#2 || !bitAt p1 2) = false := by
      simp [PrefixScan.illegalBeforeVex, bitAt, hres0, hres1]
    rw [decodeEvex, hill]
    exact selectForm_mismatch (by simpa [bitAt, or_assoc] using hother)
  case rex =>
    obtain ⟨hprefix, hother⟩ := opcode_of_rex_byte hb
    have hscan : scanPrefixes (0x66#8 :: b :: rest) {} = .done { p66 := true } (b :: rest) :=
      scanPrefixes_none hprefix rest _
    constructor
    · rw [decode_opcode (.inr rfl) hprefix (fun h => nomatch h)]
      exact decodeOpcode_other hother
    · rw [decode_eq_decodeRex (.inr rfl) hscan]
      exact decodeOpcode_other hother
  case noEscape =>
    have hopcode : prefixByte op = none := by
      revert op
      decide
    rw [decode_opcode (.inr rfl) hopcode (fun h => nomatch h)]
    exact decodeOpcode_no_escape hop hb

end Sys2Proof
end

section
/-! No bit of an encoding is dropped: each stage of 30_encoding.md R116 reads the bytes that the encoder writes for what it
answers, and the prefix bytes up to their order (R87). -/

namespace Sys2Proof

/-! The operand. -/

theorem disp32Bytes_littleEndian (b : Nat → Byte) : disp32Bytes (Machine.littleEndian b 3) = [b 0, b 1, b 2, b 3] := by
  have hbyte (k : Nat) (hk : k ≤ 3) := Machine.extractLsb'_littleEndian b hk
  simp only [disp32Bytes, List.cons.injEq, and_true]
  exact ⟨hbyte 0 (by omega), hbyte 1 (by omega), hbyte 2 (by omega), hbyte 3 (by omega)⟩

theorem readDisp32_eq_bytes {bs rest : List Byte} {d : BitVec 32} (h : readDisp32 bs = some (d, rest)) :
    bs = disp32Bytes d ++ rest := by
  obtain rfl := Machine.readDisp32_eq_littleEndian h
  unfold readDisp32 at h
  split at h
  · cases h
    rw [disp32Bytes_littleEndian]
    rfl
  · cases h

/-- `mod` selects the displacement it reads. -/
theorem readDisp_eq_bytes {mod : BitVec 2} {bs rest : List Byte} {d : Disp} (hmod : mod ≠ 3#2)
    (h : readDisp mod bs = some (d, rest)) : d.mod = mod ∧ bs = d.bytes ++ rest := by
  unfold readDisp at h
  split at h
  · rename_i h0
    cases h
    exact ⟨h0.symm, rfl⟩
  · rename_i h0
    split at h
    · rename_i h1
      cases bs with
      | nil => cases h
      | cons b bs =>
        cases h
        exact ⟨h1.symm, rfl⟩
    · rename_i h1
      obtain ⟨⟨v, rest'⟩, hd, he⟩ := Option.map_eq_some_iff.mp h
      cases he
      have h2 : mod = 2#2 := by
        revert mod
        decide
      exact ⟨h2.symm, readDisp32_eq_bytes hd⟩

theorem byte233_eq {b : Byte} {hi : BitVec 2} {lo : BitVec 3} (hhi : fieldHi b = hi) (hlo : fieldLo b = lo) :
    byte233 hi (fieldMid b) lo = b := by
  rw [← hhi, ← hlo, byte233_fields]

/-- The SIB byte and the displacement, after a ModRM byte that asks for them. -/
theorem readSib_eq_encode {modrm sib : Byte} {bs rest : List Byte} {m : MemOperand} (hmem : fieldHi modrm ≠ 3#2)
    (hsib : fieldLo modrm = 4#3) (h : readSib (fieldHi modrm) sib bs = some (m, rest)) :
    modrm :: sib :: bs = RmOperand.encode (fieldMid modrm) (.mem m) ++ rest := by
  unfold readSib at h
  split at h
  · rename_i hbase
    obtain ⟨⟨d, rest'⟩, hd, he⟩ := Option.map_eq_some_iff.mp h
    cases he
    rw [RmOperand.encode, byte233_eq hbase.1 hsib, byte233_eq rfl hbase.2, readDisp32_eq_bytes hd]
    rfl
  · obtain ⟨⟨d, rest'⟩, hd, he⟩ := Option.map_eq_some_iff.mp h
    cases he
    obtain ⟨hmod, hbs⟩ := readDisp_eq_bytes hmem hd
    rw [RmOperand.encode, byte233_eq hmod.symm hsib, byte233_fields, hbs]
    rfl

/-- An operand that is read is encoded by the bytes it was read from. -/
theorem readOperand_eq_encode {modrm : Byte} {bs rest : List Byte} {rm : RmOperand}
    (h : readOperand modrm bs = some (rm, rest)) : modrm :: bs = rm.encode (fieldMid modrm) ++ rest := by
  unfold readOperand at h
  split at h
  · rename_i hreg
    cases h
    rw [RmOperand.encode, byte233_eq hreg rfl]
    rfl
  · rename_i hmem
    split at h
    · rename_i hsib
      cases bs with
      | nil => cases h
      | cons sib bs =>
        obtain ⟨⟨m, rest'⟩, hs, he⟩ := Option.map_eq_some_iff.mp h
        cases he
        exact readSib_eq_encode hmem hsib hs
    · split at h
      · rename_i hdisp
        obtain ⟨⟨d, rest'⟩, hd, he⟩ := Option.map_eq_some_iff.mp h
        cases he
        rw [RmOperand.encode, byte233_eq hdisp.1 hdisp.2, readDisp32_eq_bytes hd]
        rfl
      · obtain ⟨⟨d, rest'⟩, hd, he⟩ := Option.map_eq_some_iff.mp h
        cases he
        obtain ⟨hmod, hbs⟩ := readDisp_eq_bytes hmem hd
        rw [RmOperand.encode, byte233_eq hmod.symm rfl, hbs]
        rfl

/-! The prefix bytes. -/

/-- The byte of a prefix (30_encoding.md R83). -/
def PrefixByte.byte : PrefixByte → Byte
  | .seg s => segByte s
  | .addressSize => 0x67#8
  | .operandSize => 0x66#8
  | .lock => 0xF0#8
  | .repne => 0xF2#8
  | .rep => 0xF3#8

theorem byte_of_prefixByte {b : Byte} {p : PrefixByte} (h : prefixByte b = some p) : b = p.byte := by
  cases p with
  | seg s => exact prefixByte_eq_some_seg h
  | addressSize | operandSize | lock | repne | rep =>
    revert b
    decide

/-- The bytes of the prefixes seen: the optional ones as the encoder writes them, then the others. -/
def PrefixScan.bytes (a : PrefixScan) : List Byte :=
  a.prefixes.encode ++ ((if a.p66 then [0x66#8] else []) ++ ((if a.lock then [0xF0#8] else []) ++
    ((if a.f2 then [0xF2#8] else []) ++ if a.f3 then [0xF3#8] else [])))

/-- One more prefix is one more byte, whatever its place. -/
theorem PrefixScan.add_bytes {a a' : PrefixScan} {p : PrefixByte} (h : a.add p = some a') :
    (p.byte :: a.bytes).Perm a'.bytes := by
  obtain ⟨seg, a67, p66, lock, f2, f3⟩ := a
  cases p <;>
  · simp only [PrefixScan.add] at h
    split at h
    · cases h
    · rename_i hnew
      cases h
      simp only [Bool.not_eq_true, Option.isSome_eq_false_iff, Option.isNone_iff_eq_none] at hnew
      subst hnew
      simp only [PrefixScan.bytes, PrefixScan.prefixes, Prefixes.encode, PrefixByte.byte, if_true, Bool.false_eq_true,
        if_false, List.append_assoc, List.nil_append, List.cons_append]
      grind

/-- The prefix bytes are read in an order of their own. -/
theorem scanPrefixes_perm {bs rest : List Byte} {a a' : PrefixScan} (h : scanPrefixes bs a = .done a' rest) :
    ∃ pre, bs = pre ++ rest ∧ (pre ++ a.bytes).Perm a'.bytes ∧ ∀ b ∈ pre, (prefixByte b).isSome = true := by
  induction bs generalizing a with
  | nil => cases h
  | cons b bs ih =>
    rw [scanPrefixes] at h
    split at h
    · cases h
      exact ⟨[], rfl, .refl _, by simp⟩
    · rename_i p hp
      split at h
      · cases h
      · rename_i a₁ hadd
        obtain ⟨pre, hbs, hperm, hpre⟩ := ih h
        obtain rfl := byte_of_prefixByte hp
        have hmoved : (p.byte :: pre ++ a.bytes).Perm (pre ++ a₁.bytes) :=
          List.perm_middle.symm.trans ((PrefixScan.add_bytes hadd).append_left pre)
        have hall : ∀ b ∈ p.byte :: pre, (prefixByte b).isSome = true :=
          List.forall_mem_cons.mpr ⟨Option.isSome_of_eq_some hp, hpre⟩
        exact ⟨p.byte :: pre, congrArg _ hbs, hmoved.trans hperm, hall⟩

/-! The prefix schemes. -/

/-- The bytes `bs` after the prefixes begin with those that the encoder writes for `i` after its own. -/
def Spells (a : PrefixScan) (bs : List Byte) (i : Instr) : Prop :=
  ∃ tail rest, bs = tail ++ rest ∧ encode i = a.bytes ++ tail

/-- A scheme that answers an instruction has read its operand's bytes. -/
theorem selectForm_finish_encoded {mode : Mode} {a67 : Bool} {total n : Nat} {ill mismatch restricted : Bool}
    {bad : Byte → Bool} {mk : BitVec 3 → RmOperand → Instr} {bs : List Byte} {i : Instr}
    (h : selectForm ill mismatch restricted (finish mode total a67 ill bad mk bs) = .ok i n) :
    mismatch = false ∧ ill = false ∧ ∃ reg rm rest modrm, i = mk reg rm ∧ bs = rm.encode reg ++ rest ∧ bad modrm = false ∧
      (fieldHi modrm = 3#2 ↔ rm.isMem = false) := by
  obtain ⟨hmis, -, hfin⟩ := selectForm_eq_ok h
  obtain ⟨modrm, rest, rm, rest', rfl, hread, -, hill, hbad, hi, -⟩ := finish_eq_ok hfin
  exact ⟨hmis, hill, _, rm, rest', modrm, hi, readOperand_eq_encode hread, hbad, (readOperand_eq_some hread).2⟩

theorem PrefixScan.bytes_of_legacy {a : PrefixScan} (hmis : (a.f2 || a.f3 || !a.p66) = false) (hill : a.lock = false) :
    a.bytes = a.prefixes.encode ++ [0x66#8] := by
  simp at hmis
  simp [PrefixScan.bytes, hmis, hill]

theorem PrefixScan.bytes_of_vex {a : PrefixScan} {rex : Option Rex} (hill : a.illegalBeforeVex rex = false) :
    a.bytes = a.prefixes.encode ∧ rex = none := by
  simp [PrefixScan.illegalBeforeVex] at hill
  simp [PrefixScan.bytes, hill]

theorem decodeLegacy_spells {mode : Mode} {total n : Nat} {a : PrefixScan} {rex : Option Rex} {bs : List Byte} {i : Instr}
    (h : decodeLegacy mode total a rex bs = .ok i n) : Spells a ((rex.map Rex.byte).toList ++ 0x0F#8 :: bs) i := by
  unfold decodeLegacy at h
  split at h
  · cases h
  · split at h
    · cases h
    · rename_i op bs hop
      obtain rfl : op = 0x58#8 := not_not.mp hop
      obtain ⟨hmis, hill, reg, rm, rest, -, rfl, rfl, -, -⟩ := selectForm_finish_encoded h
      refine ⟨(rex.map Rex.byte).toList ++ 0x0F#8 :: 0x58#8 :: rm.encode reg, rest, by simp, ?_⟩
      rw [PrefixScan.bytes_of_legacy hmis hill]
      cases rex <;> simp [encode, Instr.prefixes, Instr.head, Instr.operand, Instr.modrmReg]

/-- The VEX and EVEX schemes admit the optional prefixes only, so what follows the prefixes of the encoding is what follows
those read. -/
theorem spells_of_fields {a : PrefixScan} {rex : Option Rex} {i : Instr} {head bs rest : List Byte} {reg : BitVec 3}
    {rm : RmOperand} (hill : a.illegalBeforeVex rex = false) (hp : i.prefixes = a.prefixes) (hhead : i.head = head)
    (hrm : i.operand = rm) (hreg : i.modrmReg = reg) (hbs : bs = head ++ (rm.encode reg ++ rest)) :
    Spells a ((rex.map Rex.byte).toList ++ bs) i := by
  subst hhead hrm hreg hbs
  obtain ⟨hbytes, rfl⟩ := PrefixScan.bytes_of_vex hill
  refine ⟨i.head ++ i.operand.encode i.modrmReg, rest, by simp, ?_⟩
  rw [encode, hp, hbytes, List.append_assoc]

/-- A payload byte is the byte of the fields it is read as. -/
theorem vex2_bytes_of {v1 : Byte} (h : v1.extractLsb' 0 2 = 1#2) : (vex2Of v1).bytes (bitAt v1 2) = [0xC5#8, v1] := by
  have hv1 : bit1 (!!bitAt v1 7) ++ ~~~~~~(v1.extractLsb' 3 4) ++ bit1 (bitAt v1 2) ++ 1#2 = v1 := by
    revert v1
    decide
  exact congrArg (fun b => [0xC5#8, b]) hv1

theorem vex3_bytes_of {v1 v2 : Byte} (h1 : v1.extractLsb' 0 5 = 1#5) (h2 : v2.extractLsb' 0 2 = 1#2) :
    (vex3Of v1 v2).bytes (bitAt v2 2) = [0xC4#8, v1, v2] := by
  have hv1 : bit1 (!!bitAt v1 7) ++ bit1 (!!bitAt v1 6) ++ bit1 (!!bitAt v1 5) ++ 1#5 = v1 := by
    clear h2
    revert v1
    decide
  have hv2 : bit1 (bitAt v2 7) ++ ~~~~~~(v2.extractLsb' 3 4) ++ bit1 (bitAt v2 2) ++ 1#2 = v2 := by
    clear hv1 h1
    revert v2
    decide
  exact congrArg₂ (fun b c => [0xC4#8, b, c]) hv1 hv2

theorem evex_bytes_of {p0 p1 : Byte} (p2 : Byte) (hmap : p0.extractLsb' 0 2 = 1#2) (hres0 : p0.extractLsb' 2 2 = 0#2)
    (hpp : p1.extractLsb' 0 2 = 1#2) (hres1 : bitAt p1 2 = true) (hw : bitAt p1 7 = true) :
    (evexOf p0 p1 p2).bytes (p2.extractLsb' 5 2) (bitAt p2 4) = [0x62#8, p0, p1, p2] := by
  have hp0 : bit1 (!!bitAt p0 7) ++ bit1 (!!bitAt p0 6) ++ bit1 (!!bitAt p0 5) ++ bit1 (!!bitAt p0 4) ++ 0#2 ++ 1#2 = p0 := by
    clear hpp hres1 hw
    revert p0
    decide
  have hp1 : 1#1 ++ ~~~~~~(p1.extractLsb' 3 4) ++ 1#1 ++ 1#2 = p1 := by
    clear hp0 hmap hres0
    revert p1
    decide
  have hp2 : bit1 (bitAt p2 7) ++ p2.extractLsb' 5 2 ++ bit1 (bitAt p2 4) ++ bit1 (!!bitAt p2 3) ++ p2.extractLsb' 0 3 =
      p2 := by
    clear hp0 hp1 hmap hres0 hpp hres1 hw
    revert p2
    decide
  simp only [Evex.bytes, evexOf, hp0, hp1, hp2]

/-- Whichever form an EVEX encoding selects, it has the fields of the encoding. -/
theorem evexForm_fields (p : Prefixes) {e : Evex} {ll : BitVec 2} {b : Bool} (reg : BitVec 3) {rm : RmOperand} {modrm : Byte}
    (hmod : fieldHi modrm = 3#2 ↔ rm.isMem = false) (hbad : evexIllegal e ll b modrm = false) :
    (evexForm p e ll b reg rm).prefixes = p ∧ (evexForm p e ll b reg rm).head = e.bytes ll b ++ [0x58#8] ∧
      (evexForm p e ll b reg rm).operand = rm ∧ (evexForm p e ll b reg rm).modrmReg = reg := by
  unfold evexForm
  split
  · exact ⟨rfl, rfl, rfl, rfl⟩
  · rename_i hne
    have h3 : ll ≠ 3#2 := by
      rintro rfl
      have : b = true ∧ rm.isMem = false := by simpa [evexIllegal, hmod] using (Bool.or_eq_false_iff.mp hbad).1
      cases rm with
      | reg r => exact hne r rfl this.1
      | mem m => exact Bool.noConfusion this.2
    have hcases : ll = 0#2 ∨ ll = 1#2 ∨ ll = 2#2 := by
      clear hbad
      revert ll
      decide
    rcases hcases with rfl | rfl | rfl <;> exact ⟨rfl, rfl, rfl, rfl⟩

theorem decodeVex2_spells {mode : Mode} {total n : Nat} {a : PrefixScan} {rex : Option Rex} {bs : List Byte} {i : Instr}
    (h : decodeVex2 mode total a rex bs = .ok i n) : Spells a ((rex.map Rex.byte).toList ++ 0xC5#8 :: bs) i := by
  unfold decodeVex2 at h
  split at h
  · rename_i v1 op bs
    obtain ⟨hmis, hill, reg, rm, rest, -, rfl, rfl, -, -⟩ := selectForm_finish_encoded h
    simp only [Bool.or_eq_false_iff, bne_eq_false_iff_eq] at hmis
    obtain ⟨hpp, rfl⟩ := hmis
    have hv := vex2_bytes_of hpp
    split <;>
    · rename_i hl
      simp only [hl] at hv
      exact spells_of_fields hill rfl (congrArg (· ++ [0x58#8]) hv) rfl rfl rfl
  · cases h

theorem decodeVex3_spells {mode : Mode} {total n : Nat} {a : PrefixScan} {rex : Option Rex} {bs : List Byte} {i : Instr}
    (h : decodeVex3 mode total a rex bs = .ok i n) : Spells a ((rex.map Rex.byte).toList ++ 0xC4#8 :: bs) i := by
  unfold decodeVex3 at h
  split at h
  · rename_i v1 v2 op bs
    obtain ⟨hmis, hill, reg, rm, rest, -, rfl, rfl, -, -⟩ := selectForm_finish_encoded h
    simp only [Bool.or_eq_false_iff, bne_eq_false_iff_eq] at hmis
    obtain ⟨⟨hmap, hpp⟩, rfl⟩ := hmis
    have hv := vex3_bytes_of hmap hpp
    split <;>
    · rename_i hl
      simp only [hl] at hv
      exact spells_of_fields hill rfl (congrArg (· ++ [0x58#8]) hv) rfl rfl rfl
  · cases h

theorem decodeEvex_spells {mode : Mode} {total n : Nat} {a : PrefixScan} {rex : Option Rex} {bs : List Byte} {i : Instr}
    (h : decodeEvex mode total a rex bs = .ok i n) : Spells a ((rex.map Rex.byte).toList ++ 0x62#8 :: bs) i := by
  unfold decodeEvex at h
  split at h
  · rename_i p0 p1 p2 op bs
    obtain ⟨hmis, hill, reg, rm, rest, modrm, rfl, rfl, hlegal, hmod⟩ := selectForm_finish_encoded h
    simp only [Bool.or_eq_false_iff, bne_eq_false_iff_eq, Bool.not_eq_false'] at hmis hill
    obtain ⟨⟨⟨hmap, hpp⟩, hw⟩, rfl⟩ := hmis
    obtain ⟨⟨hvex, hres0⟩, hres1⟩ := hill
    obtain ⟨hp, hhead, hrm, hreg⟩ := evexForm_fields a.prefixes reg hmod hlegal
    rw [evex_bytes_of p2 hmap hres0 hpp hres1 hw] at hhead
    exact spells_of_fields hvex hp hhead hrm hreg rfl
  · cases h

/-! The whole decoder. -/

theorem decodeOpcode_spells {mode : Mode} {total n : Nat} {a : PrefixScan} {rex : Option Rex} {bs : List Byte} {i : Instr}
    (h : decodeOpcode mode total a rex bs = .ok i n) : Spells a ((rex.map Rex.byte).toList ++ bs) i := by
  cases bs with
  | nil => cases h
  | cons op rest =>
    rw [decodeOpcode] at h
    split at h
    · rename_i hop
      subst hop
      exact decodeLegacy_spells h
    · split at h
      · rename_i hesc
        split at h
        · cases h
        · cases h
        · split at h
          · rename_i hop
            subst hop
            exact decodeVex2_spells h
          · rename_i h5
            split at h
            · rename_i hop
              subst hop
              exact decodeVex3_spells h
            · rename_i h4
              obtain rfl : op = 0x62#8 := (hesc.resolve_left h5).resolve_left h4
              exact decodeEvex_spells h
      · cases h

theorem decodeRex_spells {mode : Mode} {total n : Nat} {a : PrefixScan} {bs : List Byte} {i : Instr}
    (h : decodeRex mode total a bs = .ok i n) : Spells a bs i := by
  unfold decodeRex at h
  split at h
  · cases h
  · rename_i b rest
    split at h
    · rename_i hrex
      split at h
      · cases h
      · split at h
        · cases h
        · have := decodeOpcode_spells h
          rwa [Option.map_some, byte_rexOf hrex.2] at this
    · exact decodeOpcode_spells h

/-- Settles O3: the prefix bytes by `scanPrefixes_perm`, the bytes after them by `decodeRex_spells`. -/
theorem everyBitIsDecoded : Obligations.EveryBitIsDecoded := by
  intro m bs i n h
  have hlen : n = (encode i).length := (decode_length h).1.trans (encode_length i).1.symm
  unfold decode at h
  split at h
  · split at h
    · cases h
    · cases h
    · rename_i a rest hscan
      obtain ⟨pre, rfl, hperm, hpre⟩ := scanPrefixes_perm hscan
      replace hperm : pre.Perm a.bytes := List.append_nil pre ▸ hperm
      obtain ⟨tail, rest, rfl, henc⟩ := decodeRex_spells h
      refine ⟨pre, a.bytes, tail, rest, by rw [List.append_assoc], henc, hperm, hpre, ?_⟩
      rw [hlen, henc, List.length_append, hperm.length_eq]
  · cases h

end Sys2Proof
end

section
/-! Ignored prefixes (30_encoding.md R83, R122): with other optional prefixes an instruction performs the same addition, but for
its length and, with a memory operand, the segment that a failing segment check is reported for. -/

namespace Sys2Proof.Machine

/-! The addition of an instruction with other prefixes. -/

/-- One addition on the outcome `o` of its source read, up to the advance of `RIP`. -/
def addRead (op : AddOp) (s : State) (o : Result (List Double)) : Result State :=
  andThen (checkEnabled op.enable s) fun _ =>
  andThen o fun bs =>
  andThen (packedAdd s (op.rounding s) op.er.isSome (lanePairs s op.src1 (op.act s) bs)) fun r =>
  .next (r.2.setVec op.dst (newVec s.cfg op.upper op.zeroing r.1 (s.vec op.dst)))

theorem andThen_assoc {α β γ : Type} (o : Result α) (f : α → Result β) (g : β → Result γ) :
    andThen (andThen o f) g = andThen o fun a => andThen (f a) g := by
  cases o <;> rfl

theorem execAdd_eq_addRead (op : AddOp) (s : State) :
    execAdd op s = andThen (addRead op s (readSource s op.align op.src2 (op.act s))) (advance op.len) := by
  simp only [execAdd, addRead, andThen_assoc, andThen_next, AddOp.act]

theorem length_withPrefixes (p : Prefixes) (i : Instr) :
    (withPrefixes p i).length = p.length + i.headLength + i.operand.length := by
  cases i <;> rfl

/-- Besides its length, only the second source of the addition depends on the prefixes. -/
theorem opOf_withPrefixes (p : Prefixes) (i : Instr) (s : State) :
    opOf s (withPrefixes p i) =
      { opOf s i with src2 := secondSource s (withPrefixes p i), len := (withPrefixes p i).length } := by
  cases i <;> rfl

/-- How the second source depends on the prefixes. -/
theorem secondSource_withPrefixes (i : Instr) (s : State) :
    ∃ hi x b n bc, ∀ p, secondSource s (withPrefixes p i) =
      sourceOf s p hi x b n (withPrefixes p i).length bc i.operand := by
  cases i
  case vaddpdEvex512Er p e rc reg rm => exact ⟨e.x, e.x, e.b, 8, false, fun _ => rfl⟩
  all_goals exact ⟨_, _, _, _, _, fun _ => rfl⟩

/-- What the source read of an instruction with the prefixes `p` answers. -/
def readWith (s : State) (i : Instr) (p : Prefixes) : Result (List Double) :=
  readSource s (isLegacy i) (secondSource s (withPrefixes p i)) (activity s i)

theorem exec_withPrefixes (p : Prefixes) (i : Instr) (s : State) :
    exec (withPrefixes p i) s =
      andThen (addRead (opOf s i) s (readWith s i p)) (advance (withPrefixes p i).length) := by
  rw [exec_eq, execAdd_eq_addRead, opOf_withPrefixes]
  rfl

/-! The memory operand in 64-bit mode. -/

/-- No override, or one that adds no base in 64-bit mode (20_memory.md R61). -/
def IgnoredOverride (o : Option Seg) : Prop := o ∈ [none, some Seg.es, some Seg.cs, some Seg.ss, some Seg.ds]

/-- In 64-bit mode a segment other than FS and GS has base 0. -/
theorem linearBase_segmentOf {s : State} {p : Prefixes} (hm : s.mode = .mode64) (hp : IgnoredOverride p.seg) (b : Bool)
    (m : MemOperand) : linearBase s (segmentOf p b m) = 0#64 := by
  have hseg : segmentOf p b m ≠ .fs ∧ segmentOf p b m ≠ .gs := by
    unfold IgnoredOverride at hp
    unfold segmentOf
    rcases defaultSegment_eq_or b m with hd | hd <;>
    · rw [hd]
      revert hp
      generalize p.seg = o
      revert o
      decide
  exact if_pos ⟨hm, hseg⟩

/-- A displacement relative to `RIP` is the only address that depends on the length of the instruction. -/
theorem effectiveAddress_congr {s : State} {p q : Prefixes} (ha : p.a67 = q.a67) {len len' : Nat} {m : MemOperand}
    (hlen : len = len' ∨ ∀ d, m ≠ .dispOnly d) (x b : Bool) (n : Nat) :
    effectiveAddress s p x b n len m = effectiveAddress s q x b n len' m := by
  have haddr : addr32 s p = addr32 s q := by rw [addr32, addr32, ha]
  rw [effectiveAddress_eq, effectiveAddress_eq, haddr]
  rcases hlen with rfl | hm
  · rfl
  · cases m with
    | dispOnly d => exact absurd rfl (hm d)
    | base rm d => rfl
    | sib sc ix lo d => rfl
    | sibNoBase sc ix d => rfl

/-- The outcome is that of a failing segment check: #SS(0) or #GP(0), with nothing changed but the counter of draws. -/
def IsSegmentFault {α : Type} (s : State) (o : Result α) : Prop :=
  ∃ n, (n = s.draws ∨ n = s.draws + 1) ∧
    (o = .fault (.stackSegment { s with draws := n }) ∨ o = .fault (.generalProtection { s with draws := n }))

theorem segmentFault_isSegmentFault (s : State) (seg dflt : Seg) (m : Bool) :
    IsSegmentFault s (segmentFault s seg dflt m) := segmentFault_eq s seg dflt m

/-- Sequencing passes the fault on. -/
theorem IsSegmentFault.andThen {α β : Type} {s : State} {o : Result α} (h : IsSegmentFault s o) (f : α → Result β) :
    IsSegmentFault s (andThen o f) := by
  obtain ⟨n, hn, rfl | rfl⟩ := h
  · exact ⟨n, hn, .inl rfl⟩
  · exact ⟨n, hn, .inr rfl⟩

theorem IsSegmentFault.ne_next {α : Type} {s : State} {o : Result α} (h : IsSegmentFault s o) (v : α) : o ≠ .next v := by
  obtain ⟨n, -, rfl | rfl⟩ := h <;> nofun

section SameBase
variable {s : State} {seg seg' : Seg} (hm : s.mode = .mode64) (hbase : linearBase s seg = linearBase s seg') (ea : Addr)
include hbase

theorem linear_of_same_base (off : Nat) : linear s seg ea off = linear s seg' ea off := by
  rw [linear, linear, hbase]

theorem refusedBytes_of_same_base (offs : List Nat) : refusedBytes s seg ea offs = refusedBytes s seg' ea offs := by
  simp only [refusedBytes, linear_of_same_base hbase]

theorem aligned16_of_same_base : aligned16 s seg ea = aligned16 s seg' ea := by
  rw [aligned16, aligned16, linear_of_same_base hbase]

include hm

theorem segmentOk_of_same_base (offs : List Nat) : segmentOk s seg ea offs = segmentOk s seg' ea offs := by
  simp only [segmentOk, if_pos hm, linear_of_same_base hbase]

theorem accessible_of_same_base (offs : List Nat) : accessible s seg ea offs = accessible s seg' ea offs := by
  rw [accessible, accessible, segmentOk_of_same_base hm hbase, refusedBytes_of_same_base hbase]

/-- The checks of an operand agree in two segments of the same base, but for the exception of a failing segment check. -/
theorem checkOperand_of_same_base (dflt dflt' : Seg) (align : Bool) (offs : List Nat) :
    checkOperand s seg dflt ea align offs = checkOperand s seg' dflt' ea align offs ∨
      (IsSegmentFault s (checkOperand s seg dflt ea align offs) ∧
        IsSegmentFault s (checkOperand s seg' dflt' ea align offs)) := by
  have hx : crosses4G s ea offs = false := by simp [crosses4G, hm]
  have hok := segmentOk_of_same_base hm hbase ea offs
  cases hseg : segmentOk s seg' ea offs with
  | false =>
    right
    rw [checkOperand_of_segment_fails hx hseg, checkOperand_of_segment_fails hx (hok.trans hseg)]
    exact ⟨segmentFault_isSegmentFault .., segmentFault_isSegmentFault ..⟩
  | true =>
    left
    simp only [checkOperand, hx, hok, hseg, aligned16_of_same_base hbase, refusedBytes_of_same_base hbase]
    rfl

theorem readSource_of_same_base (dflt dflt' : Seg) (bcast align : Bool) (act : List Bool) :
    readSource s align (.mem seg dflt ea bcast) act = readSource s align (.mem seg' dflt' ea bcast) act ∨
      (IsSegmentFault s (readSource s align (.mem seg dflt ea bcast) act) ∧
        IsSegmentFault s (readSource s align (.mem seg' dflt' ea bcast) act)) := by
  rcases checkOperand_of_same_base hm hbase ea dflt dflt' align (offsets bcast act true) with h | ⟨h, h'⟩
  · left
    simp only [readSource, h, accessible_of_same_base hm hbase, readLane, linear_of_same_base hbase]
  · exact .inr ⟨h.andThen _, h'.andThen _⟩

end SameBase

/-! Two sets of prefixes. -/

/-- The two sets of prefixes differ in ignored ones only, for this operand (30_encoding.md R83, R122). -/
def DifferInIgnored (s : State) (rm : RmOperand) (p q : Prefixes) : Prop :=
  rm.isMem = false ∨ (s.mode = .mode64 ∧ p.a67 = q.a67 ∧ IgnoredOverride p.seg ∧ IgnoredOverride q.seg)

/-- Their sources are read alike, but for the exception of a failing segment check. -/
theorem readSource_of_ignored {s : State} {rm : RmOperand} {p q : Prefixes} (h : DifferInIgnored s rm p q) {len len' : Nat}
    (hlen : len = len' ∨ ∀ d, rm ≠ .mem (.dispOnly d)) (hi x b : Bool) (n : Nat) (bc align : Bool) (act : List Bool) :
    readSource s align (sourceOf s p hi x b n len bc rm) act = readSource s align (sourceOf s q hi x b n len' bc rm) act ∨
      (rm.isMem = true ∧ IsSegmentFault s (readSource s align (sourceOf s p hi x b n len bc rm) act) ∧
        IsSegmentFault s (readSource s align (sourceOf s q hi x b n len' bc rm) act)) := by
  cases rm with
  | reg r => exact .inl rfl
  | mem m =>
    obtain ⟨hm, ha, hp, hq⟩ := h.resolve_left Bool.noConfusion
    have hbase := (linearBase_segmentOf hm hp b m).trans (linearBase_segmentOf hm hq b m).symm
    have hea := effectiveAddress_congr (s := s) ha (hlen.imp_right fun hne d hd => hne d (congrArg _ hd)) x b n
    simp only [sourceOf, hea]
    exact (readSource_of_same_base hm hbase _ _ _ bc align act).imp_right fun hfault => ⟨rfl, hfault⟩

/-- An addition whose source read is a failing segment check has that outcome, unless an enable check fails before it. -/
theorem addRead_of_segment_faults {op : AddOp} {s : State} {o o' : Result (List Double)} (h : IsSegmentFault s o)
    (h' : IsSegmentFault s o') :
    addRead op s o = addRead op s o' ∨ (IsSegmentFault s (addRead op s o) ∧ IsSegmentFault s (addRead op s o')) := by
  unfold addRead
  cases checkEnabled op.enable s with
  | fault f => exact .inl rfl
  | refused r => exact .inl rfl
  | next u => exact .inr ⟨h.andThen _, h'.andThen _⟩

/-- Up to the advance of `RIP` the instruction does the same, but for the exception of a failing segment check. -/
theorem addRead_of_ignored {s : State} {i : Instr} {p q : Prefixes} (h : DifferInIgnored s i.operand p q)
    (hlen : p.length = q.length ∨ ∀ d, i.operand ≠ .mem (.dispOnly d)) :
    addRead (opOf s i) s (readWith s i p) = addRead (opOf s i) s (readWith s i q) ∨
      (i.operand.isMem = true ∧ IsSegmentFault s (addRead (opOf s i) s (readWith s i p)) ∧
        IsSegmentFault s (addRead (opOf s i) s (readWith s i q))) := by
  have hlen' : (withPrefixes p i).length = (withPrefixes q i).length ∨ ∀ d, i.operand ≠ .mem (.dispOnly d) :=
    hlen.imp_left fun he => by rw [length_withPrefixes, length_withPrefixes, he]
  obtain ⟨hi, x, b, n, bc, hsrc⟩ := secondSource_withPrefixes i s
  unfold readWith
  rw [hsrc, hsrc]
  rcases readSource_of_ignored h hlen' hi x b n bc (isLegacy i) (activity s i) with he | ⟨hmem, hf, hf'⟩
  · exact .inl (congrArg _ he)
  · exact (addRead_of_segment_faults hf hf').imp_right fun hfaults => ⟨hmem, hfaults⟩

/-- The advance changes `RIP` only, whatever the length. -/
theorem eq_of_advance {len len' : Nat} {s t u : State} (ht : advance len s = .next t) (hu : advance len' s = .next u) :
    t = { u with rip := t.rip } := by
  obtain ⟨-, rfl⟩ := advance_eq_next.mp ht
  obtain ⟨-, rfl⟩ := advance_eq_next.mp hu
  rfl

/-- Settles O60: the two instructions do the same up to the advance of `RIP`, which counts their bytes. -/
theorem ignoredPrefixes : Obligations.IgnoredPrefixes := by
  intro i p q s ignored checkFails a b h
  have ha : a = _ := exec_withPrefixes p i s
  have hb : b = _ := exec_withPrefixes q i s
  rw [ha, hb]
  refine ⟨fun hlen => ?equallyLong, fun hrel t u ht hu => ?otherwise⟩
  case equallyLong =>
    have hadvance : (withPrefixes p i).length = (withPrefixes q i).length := by
      rw [length_withPrefixes, length_withPrefixes, hlen]
    rcases addRead_of_ignored h (.inl hlen) with he | ⟨hmem, hf, hf'⟩
    · exact .inl (by rw [he, hadvance])
    · exact .inr ⟨hmem, hf.andThen _, hf'.andThen _⟩
  case otherwise =>
    rcases addRead_of_ignored h (.inr hrel) with he | ⟨-, hf, -⟩
    · rw [he] at ht
      obtain ⟨w, hw, ht⟩ := andThen_eq_next.mp ht
      obtain ⟨w', hw', hu⟩ := andThen_eq_next.mp hu
      obtain rfl := Host.Outcome.next.inj (hw.symm.trans hw')
      exact eq_of_advance ht hu
    · exact absurd ht ((hf.andThen _).ne_next t)

end Sys2Proof.Machine
end

section
/-! The MXCSR flags of an addition: the sticky update, the suppression under embedded rounding, and the flags at a SIMD
floating-point fault (40_numerics_double_add.md R150 to R153). -/

namespace Sys2Proof.Machine

/-! Sets of conditions and their flag bits. -/

/-- The conditions of `a` are among those of `b`. -/
def Conds.Subset (a b : Conds) : Prop := a.union b = b

theorem Conds.union_left_comm (a b c : Conds) : a.union (b.union c) = b.union (a.union c) := by
  simp [Conds.union, Bool.or_left_comm]

theorem Conds.union_self (a : Conds) : a.union a = a := by simp [Conds.union]

theorem Conds.subset_union_left (a b : Conds) : a.Subset (a.union b) := by
  simp [Conds.Subset, Conds.union]

theorem Conds.unmasked_subset (c : Conds) (s : State) : (c.unmasked s).Subset c := by
  have absorb (x y : Bool) : (x && y || x) = x := by cases x <;> simp
  simp [Conds.Subset, Conds.union, Conds.unmasked, absorb]

theorem Conds.Subset.union_right {a b : Conds} (h : a.Subset b) (c : Conds) : a.Subset (c.union b) := by
  rw [Conds.Subset, Conds.union_left_comm, h]

@[simp] theorem Conds.bits_empty : ({} : Conds).bits = 0#32 := rfl

theorem Conds.bits_union (a b : Conds) : (a.union b).bits = a.bits ||| b.bits := by
  apply BitVec.eq_of_getLsbD_eq
  intro j _
  obtain ⟨hi, hd, ho, hu, hp⟩ := (a.union b).getLsbD_bits
  obtain ⟨hi₁, hd₁, ho₁, hu₁, hp₁⟩ := a.getLsbD_bits
  obtain ⟨hi₂, hd₂, ho₂, hu₂, hp₂⟩ := b.getLsbD_bits
  rw [BitVec.getLsbD_or]
  by_cases hj : j ∈ [0, 1, 3, 4, 5]
  · simp only [List.mem_cons, List.not_mem_nil, or_false] at hj
    rcases hj with rfl | rfl | rfl | rfl | rfl
    · rw [hi, hi₁, hi₂]; rfl
    · rw [hd, hd₁, hd₂]; rfl
    · rw [ho, ho₁, ho₂]; rfl
    · rw [hu, hu₁, hu₂]; rfl
    · rw [hp, hp₁, hp₂]; rfl
  · rw [getLsbD_bits_other _ hj, getLsbD_bits_other _ hj, getLsbD_bits_other _ hj]; rfl

theorem Conds.Subset.bits_or {a b : Conds} (h : a.Subset b) : a.bits ||| b.bits = b.bits := by
  rw [← Conds.bits_union, h]

/-- A flag bit that the larger set has not, the smaller has not either. -/
theorem Conds.Subset.getLsbD_bits {a c : Conds} (h : a.Subset c) {b : Nat} (hc : c.bits.getLsbD b = false) :
    a.bits.getLsbD b = false := by
  rw [← h.bits_or, BitVec.getLsbD_or, Bool.or_eq_false_iff] at hc
  exact hc.1

/-! The flags after an addition, and at a fault. -/

/-- Settles O26: MXCSR is OR-ed with the flag bits of the conditions, which stand at five places. -/
theorem flagsAreSticky : Obligations.FlagsAreSticky := by
  intro i s t her h c
  obtain ⟨-, -, -, -, -, hmx, -, -⟩ := exec_eq_next h
  rw [her] at hmx
  change t.mxcsr = s.mxcsr ||| c.bits at hmx
  obtain ⟨hi, hd, ho, hu, hp⟩ := c.getLsbD_bits
  simp only [hmx, BitVec.getLsbD_or, hi, hd, ho, hu, hp, true_and]
  intro b hb
  rw [c.getLsbD_bits_other hb, Bool.or_false]

/-- The flags drawn at a SIMD floating-point fault hold those of the cause. -/
theorem drawFlags_and_cause (cause seen : Conds) (free : BitVec 32) :
    drawFlags cause seen free &&& cause.bits = cause.bits := by
  ext j hj
  simp only [drawFlags, BitVec.getElem_and, BitVec.getElem_or]
  cases cause.bits[j] <;> simp

/-- And none outside the conditions seen. -/
theorem drawFlags_and_not_seen {cause seen : Conds} (h : cause.Subset seen) (free : BitVec 32) :
    drawFlags cause seen free &&& ~~~seen.bits = 0#32 := by
  rw [drawFlags, ← h.bits_or]
  ext j hj
  simp only [BitVec.getElem_and, BitVec.getElem_or, BitVec.getElem_not]
  cases cause.bits[j] <;> cases seen.bits[j] <;> simp

/-- What `UnmaskedConditionsFault` says of the outcome `o`. -/
def FaultsFor (cause seen : Conds) (s : State) (o : Result State) : Prop :=
  ∃ (flags : BitVec 32) (u : State), flags &&& cause.bits = cause.bits ∧ flags &&& ~~~seen.bits = 0#32 ∧
    u = { s with mxcsr := s.mxcsr ||| flags, draws := s.draws + 1 } ∧
    o = .fault (if s.cr4.getLsbD 10 then .simdFloatingPoint u else .invalidOpcode u)

theorem raiseSimd_faultsFor {cause seen : Conds} (h : cause.Subset seen) (s : State) :
    FaultsFor cause seen s (raiseSimd cause seen s) :=
  ⟨drawFlags cause seen (Config.freeSimdFlags s.draws), simdFaultState cause seen s, drawFlags_and_cause ..,
    drawFlags_and_not_seen h _, rfl, raiseSimd_eq ..⟩

/-- Settles O39: the outcome is a SIMD floating-point fault of stage 1, or else of stage 2. -/
theorem unmaskedConditionsFault : Obligations.UnmaskedConditionsFault := by
  intro i s her hen hsrc pre post cause seen hany
  change FaultsFor cause seen s (exec i s)
  rw [exec_of_ready hen hsrc, her]
  simp only [Option.isSome_none, Bool.false_eq_true, if_false]
  by_cases hpre : (pre.unmasked s).any = true
  · have hcause : cause = pre.unmasked s := if_pos hpre
    have hseen : seen = pre := if_pos hpre
    rw [if_pos hpre, hcause, hseen]
    exact raiseSimd_faultsFor (pre.unmasked_subset s) s
  · have hcause : cause = post.unmasked s := if_neg hpre
    have hseen : seen = pre.union post := if_neg hpre
    rw [hcause] at hany
    rw [if_neg hpre, if_pos hany, hcause, hseen]
    exact raiseSimd_faultsFor ((post.unmasked_subset s).union_right pre) s

/-! Embedded rounding. -/

/-- Settles O30: its source is a register, so that only the enable checks can fault, and no condition is asked. -/
theorem embeddedRoundingSuppresses : Obligations.EmbeddedRoundingSuppresses := by
  intro p e rc reg rm s i
  refine ⟨fun f hf => ?faults, fun hen hrip => ?completes⟩
  case faults =>
    rcases exec_eq_fault hf with hcheck | ⟨-, hread⟩ | ⟨-, -, her, -⟩
    · exact checkEnabled_eq_fault hcheck
    · cases hread
    · cases her
  case completes =>
    obtain ⟨t, ht⟩ := exec_completes (i := i) hen trivial (.inl rfl) hrip
    obtain ⟨-, -, -, -, ⟨hlanes, -⟩, hmx, -, -⟩ := exec_eq_next ht
    change t.mxcsr = s.mxcsr ||| ({} : Conds).bits at hmx
    refine ⟨t, ht, by rw [hmx, Conds.bits_empty, BitVec.or_zero], fun j hj hact => ?_⟩
    have hactive : (activity s i).getD j false = true := (activity_getD s i hj).trans hact
    exact (hlanes j (by rwa [activity_length])).trans (if_pos hactive)

end Sys2Proof.Machine
end

section
/-! The patterns of a lane: their fields and classes (40_numerics_double_add.md R130, R131), what denormals-are-zeros does to
them, and the addition case by case: NaNs, infinities, zero sums (R135 to R138). -/

namespace Sys2Proof.Machine

/-! Fields. -/

theorem expo_lt (a : Double) : expo a < 2 ^ 11 := (a.extractLsb' 52 11).isLt

theorem frac_lt (a : Double) : frac a < 2 ^ 52 := (a.extractLsb' 0 52).isLt

theorem getLsbD_pack (neg : Bool) (e f j : Nat) : (pack neg e f).getLsbD j =
    if j < 52 then (BitVec.ofNat 52 f).getLsbD j
    else if j < 63 then (BitVec.ofNat 11 e).getLsbD (j - 52) else (decide (j = 63) && neg) := by
  simp only [pack, BitVec.getLsbD_append, BitVec.getLsbD_ofBool]
  by_cases h63 : j < 63
  · simp only [h63, show j - 52 < 11 by omega, if_true]
  · have hexpo : ¬ j - 52 < 11 := by omega
    have hsign : (j - 52 - 11 = 0) = (j = 63) := by rw [eq_iff_iff]; omega
    simp only [h63, hexpo, hsign, if_false]

/-- Assembling the fields of a pattern gives it back. -/
theorem pack_fields (a : Double) : pack (sign a) (expo a) (frac a) = a := by
  apply BitVec.eq_of_getLsbD_eq
  intro j hj
  rw [getLsbD_pack, expo, frac, BitVec.ofNat_toNat, BitVec.ofNat_toNat, BitVec.setWidth_eq, BitVec.setWidth_eq]
  split_ifs with h52 h63
  · simp [h52]
  · simp [show j - 52 < 11 by omega, show 52 + (j - 52) = j by omega]
  · simp [sign, show j = 63 by omega]

/-- A pattern is determined by its fields. -/
theorem eq_of_fields {a b : Double} (hs : sign a = sign b) (he : expo a = expo b) (hf : frac a = frac b) : a = b := by
  rw [← pack_fields a, hs, he, hf, pack_fields]

@[simp] theorem sign_pack (neg : Bool) (e f : Nat) : sign (pack neg e f) = neg := by
  rw [sign, getLsbD_pack]
  simp

theorem expo_pack (neg : Bool) {e : Nat} (f : Nat) (he : e < 2 ^ 11) : expo (pack neg e f) = e := by
  have h : (pack neg e f).extractLsb' 52 11 = BitVec.ofNat 11 e := by
    apply BitVec.eq_of_getLsbD_eq
    intro j hj
    rw [BitVec.getLsbD_extractLsb', getLsbD_pack, if_neg (by omega), if_pos (by omega), Nat.add_sub_cancel_left]
    simp [hj]
  rw [expo, h, BitVec.toNat_ofNat, Nat.mod_eq_of_lt he]

theorem frac_pack (neg : Bool) (e : Nat) {f : Nat} (hf : f < 2 ^ 52) : frac (pack neg e f) = f := by
  have h : (pack neg e f).extractLsb' 0 52 = BitVec.ofNat 52 f := by
    apply BitVec.eq_of_getLsbD_eq
    intro j hj
    rw [BitVec.getLsbD_extractLsb', getLsbD_pack, if_pos (by omega), Nat.zero_add]
    simp [hj]
  rw [frac, h, BitVec.toNat_ofNat, Nat.mod_eq_of_lt hf]

@[simp] theorem sign_zeroOf (neg : Bool) : sign (zeroOf neg) = neg := by cases neg <;> decide
@[simp] theorem expo_zeroOf (neg : Bool) : expo (zeroOf neg) = 0 := by cases neg <;> decide
@[simp] theorem frac_zeroOf (neg : Bool) : frac (zeroOf neg) = 0 := by cases neg <;> decide

/-- A zero is the zero of its sign. -/
theorem eq_zeroOf {a : Double} (h : isZero a = true) : a = zeroOf (sign a) := by
  simp only [isZero, Bool.and_eq_true, beq_iff_eq] at h
  obtain ⟨he, hf⟩ := h
  exact eq_of_fields (sign_zeroOf _).symm (he.trans (expo_zeroOf _).symm) (hf.trans (frac_zeroOf _).symm)

/-- Two infinities of one sign are the same. -/
theorem eq_of_isInf {a b : Double} (ha : isInf a = true) (hb : isInf b = true) (hs : sign a = sign b) : a = b := by
  simp only [isInf, Bool.and_eq_true, beq_iff_eq] at ha hb
  obtain ⟨hea, hfa⟩ := ha
  obtain ⟨heb, hfb⟩ := hb
  exact eq_of_fields hs (hea.trans heb.symm) (hfa.trans hfb.symm)

/-! Classes. -/

theorem isSNaN_of_not_isNaN {a : Double} (h : isNaN a = false) : isSNaN a = false := by simp [isSNaN, h]

theorem isNaN_of_isInf {a : Double} (h : isInf a = true) : isNaN a = false := by
  simp_all [isInf, isNaN]

theorem isDenormal_of_isNaN {a : Double} (h : isNaN a = true) : isDenormal a = false := by
  simp_all [isNaN, isDenormal]

theorem isDenormal_of_isInf {a : Double} (h : isInf a = true) : isDenormal a = false := by
  simp_all [isInf, isDenormal]

theorem isNaN_of_isFinite {a : Double} (h : isFinite a = true) : isNaN a = false := by
  simp_all [isFinite, isNaN]

theorem isInf_of_isFinite {a : Double} (h : isFinite a = true) : isInf a = false := by
  simp_all [isFinite, isInf]

theorem isFinite_of_not {a : Double} (hn : isNaN a = false) (hi : isInf a = false) : isFinite a = true := by
  by_cases hf : frac a = 0 <;> simp_all [isFinite, isNaN, isInf]

/-! Denormals-are-zeros. -/

theorem applyDaz_of_not_denormal (daz : Bool) {a : Double} (h : isDenormal a = false) : applyDaz daz a = a := by
  simp [applyDaz, h]

theorem applyDaz_of_isNaN (daz : Bool) {a : Double} (h : isNaN a = true) : applyDaz daz a = a :=
  applyDaz_of_not_denormal daz (isDenormal_of_isNaN h)

theorem applyDaz_of_isInf (daz : Bool) {a : Double} (h : isInf a = true) : applyDaz daz a = a :=
  applyDaz_of_not_denormal daz (isDenormal_of_isInf h)

@[simp] theorem applyDaz_false (a : Double) : applyDaz false a = a := rfl

/-- An operand that is replaced is a denormal, and what replaces it a zero: neither is a NaN or an infinity. -/
theorem applyDaz_cases (daz : Bool) (a : Double) :
    applyDaz daz a = a ∨ (isDenormal a = true ∧ daz = true ∧ applyDaz daz a = zeroOf (sign a)) := by
  unfold applyDaz
  cases daz <;> cases isDenormal a <;> simp

@[simp] theorem isNaN_applyDaz (daz : Bool) (a : Double) : isNaN (applyDaz daz a) = isNaN a := by
  rcases applyDaz_cases daz a with h | ⟨hd, -, h⟩
  · rw [h]
  · rw [h]; simp_all [isNaN, isDenormal]

@[simp] theorem isInf_applyDaz (daz : Bool) (a : Double) : isInf (applyDaz daz a) = isInf a := by
  rcases applyDaz_cases daz a with h | ⟨hd, -, h⟩
  · rw [h]
  · rw [h]; simp_all [isInf, isDenormal]

@[simp] theorem isFinite_applyDaz (daz : Bool) (a : Double) : isFinite (applyDaz daz a) = isFinite a := by
  rcases applyDaz_cases daz a with h | ⟨hd, -, h⟩
  · rw [h]
  · rw [h]; simp_all [isFinite, isDenormal]

@[simp] theorem sign_applyDaz (daz : Bool) (a : Double) : sign (applyDaz daz a) = sign a := by
  rcases applyDaz_cases daz a with h | ⟨-, -, h⟩
  · rw [h]
  · rw [h, sign_zeroOf]

@[simp] theorem isSNaN_applyDaz (daz : Bool) (a : Double) : isSNaN (applyDaz daz a) = isSNaN a := by
  cases h : isNaN a
  · rw [isSNaN_of_not_isNaN h, isSNaN_of_not_isNaN (by rw [isNaN_applyDaz, h])]
  · rw [applyDaz_of_isNaN daz h]

@[simp] theorem isDenormal_applyDaz (daz : Bool) (a : Double) : isDenormal (applyDaz daz a) = (!daz && isDenormal a) := by
  cases daz
  · rfl
  · rcases applyDaz_cases true a with h | ⟨-, -, h⟩
    · rw [h]
      cases hd : isDenormal a
      · rfl
      · rw [applyDaz, hd] at h
        rw [← hd, ← h]
        simp [isDenormal]
    · rw [h]; simp [isDenormal]

/-! The addition, case by case. -/

/-- The pre-computation conditions of operands that are no NaNs and no opposite infinities: D for a denormal that DAZ leaves
(R144, R145). -/
def denormalOperand (daz : Bool) (a b : Double) : Conds := { d := !daz && (isDenormal a || isDenormal b) }

/-- Opposite infinities (R137). -/
def OppositeInfinities (a b : Double) : Prop := isInf a = true ∧ isInf b = true ∧ sign a ≠ sign b

section Cases
variable {a b : Double} (rm : Rounding) (daz ftz um : Bool)

theorem fadd64_of_nan (h : isNaN a = true ∨ isNaN b = true) :
    fadd64 a b rm daz ftz um = ⟨quiet (if isNaN a then a else b), { i := isSNaN a || isSNaN b }, {}⟩ := by
  cases ha : isNaN a
  · have hb : isNaN b = true := by simpa [ha] using h
    simp [fadd64, addOperands, ha, hb, applyDaz_of_isNaN daz hb]
  · simp [fadd64, addOperands, ha, applyDaz_of_isNaN daz ha]

theorem fadd64_of_opposite_infinities (h : OppositeInfinities a b) :
    fadd64 a b rm daz ftz um = ⟨qind, { i := true }, {}⟩ := by
  obtain ⟨ha, hb, hs⟩ := h
  simp [fadd64, addOperands, isNaN_of_isInf ha, isNaN_of_isInf hb, ha, hb, hs]

theorem fadd64_of_left_infinity (ha : isInf a = true) (hb : isNaN b = false) (hs : isInf b = true → sign a = sign b) :
    fadd64 a b rm daz ftz um = ⟨a, denormalOperand daz a b, {}⟩ := by
  have hopp : (isInf b && sign a != sign b) = false := by
    cases h : isInf b
    · rfl
    · simp [hs h]
  simp [fadd64, addOperands, isNaN_of_isInf ha, hb, ha, hopp, applyDaz_of_isInf daz ha, denormalOperand, isDenormal_of_isInf ha]

theorem fadd64_of_right_infinity (ha : isFinite a = true) (hb : isInf b = true) :
    fadd64 a b rm daz ftz um = ⟨b, denormalOperand daz a b, {}⟩ := by
  simp [fadd64, addOperands, isNaN_of_isFinite ha, isInf_of_isFinite ha, isNaN_of_isInf hb, hb, applyDaz_of_isInf daz hb,
    denormalOperand, isDenormal_of_isInf hb]

/-- The addition of two finite operands. -/
theorem fadd64_of_finite (ha : isFinite a = true) (hb : isFinite b = true) :
    fadd64 a b rm daz ftz um =
      if value (applyDaz daz a) + value (applyDaz daz b) = 0 then
        ⟨zeroSum (applyDaz daz a) (applyDaz daz b) rm, denormalOperand daz a b, {}⟩
      else deliver (value (applyDaz daz a) + value (applyDaz daz b)) rm ftz um (denormalOperand daz a b) := by
  simp [fadd64, addOperands, isNaN_of_isFinite ha, isInf_of_isFinite ha, isNaN_of_isFinite hb, isInf_of_isFinite hb,
    denormalOperand, Bool.and_or_distrib_left]

theorem fadd64_of_zero_sum (ha : isFinite a = true) (hb : isFinite b = true) (hx : value a + value b = 0) :
    fadd64 a b rm false ftz um = ⟨zeroSum a b rm, denormalOperand false a b, {}⟩ := by
  rw [fadd64_of_finite rm false ftz um ha hb]
  exact if_pos hx

theorem fadd64_of_nonzero_sum (ha : isFinite a = true) (hb : isFinite b = true) (hx : value a + value b ≠ 0) :
    fadd64 a b rm false ftz um = deliver (value a + value b) rm ftz um (denormalOperand false a b) := by
  rw [fadd64_of_finite rm false ftz um ha hb]
  exact if_neg hx

@[simp] theorem deliver_pre (x : Int) (pre : Conds) : (deliver x rm ftz um pre).pre = pre := by
  unfold deliver
  dsimp only
  split_ifs <;> rfl

/-- I and D arise before the sum is computed (R139). -/
theorem deliver_post (x : Int) (pre : Conds) :
    (deliver x rm ftz um pre).post.i = false ∧ (deliver x rm ftz um pre).post.d = false := by
  unfold deliver
  dsimp only
  split_ifs <;> exact ⟨rfl, rfl⟩

/-- Two operands: a NaN among them, or opposite infinities, or an infinity on the left, or on the right only, or both
finite. -/
theorem operands_cases (a b : Double) :
    (isNaN a = true ∨ isNaN b = true) ∨ OppositeInfinities a b ∨
      (isInf a = true ∧ isNaN b = false ∧ (isInf b = true → sign a = sign b)) ∨
      (isFinite a = true ∧ isInf b = true) ∨ (isFinite a = true ∧ isFinite b = true) := by
  cases ha : isNaN a
  · cases hb : isNaN b
    · cases hia : isInf a
      · have hfa := isFinite_of_not ha hia
        cases hib : isInf b
        · exact .inr (.inr (.inr (.inr ⟨hfa, isFinite_of_not hb hib⟩)))
        · exact .inr (.inr (.inr (.inl ⟨hfa, rfl⟩)))
      · by_cases h : isInf b = true ∧ sign a ≠ sign b
        · exact .inr (.inl ⟨hia, h⟩)
        · exact .inr (.inr (.inl ⟨rfl, rfl, fun hib => by_contra fun hs => h ⟨hib, hs⟩⟩))
    · exact .inl (.inr rfl)
  · exact .inl (.inl rfl)

theorem fadd64_pre (hnan : ¬(isNaN a = true ∨ isNaN b = true)) (hopp : ¬OppositeInfinities a b) :
    (fadd64 a b rm daz ftz um).pre = denormalOperand daz a b := by
  rcases operands_cases a b with h | h | ⟨hia, hb, hs⟩ | ⟨hfa, hib⟩ | ⟨hfa, hfb⟩
  · exact absurd h hnan
  · exact absurd h hopp
  · rw [fadd64_of_left_infinity rm daz ftz um hia hb hs]
  · rw [fadd64_of_right_infinity rm daz ftz um hfa hib]
  · rw [fadd64_of_finite rm daz ftz um hfa hfb]
    split
    · rfl
    · rw [deliver_pre]

/-- The pre-computation conditions of any operands: I alone or none, or that of a denormal. -/
theorem fadd64_pre_cases (a b : Double) :
    (∃ i, (fadd64 a b rm daz ftz um).pre = { i := i }) ∨ (fadd64 a b rm daz ftz um).pre = denormalOperand daz a b := by
  by_cases hnan : isNaN a = true ∨ isNaN b = true
  · exact .inl ⟨_, by rw [fadd64_of_nan rm daz ftz um hnan]⟩
  · by_cases hopp : OppositeInfinities a b
    · exact .inl ⟨_, by rw [fadd64_of_opposite_infinities rm daz ftz um hopp]⟩
    · exact .inr (fadd64_pre rm daz ftz um hnan hopp)

/-- Only the sum of finite operands raises a post-computation condition. -/
theorem fadd64_post_of_not_finite (h : ¬(isFinite a = true ∧ isFinite b = true)) :
    (fadd64 a b rm daz ftz um).post = {} := by
  rcases operands_cases a b with hnan | hopp | ⟨hia, hb, hs⟩ | ⟨hfa, hib⟩ | hfin
  · rw [fadd64_of_nan rm daz ftz um hnan]
  · rw [fadd64_of_opposite_infinities rm daz ftz um hopp]
  · rw [fadd64_of_left_infinity rm daz ftz um hia hb hs]
  · rw [fadd64_of_right_infinity rm daz ftz um hfa hib]
  · exact absurd hfin h

theorem fadd64_post_invalid_denormal :
    (fadd64 a b rm daz ftz um).post.i = false ∧ (fadd64 a b rm daz ftz um).post.d = false := by
  by_cases h : isFinite a = true ∧ isFinite b = true
  · obtain ⟨ha, hb⟩ := h
    rw [fadd64_of_finite rm daz ftz um ha hb]
    split
    · exact ⟨rfl, rfl⟩
    · exact deliver_post ..
  · rw [fadd64_post_of_not_finite rm daz ftz um h]
    exact ⟨rfl, rfl⟩

end Cases

/-! The statements about the special operands. -/

/-- Settles O47: the replacement is what DAZ applies first, and under DAZ a denormal operand is no condition. -/
theorem denormalsAreZeros : Obligations.DenormalsAreZeros := by
  intro a b rm ftz um z
  have hz (x : Double) : applyDaz true x = applyDaz false (z x) := by simp [applyDaz, z]
  refine ⟨by rw [fadd64, fadd64, hz, hz], ?_⟩
  rcases fadd64_pre_cases rm true ftz um a b with ⟨i, h⟩ | h
  · rw [h]
  · rw [h]; rfl

/-- Quieting a NaN sets bit 51 and leaves every other bit (R136). -/
theorem getLsbD_quiet (a : Double) (j : Nat) : (quiet a).getLsbD j = (a.getLsbD j || decide (j = 51)) := by
  have hbit : (0x0008000000000000#64).getLsbD j = decide (j = 51) := by
    rw [show (0x0008000000000000#64) = BitVec.twoPow 64 51 by decide, BitVec.getLsbD_twoPow]
    by_cases h : j = 51 <;> simp [h, eq_comm]
  rw [quiet, BitVec.getLsbD_or, hbit]

theorem quiet_fields {a : Double} (h : isNaN a = true) :
    isNaN (quiet a) = true ∧ isSNaN (quiet a) = false ∧ sign (quiet a) = sign a ∧
      (quiet a).extractLsb' 0 51 = a.extractLsb' 0 51 := by
  have hexpo : (quiet a).extractLsb' 52 11 = a.extractLsb' 52 11 := by
    apply BitVec.eq_of_getLsbD_eq
    intro j hj
    simp only [BitVec.getLsbD_extractLsb', getLsbD_quiet, show ¬ 52 + j = 51 by omega, decide_false, Bool.or_false]
  have hfrac : frac (quiet a) ≠ 0 := by
    intro h0
    have hbit : ((quiet a).extractLsb' 0 52).getLsbD 51 = true := by simp [getLsbD_quiet]
    rw [BitVec.eq_of_toNat_eq (y := 0#52) h0] at hbit
    simp at hbit
  have he : expo a = 2047 := by simp_all [isNaN]
  refine ⟨?_, ?_, ?_, ?_⟩
  · simp only [isNaN, expo, hexpo, Bool.and_eq_true, beq_iff_eq, bne_iff_ne, ne_eq]
    exact ⟨he, hfrac⟩
  · simp [isSNaN, getLsbD_quiet]
  · rw [sign, sign, getLsbD_quiet]; simp
  · apply BitVec.eq_of_getLsbD_eq
    intro j hj
    simp [BitVec.getLsbD_extractLsb', getLsbD_quiet, show ¬ j = 51 by omega]

/-- Settles O48: the result is the chosen NaN quieted. -/
theorem nanOperands : Obligations.NanOperands := by
  intro a b rm daz ftz um hnan r chosen
  have hchosen : isNaN chosen = true := by
    cases ha : isNaN a
    · rw [show chosen = b from if_neg (by simp [ha])]
      simpa [ha] using hnan
    · rw [show chosen = a from if_pos ha]
      exact ha
  have hr : r = ⟨quiet chosen, { i := isSNaN a || isSNaN b }, {}⟩ := fadd64_of_nan rm daz ftz um hnan
  obtain ⟨hnan', hsnan, hsign, hlow⟩ := quiet_fields hchosen
  rw [hr]
  exact ⟨rfl, hnan', hsnan, hsign, hlow, rfl, rfl⟩

/-- Settles O49: an infinity on the right is the result also where the left operand is the same infinity. -/
theorem infinityOperands : Obligations.InfinityOperands := by
  intro a b rm daz ftz um ha hb r
  have hleft (hia : isInf a = true) (hs : isInf b = true → sign a = sign b) : r = ⟨a, denormalOperand daz a b, {}⟩ :=
    fadd64_of_left_infinity rm daz ftz um hia hb hs
  refine ⟨fun hia hib hs => ?opposite, fun hia hs => ?left, fun hib hs => ?right⟩
  case opposite =>
    have hr : r = ⟨qind, { i := true }, {}⟩ := fadd64_of_opposite_infinities rm daz ftz um ⟨hia, hib, hs⟩
    rw [hr]
    exact ⟨rfl, rfl, rfl⟩
  case left =>
    rw [hleft hia hs]
    exact ⟨rfl, rfl, rfl⟩
  case right =>
    cases hia : isInf a
    · have hr : r = ⟨b, denormalOperand daz a b, {}⟩ :=
        fadd64_of_right_infinity rm daz ftz um (isFinite_of_not ha hia) hib
      rw [hr]
      exact ⟨rfl, rfl, rfl⟩
    · rw [hleft hia fun _ => hs hia]
      exact ⟨eq_of_isInf hia hib (hs hia), rfl, rfl⟩

theorem zeroSum_of_same_sign {a b : Double} (rm : Rounding) (ha : isZero a = true) (hb : isZero b = true)
    (hs : sign a = sign b) : zeroSum a b rm = a := by
  simp [zeroSum, ha, hb, hs]

theorem zeroSum_otherwise {a b : Double} (rm : Rounding) (h : ¬(isZero a = true ∧ isZero b = true ∧ sign a = sign b)) :
    zeroSum a b rm = zeroOf (rm == .rd) := by
  rw [zeroSum, if_neg (by simpa [and_assoc] using h)]

/-- Settles O50: the two cases of `zeroSum`; no step after the zero sum raises a condition. -/
theorem zeroSums : Obligations.ZeroSums := by
  intro a b rm ftz um ha hb hx r
  have hr : r = ⟨zeroSum a b rm, denormalOperand false a b, {}⟩ := fadd64_of_zero_sum rm ftz um ha hb hx
  rw [hr]
  refine ⟨fun hza hzb hs => zeroSum_of_same_sign rm hza hzb hs, fun h => ?_, rfl, rfl⟩
  rw [zeroSum_otherwise rm h]
  cases rm <;> rfl

theorem not_oppositeInfinities_of_nan {a b : Double} (h : isNaN a = true ∨ isNaN b = true) : ¬OppositeInfinities a b := by
  rintro ⟨ha, hb, -⟩
  simp [isNaN_of_isInf ha, isNaN_of_isInf hb] at h

/-- Settles O55: a NaN operand, opposite infinities, and every other pair of operands. -/
theorem invalidAndDenormalConditions : Obligations.InvalidAndDenormalConditions := by
  intro a b rm daz ftz um r
  change (_ ↔ isSNaN a = true ∨ isSNaN b = true ∨ OppositeInfinities a b) ∧
    (_ ↔ daz = false ∧ _ ∧ isNaN a = false ∧ isNaN b = false ∧ ¬OppositeInfinities a b) ∧ _
  by_cases hnan : isNaN a = true ∨ isNaN b = true
  · have hpre : r.pre = { i := isSNaN a || isSNaN b } := by rw [show r = _ from fadd64_of_nan rm daz ftz um hnan]
    have hopp := not_oppositeInfinities_of_nan hnan
    refine ⟨by simp [hpre, hopp], ?_, fadd64_post_invalid_denormal rm daz ftz um⟩
    rcases hnan with h | h <;> simp [hpre, h]
  · obtain ⟨ha, hb⟩ : isNaN a = false ∧ isNaN b = false := by simpa using hnan
    have hi : isSNaN a = false ∧ isSNaN b = false := ⟨isSNaN_of_not_isNaN ha, isSNaN_of_not_isNaN hb⟩
    refine ⟨?_, ?_, fadd64_post_invalid_denormal rm daz ftz um⟩ <;> by_cases hopp : OppositeInfinities a b
    case pos | pos => simp [show r = _ from fadd64_of_opposite_infinities rm daz ftz um hopp, hopp]
    case neg | neg => simp [show r.pre = _ from fadd64_pre rm daz ftz um hnan hopp, denormalOperand, hi, ha, hb, hopp]

end Sys2Proof.Machine
end

section
/-! Rounding to 53 significant bits (40_numerics_double_add.md R133, R134): the two neighbours of a magnitude, which of them
`round53` takes, and the pattern of the rounded magnitude (R139). -/

namespace Sys2Proof.Machine

/-! The neighbours of a magnitude. -/

/-- The distance of the neighbours that 53 significant bits leave at the magnitude `m`. -/
def ulp (m : Nat) : Nat := 2 ^ (Nat.log2 m - 52)

/-- The neighbour of `m` that is not above it; the next one is `ulp m` above it. -/
def floor53 (m : Nat) : Nat := m / ulp m * ulp m

theorem ulp_pos (m : Nat) : 0 < ulp m := Nat.two_pow_pos _

theorem floor53_add_mod (m : Nat) : floor53 m + m % ulp m = m := Nat.div_add_mod' m (ulp m)

theorem lt_floor53_add_ulp (m : Nat) : m < floor53 m + ulp m := by
  have := floor53_add_mod m
  have := Nat.mod_lt m (ulp_pos m)
  omega

theorem ulp_of_lt {m : Nat} (h : m < 2 ^ 52) : ulp m = 1 := by
  have hlog : Nat.log2 m - 52 = 0 := by
    by_cases h0 : m = 0
    · subst h0; decide
    · have := (Nat.log2_lt h0).mpr h
      omega
  rw [ulp, hlog, pow_zero]

theorem lt_mul_ulp (m : Nat) : m < 2 ^ 53 * ulp m :=
  calc m < 2 ^ (Nat.log2 m + 1) := Nat.lt_log2_self
    _ ≤ 2 ^ (53 + (Nat.log2 m - 52)) := Nat.pow_le_pow_right (by omega) (by omega)
    _ = 2 ^ 53 * ulp m := Nat.pow_add ..

theorem mul_ulp_le {m : Nat} (h : 2 ^ 52 ≤ m) : 2 ^ 52 * ulp m ≤ m := by
  have h0 : m ≠ 0 := by omega
  have hlog : 52 ≤ Nat.log2 m := (Nat.le_log2 h0).mpr h
  calc 2 ^ 52 * ulp m = 2 ^ Nat.log2 m := by rw [ulp, ← Nat.pow_add, Nat.add_sub_cancel' hlog]
    _ ≤ m := Nat.log2_self_le h0

theorem mul_ulp_le_floor53 {m : Nat} (h : 2 ^ 52 ≤ m) : 2 ^ 52 * ulp m ≤ floor53 m :=
  Nat.mul_le_mul_right _ ((Nat.le_div_iff_mul_le (ulp_pos m)).mpr (mul_ulp_le h))

theorem floor53_add_ulp_le (m : Nat) : floor53 m + ulp m ≤ 2 ^ 53 * ulp m := by
  have h : m / ulp m < 2 ^ 53 := Nat.div_lt_of_lt_mul (by rw [Nat.mul_comm]; exact lt_mul_ulp m)
  rw [floor53, ← Nat.succ_mul]
  exact Nat.mul_le_mul_right _ h

/-- A magnitude of a pattern has 53 significant bits. -/
theorem magnitude_eq (c : Double) : ∃ f k, magnitude c = f * 2 ^ k ∧ f < 2 ^ 53 := by
  have := frac_lt c
  unfold magnitude
  split
  · exact ⟨frac c, 0, by simp, by omega⟩
  · exact ⟨2 ^ 52 + frac c, expo c - 1, rfl, by omega⟩

/-- No magnitude of a pattern lies strictly between the two neighbours of `m`. -/
theorem magnitude_le_or_ge (m : Nat) (c : Double) : magnitude c ≤ floor53 m ∨ floor53 m + ulp m ≤ magnitude c := by
  obtain ⟨f, k, hc, hf⟩ := magnitude_eq c
  rw [hc]
  by_cases hk : Nat.log2 m - 52 ≤ k
  · have hmul : f * 2 ^ k = f * 2 ^ (k - (Nat.log2 m - 52)) * ulp m := by
      rw [ulp, Nat.mul_assoc, ← Nat.pow_add, Nat.sub_add_cancel hk]
    rw [hmul, floor53, ← Nat.succ_mul]
    rcases Nat.lt_or_ge (m / ulp m) (f * 2 ^ (k - (Nat.log2 m - 52))) with h | h
    · exact .inr (Nat.mul_le_mul_right _ h)
    · exact .inl (Nat.mul_le_mul_right _ h)
  · have h52 : 2 ^ 52 ≤ m := by
      by_contra h
      have hone := ulp_of_lt (Nat.lt_of_not_le h)
      have : Nat.log2 m - 52 = 0 := (Nat.pow_eq_one.mp hone).resolve_left (by omega)
      omega
    left
    calc f * 2 ^ k ≤ 2 ^ 53 * 2 ^ k := Nat.mul_le_mul_right _ hf.le
      _ = 2 ^ 52 * 2 ^ (k + 1) := by rw [Nat.pow_succ 2 k, Nat.pow_succ 2 52]; ring
      _ ≤ 2 ^ 52 * ulp m := Nat.mul_le_mul_left _ (Nat.pow_le_pow_right (by omega) (by omega))
      _ ≤ floor53 m := mul_ulp_le_floor53 h52

/-! Which neighbour `round53` takes. -/

theorem round53_eq (neg : Bool) (m : Nat) (rm : Rounding) :
    round53 neg m rm = (if roundUp neg (m / ulp m) (m % ulp m) (Nat.log2 m - 52) rm then floor53 m + ulp m else floor53 m,
      m % ulp m != 0) := by
  have hnext : floor53 m + ulp m = (m / ulp m + 1) * ulp m := (Nat.succ_mul ..).symm
  rw [hnext]
  unfold round53 floor53 ulp
  dsimp only
  split <;> rfl

/-- Toward zero, or toward the infinity of the other sign: the lower neighbour. -/
theorem round53_toward_zero {neg : Bool} (m : Nat) {rm : Rounding}
    (h : rm = .rz ∨ rm = .rd ∧ neg = false ∨ rm = .ru ∧ neg = true) :
    (round53 neg m rm).1 = floor53 m := by
  rw [round53_eq]
  rcases h with rfl | ⟨rfl, rfl⟩ | ⟨rfl, rfl⟩ <;> rfl

/-- Toward the infinity of the same sign: the upper neighbour, unless `m` is the lower one. -/
theorem round53_away {neg : Bool} (m : Nat) {rm : Rounding} (h : rm = .rd ∧ neg = true ∨ rm = .ru ∧ neg = false) :
    (round53 neg m rm).1 = if m % ulp m = 0 then floor53 m else floor53 m + ulp m := by
  rw [round53_eq]
  rcases h with ⟨rfl, rfl⟩ | ⟨rfl, rfl⟩ <;> by_cases hr : m % ulp m = 0 <;> simp [roundUp, hr]

theorem roundUp_nearest (neg : Bool) (n rem m : Nat) :
    roundUp neg n rem (Nat.log2 m - 52) .rn = (decide (ulp m < 2 * rem) || (2 * rem == ulp m && n % 2 == 1)) := rfl

/-- To nearest: the nearer neighbour, and on a tie the one that is an even multiple of the distance. -/
theorem round53_nearest (neg : Bool) (m : Nat) :
    ((round53 neg m .rn).1 = floor53 m ∧ 2 * (m % ulp m) ≤ ulp m ∨
      (round53 neg m .rn).1 = floor53 m + ulp m ∧ ulp m ≤ 2 * (m % ulp m)) ∧
    (2 * (m % ulp m) = ulp m → 2 * ulp m ∣ (round53 neg m .rn).1) := by
  rw [round53_eq, roundUp_nearest]
  dsimp only
  rcases Nat.lt_trichotomy (2 * (m % ulp m)) (ulp m) with h | h | h
  · rw [if_neg (by simp [h.ne, h.le])]
    exact ⟨.inl ⟨rfl, h.le⟩, fun he => absurd he h.ne⟩
  · by_cases hodd : m / ulp m % 2 = 1
    · rw [if_pos (by simp [h, hodd]), floor53, ← Nat.succ_mul]
      exact ⟨.inr ⟨rfl, h.ge⟩, fun _ => Nat.mul_dvd_mul_right (by omega) _⟩
    · rw [if_neg (by simp [h, hodd]), floor53]
      exact ⟨.inl ⟨rfl, h.le⟩, fun _ => Nat.mul_dvd_mul_right (by omega) _⟩
  · rw [if_pos (by simp [h])]
    exact ⟨.inr ⟨rfl, h.le⟩, fun he => absurd he h.ne'⟩

/-- In every mode one of the two neighbours, and the upper one only where `m` is not the lower one. -/
theorem round53_cases (neg : Bool) (m : Nat) (rm : Rounding) :
    (round53 neg m rm).1 = floor53 m ∨ (round53 neg m rm).1 = floor53 m + ulp m ∧ m % ulp m ≠ 0 := by
  have hpos := ulp_pos m
  have away (h : (round53 neg m rm).1 = if m % ulp m = 0 then floor53 m else floor53 m + ulp m) :
      (round53 neg m rm).1 = floor53 m ∨ (round53 neg m rm).1 = floor53 m + ulp m ∧ m % ulp m ≠ 0 := by
    split at h
    · exact .inl h
    · exact .inr ⟨h, ‹_›⟩
  cases rm with
  | rn =>
    obtain ⟨⟨h, -⟩ | ⟨h, hge⟩, -⟩ := round53_nearest neg m
    · exact .inl h
    · exact .inr ⟨h, by omega⟩
  | rd =>
    cases neg
    · exact .inl (round53_toward_zero m (by simp))
    · exact away (round53_away m (by simp))
  | ru =>
    cases neg
    · exact away (round53_away m (by simp))
    · exact .inl (round53_toward_zero m (by simp))
  | rz => exact .inl (round53_toward_zero m (by simp))

/-- The rounding is inexact exactly when it changes the magnitude. -/
theorem round53_inexact (neg : Bool) (m : Nat) (rm : Rounding) :
    (round53 neg m rm).2 = true ↔ (round53 neg m rm).1 ≠ m := by
  have hinexact : (round53 neg m rm).2 = (m % ulp m != 0) := by rw [round53_eq]
  have hfloor := floor53_add_mod m
  have hlt := lt_floor53_add_ulp m
  rw [hinexact, bne_iff_ne]
  rcases round53_cases neg m rm with h | ⟨h, hne⟩ <;> omega

/-- The magnitude of a pattern is its own rounding. -/
theorem round53_magnitude (neg : Bool) (c : Double) (rm : Rounding) :
    (round53 neg (magnitude c) rm).1 = magnitude c := by
  have hfloor := floor53_add_mod (magnitude c)
  have hlt := lt_floor53_add_ulp (magnitude c)
  have hgap := magnitude_le_or_ge (magnitude c) c
  rcases round53_cases neg (magnitude c) rm with h | ⟨h, hne⟩ <;> omega

/-- A magnitude below `MINN` is left as it is, and none from `MINN` up is taken below it (R148). -/
theorem round53_of_lt_minn (neg : Bool) {m : Nat} (h : m < minnUnits) (rm : Rounding) : (round53 neg m rm).1 = m := by
  have hulp := ulp_of_lt h
  have hfloor := floor53_add_mod m
  have hmod := Nat.mod_lt m (ulp_pos m)
  rcases round53_cases neg m rm with hr | ⟨-, hne⟩ <;> omega

theorem minn_le_round53 (neg : Bool) {m : Nat} (h : minnUnits ≤ m) (rm : Rounding) : minnUnits ≤ (round53 neg m rm).1 := by
  have hfloor := mul_ulp_le_floor53 h
  have hpos := ulp_pos m
  rw [minnUnits] at h ⊢
  rcases round53_cases neg m rm with hr | ⟨hr, -⟩ <;> omega

theorem lt_minn_of_round53 {neg : Bool} {m : Nat} {rm : Rounding} (h : (round53 neg m rm).1 < minnUnits) : m < minnUnits :=
  Nat.lt_of_not_le fun hm => absurd (minn_le_round53 neg hm rm) (Nat.not_le.mpr h)

/-- The neighbours of the rounded magnitude are as far apart as those of `m`, unless it is the next power of two. -/
theorem ulp_round53 (neg : Bool) {m : Nat} (h : minnUnits ≤ m) (rm : Rounding) :
    ulp (round53 neg m rm).1 = ulp m ∨
      (round53 neg m rm).1 = 2 ^ 53 * ulp m ∧ ulp (round53 neg m rm).1 = 2 * ulp m := by
  have hlo := mul_ulp_le_floor53 h
  have hhi := floor53_add_ulp_le m
  have hr : floor53 m ≤ (round53 neg m rm).1 ∧ (round53 neg m rm).1 ≤ floor53 m + ulp m := by
    rcases round53_cases neg m rm with hr | ⟨hr, -⟩ <;> omega
  have h0 : (round53 neg m rm).1 ≠ 0 := by have := ulp_pos m; omega
  generalize (round53 neg m rm).1 = r at hr h0 ⊢
  obtain ⟨hge, hle⟩ := hr
  have hpow (k : Nat) : 2 ^ (k + (Nat.log2 m - 52)) = 2 ^ k * ulp m := Nat.pow_add ..
  rcases Nat.lt_or_ge r (2 ^ 53 * ulp m) with hlt | hge'
  · left
    have hlog : Nat.log2 r = 52 + (Nat.log2 m - 52) := by
      rw [Nat.log2_eq_iff h0, hpow, show 52 + (Nat.log2 m - 52) + 1 = 53 + (Nat.log2 m - 52) by omega, hpow]
      omega
    rw [ulp, hlog, Nat.add_sub_cancel_left, ← ulp]
  · right
    have hr : r = 2 ^ 53 * ulp m := by omega
    have hlog : Nat.log2 r = 53 + (Nat.log2 m - 52) := by rw [hr, ← hpow, Nat.log2_two_pow]
    refine ⟨hr, ?_⟩
    rw [ulp, hlog, show 53 + (Nat.log2 m - 52) - 52 = 1 + (Nat.log2 m - 52) by omega, hpow, pow_one]

theorem ulp_dvd_round53 (neg : Bool) {m : Nat} (h : minnUnits ≤ m) (rm : Rounding) :
    ulp (round53 neg m rm).1 ∣ (round53 neg m rm).1 := by
  have hfloor : ulp m ∣ floor53 m := Nat.dvd_mul_left ..
  rcases ulp_round53 neg h rm with hu | ⟨hr, hu⟩
  · rw [hu]
    rcases round53_cases neg m rm with hr | ⟨hr, -⟩
    · rwa [hr]
    · rw [hr]
      exact Nat.dvd_add hfloor (Nat.dvd_refl _)
  · rw [hu, hr]
    exact Nat.mul_dvd_mul_right (by decide) _

/-! The pattern of a magnitude. -/

theorem maxfUnits_lt : maxfUnits < 2 ^ 2098 := by decide +kernel

theorem div_ulp_bounds {r : Nat} (h : minnUnits ≤ r) : 2 ^ 52 ≤ r / ulp r ∧ r / ulp r < 2 ^ 53 :=
  ⟨(Nat.le_div_iff_mul_le (ulp_pos r)).mpr (mul_ulp_le h),
    Nat.div_lt_of_lt_mul (by rw [Nat.mul_comm]; exact lt_mul_ulp r)⟩

@[simp] theorem sign_encodeNormal (neg : Bool) (r : Nat) : sign (encodeNormal neg r) = neg := sign_pack ..

theorem frac_encodeNormal (neg : Bool) {r : Nat} (h : minnUnits ≤ r) :
    frac (encodeNormal neg r) = r / ulp r - 2 ^ 52 := by
  have hdiv := div_ulp_bounds h
  exact frac_pack _ _ (by rw [← ulp]; omega)

section Normal
variable (neg : Bool) {r : Nat} (hmin : minnUnits ≤ r) (hmax : r ≤ maxfUnits)
include hmin hmax

theorem log2_bounds : 52 ≤ Nat.log2 r ∧ Nat.log2 r ≤ 2097 := by
  have h0 : r ≠ 0 := by have : minnUnits = 2 ^ 52 := rfl; omega
  have hlt := (Nat.log2_lt h0).mpr (Nat.lt_of_le_of_lt hmax maxfUnits_lt)
  exact ⟨(Nat.le_log2 h0).mpr hmin, by omega⟩

theorem expo_encodeNormal : expo (encodeNormal neg r) = Nat.log2 r - 51 := by
  have hlog := log2_bounds hmin hmax
  exact expo_pack _ _ (by omega)

theorem isFinite_encodeNormal : isFinite (encodeNormal neg r) = true := by
  have hlog := log2_bounds hmin hmax
  rw [isFinite, expo_encodeNormal neg hmin hmax, bne_iff_ne]
  omega

theorem magnitude_encodeNormal (hdvd : ulp r ∣ r) : magnitude (encodeNormal neg r) = r := by
  have hlog := log2_bounds hmin hmax
  have hdiv := div_ulp_bounds hmin
  rw [magnitude, expo_encodeNormal neg hmin hmax, frac_encodeNormal neg hmin, if_neg (by omega),
    Nat.add_sub_cancel' hdiv.1, show Nat.log2 r - 51 - 1 = Nat.log2 r - 52 by omega]
  exact Nat.div_mul_cancel hdvd

end Normal

theorem magnitude_pack_denormal (neg : Bool) {m : Nat} (h : m < minnUnits) : magnitude (pack neg 0 m) = m := by
  rw [magnitude, if_pos (expo_pack neg m (by decide)), frac_pack neg 0 h]

theorem isFinite_pack_denormal (neg : Bool) (m : Nat) : isFinite (pack neg 0 m) = true := by
  rw [isFinite, expo_pack neg m (by decide)]
  rfl

theorem isDenormal_pack (neg : Bool) {m : Nat} (h : m < minnUnits) (h0 : m ≠ 0) : isDenormal (pack neg 0 m) = true := by
  simp [isDenormal, expo_pack neg m, frac_pack neg 0 h, h0]

/-- A normal number is the pattern of its magnitude. -/
theorem encodeNormal_magnitude {c : Double} (h : expo c ≠ 0) : encodeNormal (sign c) (magnitude c) = c := by
  have hf := frac_lt c
  obtain ⟨k, hk⟩ : ∃ k, expo c = k + 1 := Nat.exists_eq_succ_of_ne_zero h
  have hmag : magnitude c = (2 ^ 52 + frac c) * 2 ^ k := by rw [magnitude, if_neg h, hk, Nat.add_sub_cancel]
  have hlog : Nat.log2 (magnitude c) = 52 + k := by
    have hlo : 2 ^ 52 * 2 ^ k ≤ magnitude c := hmag ▸ Nat.mul_le_mul_right _ (by omega)
    have hhi : magnitude c < 2 ^ 53 * 2 ^ k := hmag ▸ (Nat.mul_lt_mul_right (Nat.two_pow_pos k)).mpr (by omega)
    have h0 : magnitude c ≠ 0 := by have := Nat.two_pow_pos k; omega
    rw [Nat.log2_eq_iff h0, show 52 + k + 1 = 53 + k by omega, Nat.pow_add, Nat.pow_add]
    exact ⟨hlo, hhi⟩
  have hexpo : 52 + k - 51 = expo c := by omega
  rw [encodeNormal, hlog, hexpo, Nat.add_sub_cancel_left, hmag, Nat.mul_div_cancel _ (Nat.two_pow_pos k),
    Nat.add_sub_cancel_left, pack_fields]

theorem pack_magnitude {c : Double} (h : expo c = 0) : pack (sign c) 0 (magnitude c) = c := by
  rw [magnitude, if_pos h, ← h, pack_fields]

theorem minn_le_magnitude_iff (c : Double) : minnUnits ≤ magnitude c ↔ expo c ≠ 0 := by
  have hf := frac_lt c
  unfold magnitude minnUnits
  split
  · omega
  · have : 2 ^ 52 * 1 ≤ (2 ^ 52 + frac c) * 2 ^ (expo c - 1) := Nat.mul_le_mul (by omega) (Nat.two_pow_pos _)
    omega

/-- `MAXF` is the largest finite magnitude. -/
theorem magnitude_le_maxf {c : Double} (h : isFinite c = true) : magnitude c ≤ maxfUnits := by
  have hf := frac_lt c
  have he := expo_lt c
  have hne : expo c ≠ 2047 := by simpa [isFinite] using h
  have hle (k : Nat) (hk : expo c - 1 ≤ k) : magnitude c ≤ (2 ^ 53 - 1) * 2 ^ k := by
    unfold magnitude
    split
    · exact Nat.le_trans (by omega) (Nat.le_mul_of_pos_right _ (Nat.two_pow_pos k))
    · exact Nat.mul_le_mul (by omega) (Nat.pow_le_pow_right (by omega) hk)
  exact hle 2045 (by omega)

end Sys2Proof.Machine
end

section
/-! What a non-zero sum of finite operands delivers (40_numerics_double_add.md R139 to R143): overflow, a tiny result, or the
pattern of the rounded magnitude; and that the last is rounded as its mode says. -/

namespace Sys2Proof.Machine

/-! The three cases of a delivery. -/

/-- The magnitude of the sum `x` rounded with unbounded exponent. -/
def roundedMagnitude (x : Int) (rm : Rounding) : Nat := (round53 (decide (x < 0)) x.natAbs rm).1

theorem minn_le_maxf : minnUnits ≤ maxfUnits := by decide +kernel

section Delivery
variable {x : Int} {rm : Rounding} (ftz um : Bool) (pre : Conds)

theorem deliver_of_overflow (h : maxfUnits < roundedMagnitude x rm) :
    deliver x rm ftz um pre = ⟨overflowResult (decide (x < 0)) rm, pre, { o := true, p := true }⟩ := by
  unfold roundedMagnitude at h
  unfold deliver
  dsimp only
  rw [if_pos h]

theorem deliver_of_tiny (h : roundedMagnitude x rm < minnUnits) :
    deliver x rm ftz um pre =
      if !um then ⟨pack (decide (x < 0)) 0 x.natAbs, pre, { u := true }⟩
      else if ftz then ⟨zeroOf (decide (x < 0)), pre, { u := true, p := true }⟩
      else ⟨pack (decide (x < 0)) 0 x.natAbs, pre, {}⟩ := by
  have hmax := Nat.not_lt.mpr (h.le.trans minn_le_maxf)
  unfold roundedMagnitude at h hmax
  unfold deliver
  dsimp only
  rw [if_neg hmax, if_pos h]

theorem deliver_of_normal (hmin : minnUnits ≤ roundedMagnitude x rm) (hmax : roundedMagnitude x rm ≤ maxfUnits) :
    deliver x rm ftz um pre =
      ⟨encodeNormal (decide (x < 0)) (roundedMagnitude x rm), pre,
        { p := decide (roundedMagnitude x rm ≠ x.natAbs) }⟩ := by
  have hp : (round53 (decide (x < 0)) x.natAbs rm).2 = decide (roundedMagnitude x rm ≠ x.natAbs) := by
    rw [Bool.eq_iff_iff, round53_inexact, decide_eq_true_iff, roundedMagnitude]
  rw [← hp]
  unfold roundedMagnitude at *
  unfold deliver
  dsimp only
  rw [if_neg (Nat.not_lt.mpr hmax), if_neg (Nat.not_lt.mpr hmin)]

end Delivery

/-! The value of a delivered pattern. -/

theorem natAbs_value (a : Double) : (value a).natAbs = magnitude a := by
  unfold value
  split <;> omega

theorem value_eq_zero_iff {a : Double} : value a = 0 ↔ isZero a = true := by
  rw [← Int.natAbs_eq_zero, natAbs_value, magnitude, isZero]
  split <;> rename_i h
  · simp [h]
  · have : 0 < (2 ^ 52 + frac a) * 2 ^ (expo a - 1) := Nat.mul_pos (by omega) (Nat.two_pow_pos _)
    simp [h]

theorem sign_eq_of_value_ne_zero {a : Double} (h : value a ≠ 0) : sign a = decide (value a < 0) := by
  unfold value at h ⊢
  cases sign a
  · simp
  · simp only [Bool.true_eq, decide_eq_true_iff] at h ⊢
    simp at h ⊢
    omega

theorem value_of_sign {r : Double} {x : Int} (hs : sign r = decide (x < 0)) :
    value r = if x < 0 then -(magnitude r : Int) else magnitude r := by
  simp [value, hs]

theorem value_of_exact {r : Double} {x : Int} (hs : sign r = decide (x < 0)) (hm : magnitude r = x.natAbs) : value r = x := by
  rw [value_of_sign hs, hm]
  split <;> omega

theorem roundedMagnitude_of_tiny {x : Int} {rm : Rounding} (h : roundedMagnitude x rm < minnUnits) :
    x.natAbs < minnUnits ∧ roundedMagnitude x rm = x.natAbs :=
  have hx := lt_minn_of_round53 h
  ⟨hx, round53_of_lt_minn _ hx rm⟩

theorem ulp_dvd_roundedMagnitude {x : Int} {rm : Rounding} (h : minnUnits ≤ roundedMagnitude x rm) :
    ulp (roundedMagnitude x rm) ∣ roundedMagnitude x rm := by
  refine ulp_dvd_round53 _ (Nat.le_of_not_lt fun hlt => ?_) rm
  rw [roundedMagnitude, round53_of_lt_minn _ hlt] at h
  omega

/-- Where nothing overflows and a tiny result is delivered, the result is finite, has the sum's sign and the rounded
magnitude. -/
theorem deliver_of_le_maxf {x : Int} {rm : Rounding} (h : roundedMagnitude x rm ≤ maxfUnits) (pre : Conds) :
    isFinite (deliver x rm false true pre).res = true ∧ sign (deliver x rm false true pre).res = decide (x < 0) ∧
      magnitude (deliver x rm false true pre).res = roundedMagnitude x rm := by
  rcases Nat.lt_or_ge (roundedMagnitude x rm) minnUnits with htiny | hmin
  · obtain ⟨hx, hexact⟩ := roundedMagnitude_of_tiny htiny
    rw [deliver_of_tiny _ _ _ htiny, hexact]
    exact ⟨isFinite_pack_denormal _ _, sign_pack .., magnitude_pack_denormal _ hx⟩
  · rw [deliver_of_normal _ _ _ hmin h]
    exact ⟨isFinite_encodeNormal _ hmin h, sign_encodeNormal ..,
      magnitude_encodeNormal _ hmin h (ulp_dvd_roundedMagnitude hmin)⟩

/-! Correct rounding. -/

/-- Rounded toward zero, a sum has the largest magnitude not above its own. -/
theorem roundedMagnitude_below {x : Int} {rm : Rounding} (h : rm = .rz ∨ rm = .rd ∧ ¬x < 0 ∨ rm = .ru ∧ x < 0) :
    roundedMagnitude x rm ≤ x.natAbs ∧ ∀ c, magnitude c ≤ x.natAbs → magnitude c ≤ roundedMagnitude x rm := by
  have hr : roundedMagnitude x rm = floor53 x.natAbs := round53_toward_zero _ (by simpa using h)
  have hfloor := floor53_add_mod x.natAbs
  have hlt := lt_floor53_add_ulp x.natAbs
  refine ⟨by omega, fun c hc => ?_⟩
  have hgap := magnitude_le_or_ge x.natAbs c
  omega

/-- Rounded away from zero, it has the smallest magnitude not below its own. -/
theorem roundedMagnitude_above {x : Int} {rm : Rounding} (h : rm = .rd ∧ x < 0 ∨ rm = .ru ∧ ¬x < 0) :
    x.natAbs ≤ roundedMagnitude x rm ∧ ∀ c, x.natAbs ≤ magnitude c → roundedMagnitude x rm ≤ magnitude c := by
  have hr := round53_away (neg := decide (x < 0)) x.natAbs (rm := rm) (by simpa using h)
  rw [← roundedMagnitude] at hr
  have hfloor := floor53_add_mod x.natAbs
  have hlt := lt_floor53_add_ulp x.natAbs
  refine ⟨by split at hr <;> omega, fun c hc => ?_⟩
  have hgap := magnitude_le_or_ge x.natAbs c
  split at hr <;> omega

section Correct
variable {x : Int} {r : Double} (hs : sign r = decide (x < 0))
include hs

/-- To nearest: no value is nearer to the sum, and another one is as near on a tie only. -/
theorem nearest_value (hm : magnitude r = roundedMagnitude x .rn) (c : Double) :
    (x - value r).natAbs ≤ (x - value c).natAbs ∧
      (value c ≠ value r → (x - value r).natAbs = (x - value c).natAbs →
        2 * (x.natAbs % ulp x.natAbs) = ulp x.natAbs) := by
  have hvr := value_of_sign hs
  have hvc := natAbs_value c
  have hfloor := floor53_add_mod x.natAbs
  have hlt := lt_floor53_add_ulp x.natAbs
  have hgap := magnitude_le_or_ge x.natAbs c
  obtain ⟨hr, -⟩ := round53_nearest (decide (x < 0)) x.natAbs
  rw [← roundedMagnitude, ← hm] at hr
  split at hvr <;> omega

theorem largest_not_above (hm : magnitude r = roundedMagnitude x .rd) :
    value r ≤ x ∧ ∀ c, value c ≤ x → value c ≤ value r := by
  have hvr := value_of_sign hs
  by_cases hx : x < 0
  · obtain ⟨hle, hleast⟩ := roundedMagnitude_above (.inl ⟨rfl, hx⟩)
    refine ⟨by omega, fun c hc => ?_⟩
    have hvc := natAbs_value c
    have hc' := hleast c
    omega
  · obtain ⟨hle, hgreatest⟩ := roundedMagnitude_below (.inr (.inl ⟨rfl, hx⟩))
    refine ⟨by omega, fun c hc => ?_⟩
    have hvc := natAbs_value c
    have hc' := hgreatest c
    omega

theorem smallest_not_below (hm : magnitude r = roundedMagnitude x .ru) :
    x ≤ value r ∧ ∀ c, x ≤ value c → value r ≤ value c := by
  have hvr := value_of_sign hs
  by_cases hx : x < 0
  · obtain ⟨hle, hgreatest⟩ := roundedMagnitude_below (.inr (.inr ⟨rfl, hx⟩))
    refine ⟨by omega, fun c hc => ?_⟩
    have hvc := natAbs_value c
    have hc' := hgreatest c
    omega
  · obtain ⟨hle, hleast⟩ := roundedMagnitude_above (.inr ⟨rfl, hx⟩)
    refine ⟨by omega, fun c hc => ?_⟩
    have hvc := natAbs_value c
    have hc' := hleast c
    omega

theorem mul_value_nonneg : 0 ≤ x * value r := by
  have hvr := value_of_sign hs
  split at hvr
  · exact mul_nonneg_of_nonpos_of_nonpos (by omega) (by omega)
  · exact mul_nonneg (by omega) (by omega)

end Correct

theorem largest_magnitude_not_exceeding {x : Int} {r : Double} (hm : magnitude r = roundedMagnitude x .rz) :
    (value r).natAbs ≤ x.natAbs ∧ ∀ c, (value c).natAbs ≤ x.natAbs → (value c).natAbs ≤ (value r).natAbs := by
  obtain ⟨hle, hgreatest⟩ := roundedMagnitude_below (x := x) (rm := .rz) (.inl rfl)
  simp only [natAbs_value, hm]
  exact ⟨hle, hgreatest⟩

/-- The fraction of a normal pattern is what its magnitude leaves above `2^52`, counted in its distance. -/
theorem frac_of_minn_le {r : Double} (h : minnUnits ≤ magnitude r) :
    frac r = magnitude r / ulp (magnitude r) - 2 ^ 52 := by
  conv_lhs => rw [← encodeNormal_magnitude ((minn_le_magnitude_iff r).mp h)]
  exact frac_encodeNormal _ h

/-- On a tie the rounded magnitude has an even fraction. -/
theorem frac_even_of_tie {x : Int} {r : Double} (hm : magnitude r = roundedMagnitude x .rn)
    (htie : 2 * (x.natAbs % ulp x.natAbs) = ulp x.natAbs) : frac r % 2 = 0 := by
  have hmin : minnUnits ≤ x.natAbs := Nat.le_of_not_lt fun h => by
    have := ulp_of_lt h
    omega
  have heven : 2 * ulp x.natAbs ∣ magnitude r := hm ▸ (round53_nearest (decide (x < 0)) x.natAbs).2 htie
  have hulp := ulp_round53 (decide (x < 0)) hmin .rn
  rw [← roundedMagnitude, ← hm] at hulp
  rw [frac_of_minn_le (hm ▸ minn_le_round53 _ hmin .rn)]
  rcases hulp with hulp | ⟨hpow, hulp⟩
  · obtain ⟨k, hk⟩ := heven
    rw [hulp, hk, Nat.mul_assoc, Nat.mul_left_comm, Nat.mul_div_cancel_left _ (ulp_pos _)]
    omega
  · rw [hulp, hpow, show 2 ^ 53 * ulp x.natAbs = 2 ^ 52 * (2 * ulp x.natAbs) by ring,
      Nat.mul_div_cancel _ (Nat.mul_pos (by decide) (ulp_pos _)), Nat.sub_self]

/-! The statements about a non-zero sum. -/

theorem roundedMagnitude_le_of_not_overflow {x : Int} {rm : Rounding} {ftz um : Bool} {pre : Conds}
    (h : (deliver x rm ftz um pre).post.o = false) : roundedMagnitude x rm ≤ maxfUnits :=
  Nat.le_of_not_lt fun hover => by
    rw [deliver_of_overflow _ _ _ hover] at h
    cases h

/-- Settles O51: the result has the sum's sign and rounded magnitude; no value lies strictly between the two neighbours of the
sum, and each mode takes the one it names. -/
theorem roundingIsCorrect : Obligations.RoundingIsCorrect := by
  intro a b rm ha hb hx x r hpost
  have hadd : fadd64 a b rm false false true = deliver x rm false true (denormalOperand false a b) :=
    fadd64_of_nonzero_sum rm false true ha hb hx
  rw [hadd] at hpost
  obtain ⟨hfin, hs, hm⟩ := deliver_of_le_maxf (roundedMagnitude_le_of_not_overflow hpost) (denormalOperand false a b)
  rw [← hadd] at hfin hs hm
  refine ⟨hfin, ?rn, ?rd, ?ru, ?rz⟩
  case rn =>
    rintro rfl c -
    obtain ⟨hnear, htie⟩ := nearest_value hs hm c
    exact ⟨hnear, fun hne heq => frac_even_of_tie hm (htie hne heq)⟩
  case rd =>
    rintro rfl
    obtain ⟨hle, hlargest⟩ := largest_not_above hs hm
    exact ⟨hle, fun c _ => hlargest c⟩
  case ru =>
    rintro rfl
    obtain ⟨hle, hsmallest⟩ := smallest_not_below hs hm
    exact ⟨hle, fun c _ => hsmallest c⟩
  case rz =>
    rintro rfl
    obtain ⟨hle, hlargest⟩ := largest_magnitude_not_exceeding hm
    exact ⟨hle, mul_value_nonneg hs, fun c _ _ => hlargest c⟩

theorem deliver_overflow_iff (x : Int) (rm : Rounding) (ftz um : Bool) (pre : Conds) :
    (deliver x rm ftz um pre).post.o = true ↔ maxfUnits < roundedMagnitude x rm := by
  refine ⟨fun h => ?_, fun h => by rw [deliver_of_overflow _ _ _ h]⟩
  by_contra hle
  rcases Nat.lt_or_ge (roundedMagnitude x rm) minnUnits with htiny | hmin
  · rw [deliver_of_tiny _ _ _ htiny] at h
    cases um <;> cases ftz <;> cases h
  · rw [deliver_of_normal _ _ _ hmin (Nat.le_of_not_lt hle)] at h
    cases h

/-- Settles O52: a finite sum overflows in `deliver` only, and an infinite operand never comes to it. -/
theorem overflowResults : Obligations.OverflowResults := by
  refine ⟨?finite, ?infinite, by decide +kernel, by decide +kernel, by decide +kernel⟩
  case finite =>
    intro a b rm ftz um ha hb hx x r
    have hr : r = deliver x rm ftz um (denormalOperand false a b) := fadd64_of_nonzero_sum rm ftz um ha hb hx
    have hiff : r.post.o = true ↔ maxfUnits < roundedMagnitude x rm := by
      rw [hr]
      exact deliver_overflow_iff x rm ftz um _
    refine ⟨hiff, fun ho => ?_⟩
    rw [hr, deliver_of_overflow _ _ _ (hiff.mp ho)]
    refine ⟨rfl, ?_⟩
    rcases Int.lt_or_gt_of_ne hx with hneg | hpos
    · rw [decide_eq_true (p := x < 0) hneg, decide_eq_false (p := 0 < x) (Int.not_lt.mpr hneg.le)]
      cases rm <;> rfl
    · rw [decide_eq_false (p := x < 0) (Int.not_lt.mpr hpos.le), decide_eq_true (p := 0 < x) hpos]
      cases rm <;> rfl
  case infinite =>
    intro a b rm daz ftz um hinf
    have hnot : ¬(isFinite a = true ∧ isFinite b = true) := by
      rintro ⟨ha, hb⟩
      simp [isInf_of_isFinite ha, isInf_of_isFinite hb] at hinf
    rw [fadd64_post_of_not_finite rm daz ftz um hnot]

/-- Settles O53: a tiny sum is its own rounding, and what is not tiny is delivered whatever FTZ and the mask. -/
theorem tinyResults : Obligations.TinyResults := by
  intro a b rm ftz ha hb hx x tiny
  have hadd (ftz um : Bool) : fadd64 a b rm false ftz um = deliver x rm ftz um (denormalOperand false a b) :=
    fadd64_of_nonzero_sum rm ftz um ha hb hx
  simp only [hadd]
  refine ⟨fun ht => ?unmasked, fun ht => ?flushed, fun ht => ?delivered, fun ht um => ?normal⟩
  case unmasked =>
    rw [deliver_of_tiny _ _ _ ht]
    exact ⟨rfl, rfl⟩
  case flushed =>
    rw [deliver_of_tiny _ _ _ ht, zeroOf]
    simp only [decide_eq_true_iff]
    rfl
  case delivered =>
    obtain ⟨hmin, -⟩ := roundedMagnitude_of_tiny ht
    rw [deliver_of_tiny _ _ _ ht]
    exact ⟨value_of_exact (sign_pack ..) (magnitude_pack_denormal _ hmin),
      isDenormal_pack _ hmin (Int.natAbs_ne_zero.mpr hx), rfl, rfl⟩
  case normal =>
    have hmin : minnUnits ≤ roundedMagnitude x rm := Nat.le_of_not_lt ht
    rcases Nat.lt_or_ge maxfUnits (roundedMagnitude x rm) with hover | hmax
    · rw [deliver_of_overflow _ _ _ hover, deliver_of_overflow _ _ _ hover]
    · rw [deliver_of_normal _ _ _ hmin hmax, deliver_of_normal _ _ _ hmin hmax]

/-! When the delivered result is exact. -/

/-- A sum whose magnitude is that of a finite pattern does not overflow. -/
theorem not_overflow_of_value {x : Int} {rm : Rounding} {c : Double} (hc : isFinite c = true) (hv : value c = x) :
    roundedMagnitude x rm ≤ maxfUnits := by
  rw [roundedMagnitude, ← hv, natAbs_value, round53_magnitude]
  exact magnitude_le_maxf hc

@[simp] theorem value_zeroOf (neg : Bool) : value (zeroOf neg) = 0 := by
  simp [value_eq_zero_iff, isZero]

theorem value_eq_iff_of_sign {r : Double} {x : Int} (hs : sign r = decide (x < 0)) : value r = x ↔ magnitude r = x.natAbs :=
  ⟨fun h => by rw [← natAbs_value, h], value_of_exact hs⟩

/-- With underflow masked P says that the result is not the sum: after overflow and flush it never is. -/
theorem deliver_precision_iff {x : Int} (hx : x ≠ 0) (rm : Rounding) (ftz : Bool) (pre : Conds) :
    (deliver x rm ftz true pre).post.p = true ↔
      isFinite (deliver x rm ftz true pre).res = false ∨ value (deliver x rm ftz true pre).res ≠ x := by
  rw [← Bool.not_eq_true, ← not_and_or]
  rcases Nat.lt_or_ge maxfUnits (roundedMagnitude x rm) with hover | hmax
  · refine iff_of_true (by rw [deliver_of_overflow _ _ _ hover]) fun ⟨hfin, hv⟩ => ?_
    exact absurd (not_overflow_of_value hfin hv) (Nat.not_le.mpr hover)
  · rcases Nat.lt_or_ge (roundedMagnitude x rm) minnUnits with htiny | hmin
    · cases ftz
      · obtain ⟨hfin, hs, hm⟩ := deliver_of_le_maxf hmax pre
        obtain ⟨-, hexact⟩ := roundedMagnitude_of_tiny htiny
        refine iff_of_false ?_ (not_not_intro ⟨hfin, value_of_exact hs (hm.trans hexact)⟩)
        rw [deliver_of_tiny _ _ _ htiny]
        exact Bool.false_ne_true
      · rw [deliver_of_tiny _ _ _ htiny]
        refine iff_of_true rfl fun ⟨_, hv⟩ => hx ?_
        rw [← hv]
        exact value_zeroOf _
    · rw [deliver_of_normal _ _ _ hmin hmax, value_eq_iff_of_sign (sign_encodeNormal ..),
        magnitude_encodeNormal _ hmin hmax (ulp_dvd_roundedMagnitude hmin), isFinite_encodeNormal _ hmin hmax]
      simp

theorem isZero_zeroSum {a b : Double} (rm : Rounding) : isZero (zeroSum a b rm) = true := by
  by_cases h : isZero a = true ∧ isZero b = true ∧ sign a = sign b
  · obtain ⟨ha, hb, hs⟩ := h
    rwa [zeroSum_of_same_sign rm ha hb hs]
  · rw [zeroSum_otherwise rm h]
    simp [isZero]

theorem isFinite_of_isZero {a : Double} (h : isZero a = true) : isFinite a = true := by
  simp_all [isZero, isFinite]

/-- Settles O54: a zero sum is exact, and any other sum of finite operands is delivered. -/
theorem precisionMeansInexact : Obligations.PrecisionMeansInexact := by
  refine ⟨?masked, ?unmasked, ?notFinite⟩
  case masked =>
    intro a b rm ftz ha hb r
    by_cases hx : value a + value b = 0
    · have hr : r = ⟨zeroSum a b rm, denormalOperand false a b, {}⟩ := fadd64_of_zero_sum rm ftz true ha hb hx
      have hz : isZero (zeroSum a b rm) = true := isZero_zeroSum rm
      rw [hr, hx]
      simp [isFinite_of_isZero hz, value_eq_zero_iff.mpr hz]
    · have hr : r = deliver (value a + value b) rm ftz true (denormalOperand false a b) :=
        fadd64_of_nonzero_sum rm ftz true ha hb hx
      rw [hr]
      exact deliver_precision_iff hx rm ftz _
  case unmasked =>
    intro a b rm ftz ha hb hx x
    change _ ↔ _ ∧ ¬roundedMagnitude x rm < minnUnits
    rw [fadd64_of_nonzero_sum rm ftz false ha hb hx, fadd64_of_nonzero_sum rm false true ha hb hx]
    rcases Nat.lt_or_ge maxfUnits (roundedMagnitude x rm) with hover | hmax
    · rw [deliver_of_overflow _ _ _ hover, deliver_of_overflow _ _ _ hover]
      simp [(minn_le_maxf.trans hover.le)]
    · rcases Nat.lt_or_ge (roundedMagnitude x rm) minnUnits with htiny | hmin
      · rw [deliver_of_tiny _ _ _ htiny]
        simp [htiny]
      · rw [deliver_of_normal _ _ _ hmin hmax, deliver_of_normal _ _ _ hmin hmax]
        simp [hmin]
  case notFinite =>
    intro a b rm daz ftz um h
    rw [fadd64_post_of_not_finite rm daz ftz um fun ⟨ha, hb⟩ => by simp [ha, hb] at h]

/-! Commutativity, and the addition of a zero. -/

theorem OppositeInfinities.symm {a b : Double} (h : OppositeInfinities a b) : OppositeInfinities b a := by
  obtain ⟨ha, hb, hs⟩ := h
  exact ⟨hb, ha, hs.symm⟩

theorem denormalOperand_comm (daz : Bool) (a b : Double) : denormalOperand daz a b = denormalOperand daz b a := by
  simp [denormalOperand, Bool.or_comm]

theorem zeroSum_comm (a b : Double) (rm : Rounding) : zeroSum a b rm = zeroSum b a rm := by
  by_cases h : isZero a = true ∧ isZero b = true ∧ sign a = sign b
  · obtain ⟨ha, hb, hs⟩ := h
    rw [zeroSum_of_same_sign rm ha hb hs, zeroSum_of_same_sign rm hb ha hs.symm, eq_zeroOf ha, eq_zeroOf hb, hs]
  · rw [zeroSum_otherwise rm h, zeroSum_otherwise rm fun ⟨hb, ha, hs⟩ => h ⟨ha, hb, hs.symm⟩]

theorem fadd64_comm {a b : Double} (rm : Rounding) (daz ftz um : Bool) (ha : isNaN a = false) (hb : isNaN b = false) :
    fadd64 a b rm daz ftz um = fadd64 b a rm daz ftz um := by
  rcases operands_cases a b with hnan | hopp | ⟨hia, -, hs⟩ | ⟨hfa, hib⟩ | ⟨hfa, hfb⟩
  · simp [ha, hb] at hnan
  · rw [fadd64_of_opposite_infinities _ _ _ _ hopp, fadd64_of_opposite_infinities _ _ _ _ hopp.symm]
  · rw [fadd64_of_left_infinity _ _ _ _ hia hb hs, denormalOperand_comm]
    cases hib : isInf b
    · rw [fadd64_of_right_infinity _ _ _ _ (isFinite_of_not hb hib) hia]
    · rw [fadd64_of_left_infinity _ _ _ _ hib ha fun _ => (hs hib).symm, eq_of_isInf hia hib (hs hib)]
  · rw [fadd64_of_right_infinity _ _ _ _ hfa hib, denormalOperand_comm,
      fadd64_of_left_infinity _ _ _ _ hib ha fun hia => by rw [isInf_of_isFinite hfa] at hia; cases hia]
  · rw [fadd64_of_finite _ _ _ _ hfa hfb, fadd64_of_finite _ _ _ _ hfb hfa, denormalOperand_comm, zeroSum_comm, Int.add_comm]

/-- A value is delivered as its own pattern, unless it is a denormal that is flushed or faults. -/
theorem deliver_value {c : Double} (rm : Rounding) {ftz um : Bool} (pre : Conds) (hc : isFinite c = true)
    (h0 : value c ≠ 0) (hden : isDenormal c = true → ftz = false ∧ um = true) :
    (deliver (value c) rm ftz um pre).res = c := by
  have hs := sign_eq_of_value_ne_zero h0
  have hr : roundedMagnitude (value c) rm = magnitude c := by rw [roundedMagnitude, natAbs_value, round53_magnitude]
  by_cases he : expo c = 0
  · have htiny : magnitude c < minnUnits := Nat.lt_of_not_le fun h => (minn_le_magnitude_iff c).mp h he
    have hfrac : frac c ≠ 0 := fun hf => h0 (value_eq_zero_iff.mpr (by simp [isZero, he, hf]))
    obtain ⟨rfl, rfl⟩ := hden (by simp [isDenormal, he, hfrac])
    rw [deliver_of_tiny _ _ _ (hr ▸ htiny), ← hs, natAbs_value]
    exact pack_magnitude he
  · rw [deliver_of_normal _ _ _ (hr ▸ (minn_le_magnitude_iff c).mpr he) (hr ▸ magnitude_le_maxf hc), ← hs, hr]
    exact encodeNormal_magnitude he

/-- The sum with a zero is the operand, but for the sum of two zeros. -/
theorem fadd64_zeroOf {x : Double} (neg : Bool) (rm : Rounding) {daz ftz um : Bool} (hnan : isNaN x = false)
    (hden : isDenormal x = true → daz = false ∧ ftz = false ∧ um = true) :
    (fadd64 x (zeroOf neg) rm daz ftz um).res = if isZero x then zeroSum x (zeroOf neg) rm else x := by
  have hz : isFinite (zeroOf neg) = true := by simp [isFinite]
  have hzd : isDenormal (zeroOf neg) = false := by simp [isDenormal]
  have hx : applyDaz daz x = x := by
    cases h : isDenormal x
    · exact applyDaz_of_not_denormal daz h
    · rw [(hden h).1, applyDaz_false]
  cases hinf : isInf x
  · have hfin := isFinite_of_not hnan hinf
    rw [fadd64_of_finite _ _ _ _ hfin hz, hx, applyDaz_of_not_denormal daz hzd, value_zeroOf, Int.add_zero]
    simp only [value_eq_zero_iff]
    split <;> rename_i h
    · rfl
    · exact deliver_value rm _ hfin (fun h0 => h (value_eq_zero_iff.mp h0)) fun h => (hden h).2
  · have hnz : isZero x = false := by simp_all [isInf, isZero]
    rw [fadd64_of_left_infinity _ _ _ _ hinf (isNaN_of_isFinite hz) fun h => by simp [isInf] at h, hnz]
    rfl

/-- Settles O56: for the second and third part two NaNs, and a tie that absorbs each of two addends but not their sum. -/
theorem additionCommutes : Obligations.AdditionCommutes := by
  refine ⟨fun a b rm daz ftz um ha hb => fadd64_comm rm daz ftz um ha hb, ?nans, ?associativity, ?zeros⟩
  case nans => exact ⟨0x7FF8000000000001#64, 0x7FF8000000000002#64, by decide +kernel⟩
  case associativity => exact ⟨0x0020000000000000#64, 1#64, 1#64, by decide +kernel⟩
  case zeros =>
    intro x rm daz ftz um hnan hden
    have hpos := fadd64_zeroOf false rm hnan hden
    have hneg := fadd64_zeroOf true rm hnan hden
    change (fadd64 x (zeroOf false) rm daz ftz um).res = _ ∧ (fadd64 x (zeroOf true) rm daz ftz um).res = _
    rw [hpos, hneg]
    cases hz : isZero x
    · have h0 : x ≠ 0#64 ∧ x ≠ 0x8000000000000000#64 := by
        constructor <;> rintro rfl <;> simp [isZero, expo, frac] at hz
      simp [h0]
    · rw [eq_zeroOf hz]
      cases sign x <;> cases rm <;> decide

end Sys2Proof.Machine
end

section
/-! The flags that an instruction cannot set: UE where underflow is masked and nothing is flushed, ZE always
(40_numerics_double_add.md R148, R149); and that the mask ZM is not read. -/

namespace Sys2Proof.Machine

/-! A bit of MXCSR that no condition of the lanes has is left as it was. -/

section Bit
variable {i : Instr} {s : State} {b : Nat} (hb : (condsOf (sumOf s i) (activity s i)).bits.getLsbD b = false)
include hb

theorem mxcsr_bit_of_next {t : State} (h : exec i s = .next t) : t.mxcsr.getLsbD b = s.mxcsr.getLsbD b := by
  obtain ⟨-, -, -, -, -, hmx, -, -⟩ := exec_eq_next h
  rw [hmx, BitVec.getLsbD_or]
  split <;> simp [hb]

theorem mxcsr_bit_of_fault {f : Fault} (h : exec i s = .fault f) : (faultState f).mxcsr.getLsbD b = s.mxcsr.getLsbD b := by
  rcases exec_eq_fault h with hcheck | ⟨-, hread⟩ | ⟨-, -, -, cause, seen, hraise, -, hstage⟩
  · rcases checkEnabled_eq_fault hcheck with rfl | rfl <;> rfl
  · rcases readSource_eq_fault hread with ⟨n, rfl | rfl⟩ | ⟨code, a, n, -, rfl⟩ <;> rfl
  · obtain ⟨hcause, hseen⟩ : cause.Subset seen ∧ seen.Subset (condsOf (sumOf s i) (activity s i)) := by
      rcases hstage with ⟨rfl, rfl⟩ | ⟨-, rfl, rfl⟩
      · exact ⟨Conds.unmasked_subset _ s, Conds.subset_union_left _ _⟩
      · exact ⟨(Conds.unmasked_subset _ s).union_right _, Conds.union_self _⟩
    have hseen := hseen.getLsbD_bits hb
    have hcause := hcause.getLsbD_bits hseen
    rw [raiseSimd_eq] at hraise
    have hf : faultState f = simdFaultState cause seen s := by
      cases Host.Outcome.fault.inj hraise
      split <;> rfl
    rw [hf, simdFaultState_mxcsr, drawFlags]
    simp [hseen, hcause]

end Bit

/-! UE. -/

theorem Conds.unions_u {cs : List Conds} (h : ∀ c ∈ cs, c.u = false) : (Conds.unions cs).u = false := by
  induction cs with
  | nil => rfl
  | cons c cs ih =>
    obtain ⟨hc, hcs⟩ := List.forall_mem_cons.mp h
    simp [Conds.unions, Conds.union, hc, ih hcs]

theorem condsOf_u {out : Nat → FaddOut} (h : ∀ j, (out j).pre.u = false ∧ (out j).post.u = false) (act : List Bool) :
    (condsOf out act).u = false := by
  have hpre : (preOf out act).u = false := Conds.unions_u fun c hc => by
    obtain ⟨j, -, rfl⟩ := List.mem_map.mp hc
    exact (h j).1
  have hpost : (postOf out act).u = false := Conds.unions_u fun c hc => by
    obtain ⟨j, -, rfl⟩ := List.mem_map.mp hc
    exact (h j).2
  simp [condsOf, Conds.union, hpre, hpost]

/-- Masked and not flushed, a tiny sum raises nothing, and no other sum raises U. -/
theorem deliver_post_u (x : Int) (rm : Rounding) (pre : Conds) : (deliver x rm false true pre).post.u = false := by
  rcases Nat.lt_or_ge maxfUnits (roundedMagnitude x rm) with hover | hmax
  · rw [deliver_of_overflow _ _ _ hover]
  · rcases Nat.lt_or_ge (roundedMagnitude x rm) minnUnits with htiny | hmin
    · rw [deliver_of_tiny _ _ _ htiny]
      rfl
    · rw [deliver_of_normal _ _ _ hmin hmax]

theorem fadd64_u (a b : Double) (rm : Rounding) (daz : Bool) :
    (fadd64 a b rm daz false true).pre.u = false ∧ (fadd64 a b rm daz false true).post.u = false := by
  constructor
  · rcases fadd64_pre_cases rm daz false true a b with ⟨i, h⟩ | h
    · rw [h]
    · rw [h]; rfl
  · by_cases hfin : isFinite a = true ∧ isFinite b = true
    · rw [fadd64_of_finite _ _ _ _ hfin.1 hfin.2]
      split
      · rfl
      · exact deliver_post_u _ _ _
    · rw [fadd64_post_of_not_finite _ _ _ _ hfin]

/-- With UM = 1 and FTZ = 0 no lane raises U, so that the flag bit is not among those of the conditions. -/
theorem condsOf_sumOf_u {s : State} (hum : s.um = true) (hftz : s.ftz = false) (i : Instr) :
    (condsOf (sumOf s i) (activity s i)).bits.getLsbD 4 = false := by
  obtain ⟨-, -, -, hu, -⟩ := (condsOf (sumOf s i) (activity s i)).getLsbD_bits
  rw [hu]
  refine condsOf_u (fun j => ?_) _
  rw [sumOf, laneOut, hum, hftz, Bool.or_true]
  exact fadd64_u ..

/-- Settles O31: below `MINN` neighbours are one unit apart, so that nothing is rounded; and no lane raises U. -/
theorem tinySumsAreExact : Obligations.TinySumsAreExact := by
  refine ⟨fun neg m rm _ =>
      ⟨fun hlt => ⟨?exact, magnitude_pack_denormal neg hlt⟩, fun hge => minn_le_round53 neg hge rm⟩,
    fun i s t hum hftz => mxcsr_bit_of_next (condsOf_sumOf_u hum hftz i),
    fun i s f hum hftz => mxcsr_bit_of_fault (condsOf_sumOf_u hum hftz i)⟩
  case exact =>
    have hmag := round53_of_lt_minn neg hlt rm
    have hinexact : (round53 neg m rm).2 = false := by
      rw [Bool.eq_false_iff, ne_eq, round53_inexact, not_not, hmag]
    exact Prod.ext hmag hinexact

/-! ZE and ZM. -/

/-- The state with its vector, mask and MXCSR registers changed, in any way; `State.withMasks` changes the mask registers
only. -/
def State.mapRegisters (z : Vector VecReg 32 → Vector VecReg 32) (k : Vector (BitVec 64) 8 → Vector (BitVec 64) 8)
    (m : BitVec 32 → BitVec 32) (s : State) : State := { s with zmm := z s.zmm, k := k s.k, mxcsr := m s.mxcsr }

section Registers
variable (z : Vector VecReg 32 → Vector VecReg 32) (k : Vector (BitVec 64) 8 → Vector (BitVec 64) 8)
  (m : BitVec 32 → BitVec 32) (s : State)

theorem raise_mapRegisters {α β : Type} (h : α → β) (e : Exn) :
    raise e (s.mapRegisters z k m) = mapResult (State.mapRegisters z k m) h (raise e s) := by
  cases e <;> rfl

/-- Segmentation, paging and alignment read none of these registers: the checks of a memory operand have the same outcome. -/
theorem checkOperand_mapRegisters (seg dflt : Seg) (ea : Addr) (align : Bool) (offs : List Nat) :
    checkOperand (s.mapRegisters z k m) seg dflt ea align offs =
      mapResult (State.mapRegisters z k m) id (checkOperand s seg dflt ea align offs) := by
  have hx : crosses4G (s.mapRegisters z k m) ea offs = crosses4G s ea offs := rfl
  have hs : segmentOk (s.mapRegisters z k m) seg ea offs = segmentOk s seg ea offs := rfl
  have ha : aligned16 (s.mapRegisters z k m) seg ea = aligned16 s seg ea := rfl
  have hr : refusedBytes (s.mapRegisters z k m) seg ea offs = refusedBytes s seg ea offs := rfl
  have hfault (mis : Bool) : segmentFault (s.mapRegisters z k m) seg dflt mis =
      mapResult (State.mapRegisters z k m) id (segmentFault s seg dflt mis) := by
    have hss : reportsStack (s.mapRegisters z k m) seg dflt = reportsStack s seg dflt := rfl
    have hc : overrideContested (s.mapRegisters z k m) seg dflt = overrideContested s seg dflt := rfl
    unfold segmentFault
    rw [hss, hc]
    dsimp only
    split
    · exact raise_mapRegisters z k m { s with draws := s.draws + 1 } id _
    · cases overrideContested s seg dflt
      · exact raise_mapRegisters z k m s id _
      · exact raise_mapRegisters z k m { s with draws := s.draws + 1 } id _
  have hpage (es : List (BitVec 32 × Addr)) : pageCheck (s.mapRegisters z k m) es =
      mapResult (State.mapRegisters z k m) id (pageCheck s es) := by
    match es with
    | [] | [_] | _ :: _ :: _ => rfl
  unfold checkOperand
  rw [hx, hs, ha, hr]
  dsimp only
  split
  · rfl
  · split
    · exact hfault _
    · split
      · exact raise_mapRegisters z k m s id .gp
      · exact hpage _

/-- So has the read of the source, where the vector registers stay. -/
theorem readSource_mapRegisters (align : Bool) (src : Source) (act : List Bool) :
    readSource (s.mapRegisters id k m) align src act =
      mapResult (State.mapRegisters id k m) id (readSource s align src act) := by
  cases src with
  | reg n => rfl
  | mem seg dflt ea bcast =>
    simp only [readSource]
    rw [checkOperand_mapRegisters]
    refine andThen_mapResult fun _ => ?_
    have hf : (s.mapRegisters id k m).cfg.faultSuppression = s.cfg.faultSuppression := rfl
    have ha (offs : List Nat) : accessible (s.mapRegisters id k m) seg ea offs = accessible s seg ea offs := rfl
    rw [hf, ha]
    split <;> rfl

theorem advance_mapRegisters (len : Nat) :
    advance len (s.mapRegisters z k m) = mapResult (State.mapRegisters z k m) (State.mapRegisters z k m) (advance len s) := by
  have hr (a : Nat) : ripOk (s.mapRegisters z k m) a = ripOk s a := rfl
  have hp : (s.mapRegisters z k m).rip = s.rip := rfl
  unfold advance
  rw [hr, hp]
  split <;> rfl

end Registers

/-- The mask ZM, bit 9 of MXCSR, flipped. -/
def flipZm : State → State := State.mapRegisters id id (· ^^^ 0x200#32)

section Flip
variable (s : State)

theorem getLsbD_xor_zm (m : BitVec 32) {b : Nat} (hb : b ≠ 9) : (m ^^^ 0x200#32).getLsbD b = m.getLsbD b := by
  rw [show (0x200#32) = BitVec.twoPow 32 9 by decide, BitVec.getLsbD_xor, BitVec.getLsbD_twoPow]
  simp [hb.symm]

/-- Every field of MXCSR that is read lies on other bits. -/
theorem extractLsb'_xor_zm (m : BitVec 32) {lo len : Nat} (h : 9 < lo) :
    (m ^^^ 0x200#32).extractLsb' lo len = m.extractLsb' lo len := by
  apply BitVec.eq_of_getLsbD_eq
  intro j hj
  rw [BitVec.getLsbD_extractLsb', BitVec.getLsbD_extractLsb', getLsbD_xor_zm m (by omega)]

theorem or_xor_zm (m flags : BitVec 32) (h : flags.getLsbD 9 = false) :
    (m ^^^ 0x200#32) ||| flags = (m ||| flags) ^^^ 0x200#32 := by
  apply BitVec.eq_of_getLsbD_eq
  intro j hj
  by_cases h9 : j = 9
  · subst h9
    rw [BitVec.getLsbD_or, BitVec.getLsbD_xor, BitVec.getLsbD_xor, BitVec.getLsbD_or, h, Bool.or_false, Bool.or_false]
  · rw [BitVec.getLsbD_or, getLsbD_xor_zm m h9, getLsbD_xor_zm _ h9, BitVec.getLsbD_or]

theorem orFlags_flipZm (c : Conds) : (flipZm s).orFlags c = flipZm (s.orFlags c) := by
  have h := or_xor_zm s.mxcsr c.bits (c.getLsbD_bits_other (by decide))
  simp [flipZm, State.mapRegisters, State.orFlags, h]

theorem simdFaultState_flipZm (cause seen : Conds) :
    simdFaultState cause seen (flipZm s) = flipZm (simdFaultState cause seen s) := by
  have h9 (c : Conds) : c.bits.getLsbD 9 = false := c.getLsbD_bits_other (by decide)
  have hdraw (free : BitVec 32) : (drawFlags cause seen free).getLsbD 9 = false := by
    rw [drawFlags, BitVec.getLsbD_or, BitVec.getLsbD_and, h9, h9, Bool.and_false, Bool.or_false]
  have h := or_xor_zm s.mxcsr _ (hdraw (Config.freeSimdFlags s.draws))
  simp [flipZm, State.mapRegisters, simdFaultState, h]

theorem checkEnabled_flipZm (c : EnableClass) : checkEnabled c (flipZm s) = mapResult flipZm id (checkEnabled c s) := by
  have hmx : (flipZm s).mxcsrOk = s.mxcsrOk := congrArg (· == 0#16) (extractLsb'_xor_zm s.mxcsr (by decide))
  have hp : premises (flipZm s) = premises s := by
    unfold premises
    rw [hmx]
    rfl
  have hd : disabled c (flipZm s) = disabled c s := rfl
  have ht : (flipZm s).ts = s.ts := rfl
  unfold checkEnabled
  rw [hp, hd, ht]
  cases premises s with
  | some r => rfl
  | none => cases disabled c s <;> cases s.ts <;> rfl

theorem raiseSimd_flipZm {α β : Type} (h : α → β) (cause seen : Conds) :
    raiseSimd cause seen (flipZm s) = mapResult flipZm h (raiseSimd cause seen s) := by
  unfold raiseSimd
  rw [simdFaultState_flipZm]
  exact raise_mapRegisters id id _ _ h _

theorem packedAdd_flipZm (rm : Rounding) (sae : Bool) (pairs : List (Option (Double × Double))) :
    packedAdd (flipZm s) rm sae pairs = mapResult flipZm (Prod.map id flipZm) (packedAdd s rm sae pairs) := by
  have hbit {b : Nat} (hb : b ≠ 9) : (flipZm s).mxcsr.getLsbD b = s.mxcsr.getLsbD b := getLsbD_xor_zm s.mxcsr hb
  have hl : laneSums (flipZm s) rm sae pairs = laneSums s rm sae pairs := by
    simp only [laneSums, State.daz, State.ftz, State.um, hbit (b := 6) (by decide), hbit (b := 15) (by decide),
      hbit (b := 11) (by decide)]
  have hu (c : Conds) : c.unmasked (flipZm s) = c.unmasked s := by
    simp only [Conds.unmasked, State.im, State.dm, State.om, State.um, State.pm, hbit (b := 7) (by decide),
      hbit (b := 8) (by decide), hbit (b := 10) (by decide), hbit (b := 11) (by decide), hbit (b := 12) (by decide)]
  unfold packedAdd
  dsimp only
  rw [hl, hu, hu, orFlags_flipZm]
  split
  · rfl
  · split
    · exact raiseSimd_flipZm s _ _ _
    · split
      · exact raiseSimd_flipZm s _ _ _
      · rfl

theorem rounding_flipZm (op : AddOp) : op.rounding (flipZm s) = op.rounding s := by
  have hrc : (flipZm s).rc = s.rc := congrArg Rounding.ofBits (extractLsb'_xor_zm s.mxcsr (by decide))
  unfold AddOp.rounding
  rw [hrc]

theorem execAdd_flipZm (op : AddOp) : execAdd op (flipZm s) = mapOutcome flipZm (execAdd op s) := by
  have hact : activeLanes (flipZm s) op.kl op.mask = activeLanes s op.kl op.mask := rfl
  rw [← mapResult_self]
  unfold execAdd
  dsimp only
  rw [hact, checkEnabled_flipZm]
  refine andThen_mapResult fun _ => ?_
  rw [flipZm, readSource_mapRegisters, ← flipZm]
  refine andThen_mapResult fun bs => ?_
  have hpairs : lanePairs (flipZm s) op.src1 (activeLanes s op.kl op.mask) bs =
      lanePairs s op.src1 (activeLanes s op.kl op.mask) bs := rfl
  rw [id, hpairs, rounding_flipZm, packedAdd_flipZm]
  exact andThen_mapResult fun r => advance_mapRegisters id id (· ^^^ 0x200#32) (r.2.setVec op.dst _) op.len

theorem opOf_flipZm (i : Instr) : opOf (flipZm s) i = opOf s i := by
  cases i <;> rfl

end Flip

/-- Settles O32: ZE is the flag of no condition, and every field of MXCSR that an addition reads lies off bit 9. -/
theorem divideByZeroNeverArises : Obligations.DivideByZeroNeverArises := by
  intro i s
  have hze : (condsOf (sumOf s i) (activity s i)).bits.getLsbD 2 = false := Conds.getLsbD_bits_other _ (by decide)
  refine ⟨fun t => mxcsr_bit_of_next hze, fun f => mxcsr_bit_of_fault hze, ?_⟩
  change exec i (flipZm s) = mapOutcome flipZm (exec i s)
  rw [exec_eq, exec_eq, opOf_flipZm, execAdd_flipZm]

end Sys2Proof.Machine
end

section
/-! Form F1, `ADDPD`: what it does where it completes, what it leaves unchanged, and the spec's examples
(41_addpd_legacy_sse.md R161, R162, R165). -/

namespace Sys2Proof

/-- The encoding of a well-formed instruction, with nothing after it, is decoded to it. -/
theorem decode_of_encode {m : Mode} {i : Instr} {bs : List Byte} (hwf : i.wf m = true) (h : encode i = bs) :
    decode m bs = .ok i i.length := by
  rw [← h, ← List.append_nil (encode i)]
  exact decode_encode [] hwf

/-- Settles O4: each word is what the encoder writes for its instruction, and an encoding decodes to what it encodes. -/
theorem specWordsDecode : Obligations.SpecWordsDecode := by
  refine ⟨?_, ?_, ?_, ?_, ?_, ?_, ?_, ?_, ?_, ?_⟩ <;> exact decode_of_encode (by decide) (by decide)

end Sys2Proof

namespace Sys2Proof.Machine

/-! The whole effect. -/

/-- Without embedded rounding an instruction that may run, whose source can be read and whose conditions are masked, completes
with its whole effect. -/
theorem exec_next_effect {i : Instr} {s : State} (her : embeddedRounding i = none) (hen : Enabled (enableClass i) s)
    (hsrc : SourceReady s (isLegacy i) (secondSource s i) (activity s i))
    (hm : NoneUnmasked (condsOf (sumOf s i) (activity s i)) s) (hrip : ripOk s (s.rip.toNat + i.length) = true) :
    ∃ t, exec i s = .next t ∧
      AddEffect s t (destination i) (if isLegacy i then .keep else .zero) (zeroingOf i) (sumOf s i) (activity s i)
        (condsOf (sumOf s i) (activity s i)) i.length := by
  obtain ⟨t, ht⟩ := exec_completes hen hsrc (.inr hm) hrip
  obtain ⟨-, -, -, -, heff⟩ := exec_eq_next ht
  rw [her] at heff
  exact ⟨t, ht, heff⟩

/-- Form F1 has neither embedded rounding nor zeroing-masking. -/
theorem evex_fields_of_isLegacy {i : Instr} (hl : isLegacy i = true) : embeddedRounding i = none ∧ zeroingOf i = false := by
  cases i
  case addpdSse | addpdSseRex => exact ⟨rfl, rfl⟩
  all_goals cases hl

/-- Form F1 has two lanes, both active. -/
theorem activity_of_isLegacy {i : Instr} (s : State) (hl : isLegacy i = true) : activity s i = [true, true] := by
  obtain ⟨-, hlanes, hmask⟩ := enableClass_of_isLegacy hl
  rw [activity_of_no_writemask s hmask, hlanes]
  rfl

/-- Where form F1 completes, with or without REX, and its whole effect. -/
theorem exec_next_effect_of_isLegacy {i : Instr} {s : State} (hl : isLegacy i = true) (hen : Enabled .sse s)
    (hsrc : SourceReady s true (secondSource s i) [true, true])
    (hm : NoneUnmasked (condsOf (sumOf s i) [true, true]) s) (hrip : ripOk s (s.rip.toNat + i.length) = true) :
    ∃ t, exec i s = .next t ∧ AddEffect s t (destination i) .keep false (sumOf s i) [true, true]
      (condsOf (sumOf s i) [true, true]) i.length := by
  obtain ⟨her, hz⟩ := evex_fields_of_isLegacy hl
  obtain ⟨hclass, -, -⟩ := enableClass_of_isLegacy hl
  have h := exec_next_effect (i := i) (s := s) her
  rw [hclass, activity_of_isLegacy s hl, hl, hz] at h
  exact h hen hsrc hm hrip

/-- Settles O16: both constructors are of form F1, and their fields are those the statement writes out. -/
theorem addpdCompletes : Obligations.AddpdCompletes :=
  ⟨fun p reg rm _ => exec_next_effect_of_isLegacy (i := .addpdSse p reg rm) rfl,
    fun p rex reg rm _ => exec_next_effect_of_isLegacy (i := .addpdSseRex p rex reg rm) rfl⟩

/-! The frame. -/

/-- An addition that keeps the upper bits leaves every bit from its lanes up as it was. -/
theorem AddEffect.getLsbD_vec_of_keep {s t : State} {d : BitVec 5} {z : Bool} {out : Nat → FaddOut} {act : List Bool}
    {c : Conds} {len b : Nat} (h : AddEffect s t d .keep z out act c len) (hb : 64 * act.length ≤ b) :
    (t.vec d).getLsbD b = (s.vec d).getLsbD b := by
  obtain ⟨⟨-, hupper⟩, -, -, -⟩ := h
  by_cases h512 : b < 512
  · rw [hupper b hb h512, if_neg (by simp)]
  · rw [BitVec.getLsbD_of_ge _ _ (by omega), BitVec.getLsbD_of_ge _ _ (by omega)]

/-- Settles O23: the frame is part of the effect of every instruction that completes; form F1 keeps the bits above its two
lanes, and MXCSR is OR-ed with flag bits only. -/
theorem addpdWritesOnlyItsState : Obligations.AddpdWritesOnlyItsState := by
  intro i s t hl h
  obtain ⟨her, -⟩ := evex_fields_of_isLegacy hl
  obtain ⟨-, -, -, -, heff⟩ := exec_eq_next h
  rw [activity_of_isLegacy s hl, hl] at heff
  obtain ⟨-, -, -, -, -, hother⟩ := flagsAreSticky i s t her h
  have hupper : ∀ b, 128 ≤ b → (t.vec (destination i)).getLsbD b = (s.vec (destination i)).getLsbD b :=
    fun b hb => heff.getLsbD_vec_of_keep hb
  obtain ⟨-, hmx, -, hframe⟩ := heff
  refine ⟨hframe, hupper, hother, fun b hb => ?_⟩
  rw [hmx, BitVec.getLsbD_or, hb, Bool.true_or]

/-! The worked example of R165. -/

/-- The low 128 bits of a register are its lanes 1 and 0. -/
theorem low128_eq_iff_lanes {v : VecReg} {hi lo : Double} :
    v.extractLsb' 0 128 = hi ++ lo ↔ lane v 1 = hi ∧ lane v 0 = lo := by
  have hsplit : v.extractLsb' 0 128 = lane v 1 ++ lane v 0 :=
    (BitVec.extractLsb'_append_extractLsb'_eq_extractLsb' (start₁ := 0) (len₁ := 64) (len₂ := 64) rfl).symm
  rw [hsplit]
  constructor
  · intro h
    have hhigh := congrArg (BitVec.extractLsb' 64 64) h
    have hlow := congrArg (BitVec.extractLsb' 0 64) h
    rw [BitVec.extractLsb'_append_eq_left, BitVec.extractLsb'_append_eq_left] at hhigh
    rw [BitVec.extractLsb'_append_eq_right, BitVec.extractLsb'_append_eq_right] at hlow
    exact ⟨hhigh, hlow⟩
  · rintro ⟨rfl, rfl⟩
    rfl

theorem Conds.unions_eq_empty {cs : List Conds} (h : ∀ c ∈ cs, c = {}) : Conds.unions cs = {} := by
  induction cs with
  | nil => rfl
  | cons c cs ih =>
    obtain ⟨hc, hcs⟩ := List.forall_mem_cons.mp h
    rw [Conds.unions, hc, ih hcs]
    rfl

/-- Lanes that raise nothing have no conditions. -/
theorem condsOf_eq_empty {out : Nat → FaddOut} {act : List Bool}
    (h : ∀ j, j < act.length → (out j).pre = {} ∧ (out j).post = {}) : condsOf out act = {} := by
  have hlt : ∀ j ∈ (List.range act.length).filter fun j => act.getD j false, j < act.length := fun j hj =>
    List.mem_range.mp (List.mem_filter.mp hj).1
  have hpre : preOf out act = {} := Conds.unions_eq_empty fun c hc => by
    obtain ⟨j, hj, rfl⟩ := List.mem_map.mp hc
    exact (h j (hlt j hj)).1
  have hpost : postOf out act = {} := Conds.unions_eq_empty fun c hc => by
    obtain ⟨j, hj, rfl⟩ := List.mem_map.mp hc
    exact (h j (hlt j hj)).2
  rw [condsOf, hpre, hpost]
  rfl

/-- `MXCSR = 0x1F80`: rounding to nearest, no DAZ, no FTZ, underflow masked (10_state.md R27). -/
theorem controls_of_mxcsr {s : State} (h : s.mxcsr = 0x1F80#32) :
    s.rc = .rn ∧ s.daz = false ∧ s.ftz = false ∧ s.um = true := by
  simp only [State.rc, State.daz, State.ftz, State.um, h]
  decide

/-- The two sums of the example, `1.0 + 0.5 = 1.5` and `2.0 + 0.25 = 2.25`, are exact. -/
theorem example_sums :
    fadd64 0x3FF0000000000000#64 0x3FE0000000000000#64 .rn false false true = ⟨0x3FF8000000000000#64, {}, {}⟩ ∧
      fadd64 0x4000000000000000#64 0x3FD0000000000000#64 .rn false false true = ⟨0x4002000000000000#64, {}, {}⟩ := by
  decide +kernel

/-- The instruction of the example, `ADDPD xmm0, xmm1`, whose bytes are `66 0F 58 C1`. -/
def addpdXmm0Xmm1 : Instr := .addpdSse ⟨none, false⟩ 0#3 (.reg 1#3)

theorem encode_addpdXmm0Xmm1 : encode addpdXmm0Xmm1 = [0x66#8, 0x0F#8, 0x58#8, 0xC1#8] := by decide

/-- The lanes of the example, where its values stand in the registers. -/
theorem sumOf_addpdXmm0Xmm1 {s : State} (hmx : s.mxcsr = 0x1F80#32)
    (h0 : (s.vec 0#5).extractLsb' 0 128 = 0x40000000000000003FF0000000000000#128)
    (h1 : (s.vec 1#5).extractLsb' 0 128 = 0x3FD00000000000003FE0000000000000#128) :
    sumOf s addpdXmm0Xmm1 0 = ⟨0x3FF8000000000000#64, {}, {}⟩ ∧
      sumOf s addpdXmm0Xmm1 1 = ⟨0x4002000000000000#64, {}, {}⟩ := by
  obtain ⟨hrc, hdaz, hftz, hum⟩ := controls_of_mxcsr hmx
  obtain ⟨ha1, ha0⟩ := low128_eq_iff_lanes (hi := 0x4000000000000000#64) (lo := 0x3FF0000000000000#64).mp h0
  obtain ⟨hb1, hb0⟩ := low128_eq_iff_lanes (hi := 0x3FD0000000000000#64) (lo := 0x3FE0000000000000#64).mp h1
  have hsum (j : Nat) : sumOf s addpdXmm0Xmm1 j =
      fadd64 (lane (s.vec 0#5) j) (lane (s.vec 1#5) j) s.rc s.daz s.ftz s.um := rfl
  rw [hsum, hsum, hrc, hdaz, hftz, hum, ha0, ha1, hb0, hb1]
  exact example_sums

/-- Settles O46: the step runs the instruction by O9, its sums are exact, and the rest is the effect and the frame of F1. -/
theorem workedExampleAddpd : Obligations.WorkedExampleAddpd := by
  intro s hmode hp he hdis hts hrip hmx hb0 hb1 hb2 hb3 hx0 hx1
  obtain ⟨hsum0, hsum1⟩ := sumOf_addpdXmm0Xmm1 hmx hx0 hx1
  have hstep : step s = exec addpdXmm0Xmm1 s := by
    refine instructionInMemoryRuns s _ hp he (by rw [hmode]; decide) fun j hj => ?_
    rw [encode_addpdXmm0Xmm1]
    match j, hj with
    | 0, _ => exact hb0
    | 1, _ => exact hb1
    | 2, _ => exact hb2
    | 3, _ => exact hb3
  have hconds : condsOf (sumOf s addpdXmm0Xmm1) [true, true] = {} := condsOf_eq_empty fun j hj => by
    match j, hj with
    | 0, _ => rw [hsum0]; exact ⟨rfl, rfl⟩
    | 1, _ => rw [hsum1]; exact ⟨rfl, rfl⟩
  have hnext : ripOk s (s.rip.toNat + addpdXmm0Xmm1.length) = true := by
    rw [hrip, ripOk, if_pos hmode]
    cases s.cfg.vabits <;> decide
  obtain ⟨t, ht, ⟨hlanes, -⟩, htmx, htrip, -⟩ :=
    exec_next_effect_of_isLegacy (i := addpdXmm0Xmm1) (s := s) rfl ⟨hp, hdis, hts⟩ trivial (by rw [hconds]; rfl) hnext
  obtain ⟨⟨hvec, -⟩, hupper, -, -⟩ := addpdWritesOnlyItsState _ _ _ rfl ht
  refine ⟨t, hstep.trans ht, ?sums, hvec 1#5 (by decide), hupper, ?mxcsr, BitVec.eq_of_toNat_eq ?rip⟩
  case sums =>
    refine low128_eq_iff_lanes (hi := 0x4002000000000000#64) (lo := 0x3FF8000000000000#64).mpr ⟨?_, ?_⟩
    · exact (hlanes 1 (by decide)).trans (congrArg FaddOut.res hsum1)
    · exact (hlanes 0 (by decide)).trans (congrArg FaddOut.res hsum0)
  case mxcsr => rw [htmx, hmx, hconds, Conds.bits_empty, BitVec.or_zero]
  case rip => rw [htrip, hrip]; decide

end Sys2Proof.Machine
end

section
/-! Forms F2 and F3, `VADDPD` with a VEX prefix: the whole effect of a form that completes, its frame, and what it shares with
form F1 (42_vaddpd_vex.md R170 to R175). -/

namespace Sys2Proof.Machine

/-! The whole effect. -/

/-- A VEX form has no field that only EVEX has, and asks for no alignment. -/
theorem fields_of_vex {i : Instr} (hv : enableClass i = .vex) :
    embeddedRounding i = none ∧ zeroingOf i = false ∧ writemask i = 0#3 ∧ isLegacy i = false := by
  cases i
  case vaddpdVex128C5 | vaddpdVex128C4 | vaddpdVex256C5 | vaddpdVex256C4 => exact ⟨rfl, rfl, rfl, rfl⟩
  all_goals cases hv

/-- Where a VEX form completes, and its whole effect: every lane is active, and no alignment is asked. -/
theorem exec_next_effect_of_vex {i : Instr} {s : State} (hv : enableClass i = .vex) (hen : Enabled .vex s)
    (hsrc : SourceReady s false (secondSource s i) (List.replicate (laneCount i) true))
    (hm : NoneUnmasked (condsOf (sumOf s i) (List.replicate (laneCount i) true)) s)
    (hrip : ripOk s (s.rip.toNat + i.length) = true) :
    ∃ t, exec i s = .next t ∧
      AddEffect s t (destination i) .zero false (sumOf s i) (List.replicate (laneCount i) true)
        (condsOf (sumOf s i) (List.replicate (laneCount i) true)) i.length := by
  obtain ⟨her, hz, hmask, hl⟩ := fields_of_vex hv
  have h := exec_next_effect (i := i) (s := s) her
  rw [hv, activity_of_no_writemask s hmask, hl, hz] at h
  exact h hen hsrc hm hrip

/-- The effect of a VEX form that has completed. -/
theorem effect_of_exec_vex {i : Instr} {s t : State} (hv : enableClass i = .vex) (h : exec i s = .next t) :
    AddEffect s t (destination i) .zero false (sumOf s i) (List.replicate (laneCount i) true)
      (condsOf (sumOf s i) (List.replicate (laneCount i) true)) i.length := by
  obtain ⟨her, hz, hmask, hl⟩ := fields_of_vex hv
  obtain ⟨-, -, -, -, heff⟩ := exec_eq_next h
  rw [her, activity_of_no_writemask s hmask, hl, hz] at heff
  exact heff

/-- Settles O17: both constructors are VEX forms of two lanes, and their fields are those the statement writes out. -/
theorem vaddpdVex128Completes : Obligations.VaddpdVex128Completes :=
  ⟨fun p v reg rm _ => exec_next_effect_of_vex (i := .vaddpdVex128C5 p v reg rm) rfl,
    fun p v reg rm _ => exec_next_effect_of_vex (i := .vaddpdVex128C4 p v reg rm) rfl⟩

/-- Settles O18: both constructors are VEX forms of four lanes. -/
theorem vaddpdVex256Completes : Obligations.VaddpdVex256Completes :=
  ⟨fun p v reg rm _ => exec_next_effect_of_vex (i := .vaddpdVex256C5 p v reg rm) rfl,
    fun p v reg rm _ => exec_next_effect_of_vex (i := .vaddpdVex256C4 p v reg rm) rfl⟩

/-! The frame. -/

section Effect

variable {s t : State} {d : BitVec 5} {z : Bool} {upper : Upper} {out : Nat → FaddOut} {act : List Bool} {c : Conds} {len : Nat}

/-- Where every lane is active, every lane is its sum. -/
theorem AddEffect.lane_of_all_active {kl j : Nat} (h : AddEffect s t d upper z out (List.replicate kl true) c len)
    (hj : j < kl) : lane (t.vec d) j = (out j).res := by
  obtain ⟨⟨hlanes, -⟩, -, -, -⟩ := h
  have hact : (List.replicate kl true).getD j false = true := by simp [List.getD, hj]
  exact (hlanes j (by rwa [List.length_replicate])).trans (if_pos hact)

/-- An addition that zeroes the upper bits leaves none set from its lanes up to `MAXVL`. -/
theorem AddEffect.getLsbD_vec_of_zero {b : Nat} (h : AddEffect s t d .zero z out act c len) (hb : 64 * act.length ≤ b)
    (hmax : b < maxvl s.cfg) : (t.vec d).getLsbD b = false := by
  obtain ⟨⟨-, hupper⟩, -, -, -⟩ := h
  have h512 : b < 512 := hmax.trans_le (maxvl_le s.cfg)
  rw [hupper b hb h512, if_pos ⟨rfl, hmax⟩]

/-- An addition clears no bit of MXCSR. -/
theorem AddEffect.mxcsr_of_set {b : Nat} (h : AddEffect s t d upper z out act c len) (hb : s.mxcsr.getLsbD b = true) :
    t.mxcsr.getLsbD b = true := by
  obtain ⟨-, hmx, -, -⟩ := h
  rw [hmx, BitVec.getLsbD_or, hb, Bool.true_or]

end Effect

/-- Settles O24: each part is read off the effect of a VEX form; that MXCSR changes at the flag bits only is O26. -/
theorem vexWritesOnlyItsState : Obligations.VexWritesOnlyItsState := by
  intro i s t hv h
  have heff := effect_of_exec_vex hv h
  obtain ⟨her, -⟩ := fields_of_vex hv
  obtain ⟨-, -, -, -, -, hother⟩ := flagsAreSticky i s t her h
  have hupper : ∀ b, 64 * laneCount i ≤ b → b < maxvl s.cfg → (t.vec (destination i)).getLsbD b = false :=
    fun b hb => heff.getLsbD_vec_of_zero (by rwa [List.length_replicate])
  obtain ⟨-, -, -, hframe⟩ := effect_of_exec_vex hv h
  exact ⟨hframe, fun j hj => heff.lane_of_all_active hj, hupper, hother, fun b => heff.mxcsr_of_set⟩

/-- Instructions that perform the same addition do the same. -/
theorem exec_congr {i j : Instr} {s : State} (h : opOf s i = opOf s j) : exec i s = exec j s := by
  rw [exec_eq, exec_eq, h]

/-- Settles O27: no field of the addition an instruction performs, its length included, depends on W. -/
theorem wIsIgnored : Obligations.WIsIgnored :=
  fun _ _ _ _ _ _ _ => ⟨exec_congr rfl, exec_congr rfl, exec_congr rfl⟩

/-! Form F1 and form F2. -/

/-- The effect of form F1 once it has completed. -/
theorem effect_of_exec_legacy {i : Instr} {s t : State} (hl : isLegacy i = true) (h : exec i s = .next t) :
    AddEffect s t (destination i) .keep false (sumOf s i) [true, true] (condsOf (sumOf s i) [true, true]) i.length := by
  obtain ⟨her, hz⟩ := evex_fields_of_isLegacy hl
  obtain ⟨-, -, -, -, heff⟩ := exec_eq_next h
  rw [her, activity_of_isLegacy s hl, hl, hz] at heff
  exact heff

/-- Two additions of the same sums into the same register, both with every lane active, differ in nothing that either writes but
the bits above their lanes, whatever becomes of these. -/
theorem AddEffect.agree {s t u : State} {d : BitVec 5} {z z' : Bool} {upper upper' : Upper} {out : Nat → FaddOut} {kl : Nat}
    {c : Conds} {len : Nat} (ht : AddEffect s t d upper z out (List.replicate kl true) c len)
    (hu : AddEffect s u d upper' z' out (List.replicate kl true) c len) :
    (∀ n, n ≠ d → t.vec n = u.vec n) ∧ (∀ j, j < kl → lane (t.vec d) j = lane (u.vec d) j) ∧ t.mxcsr = u.mxcsr ∧
      t.rip = u.rip := by
  have hlanes : ∀ j, j < kl → lane (t.vec d) j = lane (u.vec d) j := fun j hj =>
    (ht.lane_of_all_active hj).trans (hu.lane_of_all_active hj).symm
  obtain ⟨-, htmx, htrip, htvec, -⟩ := ht
  obtain ⟨-, humx, hurip, huvec, -⟩ := hu
  exact ⟨fun n hn => (htvec n hn).trans (huvec n hn).symm, hlanes, htmx.trans humx.symm,
    BitVec.eq_of_toNat_eq (htrip.trans hurip.symm)⟩

/-- The first source `vvvv` that names the destination: its number below 16 (30_encoding.md R103). -/
theorem setWidth_vvvv_eq_vecNum (r : Bool) (reg : BitVec 3) : (bit1 r ++ reg).setWidth 5 = vecNum false r reg := by
  revert r reg
  decide

/-- Form F2 with the destination as its first source adds the same lanes as form F1 with the same second source. -/
theorem sumOf_vex_eq_sumOf_legacy (p : Prefixes) (rex : Rex) (w : Bool) (reg : BitVec 3) (rm : RmOperand) (s : State) :
    sumOf s (.vaddpdVex128C5 p ⟨false, 0#1 ++ reg⟩ reg rm) = sumOf s (.addpdSse p reg rm) ∧
      sumOf s (.vaddpdVex128C4 p ⟨rex.r, rex.x, rex.b, w, bit1 rex.r ++ reg⟩ reg rm) =
        sumOf s (.addpdSseRex p rex reg rm) :=
  ⟨congrArg (laneOut s s.rc s.um · (secondSource s (.addpdSse p reg rm))) (setWidth_vvvv_eq_vecNum false reg),
    congrArg (laneOut s s.rc s.um · (secondSource s (.addpdSseRex p rex reg rm))) (setWidth_vvvv_eq_vecNum rex.r reg)⟩

/-- Form F1 and form F2 with the same sums, the same destination and the same length: they agree but for the bits from 128 up,
which the one keeps and the other zeroes. -/
theorem legacy_and_vex_differ_above_128 {i j : Instr} {s t u : State} (hl : isLegacy i = true) (hv : enableClass j = .vex)
    (hkl : laneCount j = 2) (hd : destination j = destination i) (hlen : j.length = i.length) (hsum : sumOf s j = sumOf s i)
    (ht : exec i s = .next t) (hu : exec j s = .next u) :
    (∀ n, n ≠ destination i → t.vec n = u.vec n) ∧
      lane (t.vec (destination i)) 0 = lane (u.vec (destination i)) 0 ∧
      lane (t.vec (destination i)) 1 = lane (u.vec (destination i)) 1 ∧
      (∀ b, 128 ≤ b → (t.vec (destination i)).getLsbD b = (s.vec (destination i)).getLsbD b) ∧
      (∀ b, 128 ≤ b → b < maxvl s.cfg → (u.vec (destination i)).getLsbD b = false) ∧ t.mxcsr = u.mxcsr ∧ t.rip = u.rip := by
  have hteff := effect_of_exec_legacy hl ht
  have hueff := effect_of_exec_vex hv hu
  rw [hkl, hd, hlen, hsum] at hueff
  obtain ⟨hvec, hlanes, hmx, hrip⟩ := hteff.agree (kl := 2) hueff
  exact ⟨hvec, hlanes 0 (by decide), hlanes 1 (by decide), fun b hb => hteff.getLsbD_vec_of_keep hb,
    fun b hb => hueff.getLsbD_vec_of_zero hb, hmx, hrip⟩

/-- Settles O44: with `vvvv` naming the destination the two forms add the same lanes, and both prefix pairs have one length. -/
theorem legacyAndVexDifferOnlyAbove128 : Obligations.LegacyAndVexDifferOnlyAbove128 := by
  intro p rex w reg rm s t u differ
  obtain ⟨hsum, hsumRex⟩ := sumOf_vex_eq_sumOf_legacy p rex w reg rm s
  exact ⟨legacy_and_vex_differ_above_128 rfl rfl rfl rfl rfl hsum,
    legacy_and_vex_differ_above_128 rfl rfl rfl rfl rfl hsumRex⟩

end Sys2Proof.Machine
end

section
/-! Forms F4, F5 and F6, `VADDPD` with an EVEX prefix: the whole effect of a form that completes, its frame, the case where every
lane is masked off, and what an unmasked form shares with F2 and F3 (43_vaddpd_evex.md R184 to R194). -/

namespace Sys2Proof.Machine

/-! The whole effect. -/

/-- Settles O19: the constructor's fields are those the statement writes out, and its active lanes are the two of the mask. -/
theorem vaddpdEvex128Completes : Obligations.VaddpdEvex128Completes :=
  fun p e bcast reg rm _ => exec_next_effect (i := .vaddpdEvex128 p e bcast reg rm) rfl

/-- Settles O20: likewise with four lanes. -/
theorem vaddpdEvex256Completes : Obligations.VaddpdEvex256Completes :=
  fun p e bcast reg rm _ => exec_next_effect (i := .vaddpdEvex256 p e bcast reg rm) rfl

/-- Settles O21: likewise with eight lanes. -/
theorem vaddpdEvex512Completes : Obligations.VaddpdEvex512Completes :=
  fun p e bcast reg rm _ => exec_next_effect (i := .vaddpdEvex512 p e bcast reg rm) rfl

/-- Under embedded rounding no condition is asked and no flag is set (40_numerics_double_add.md R151). -/
theorem exec_next_effect_of_embeddedRounding {i : Instr} {s : State} (her : (embeddedRounding i).isSome = true)
    (hen : Enabled (enableClass i) s) (hsrc : SourceReady s (isLegacy i) (secondSource s i) (activity s i))
    (hrip : ripOk s (s.rip.toNat + i.length) = true) :
    ∃ t, exec i s = .next t ∧
      AddEffect s t (destination i) (if isLegacy i then .keep else .zero) (zeroingOf i) (sumOf s i) (activity s i) {}
        i.length := by
  obtain ⟨t, ht⟩ := exec_completes hen hsrc (.inl her) hrip
  obtain ⟨-, -, -, -, heff⟩ := exec_eq_next ht
  rw [if_pos her] at heff
  exact ⟨t, ht, heff⟩

/-- Settles O22: the source is a register, which can always be read. -/
theorem vaddpdEvex512ErCompletes : Obligations.VaddpdEvex512ErCompletes :=
  fun p e rc reg rm _ hen =>
    exec_next_effect_of_embeddedRounding (i := .vaddpdEvex512Er p e rc reg rm) rfl hen trivial

/-! The frame. -/

theorem isLegacy_of_evex {i : Instr} (h : enableClass i = .evexVl ∨ enableClass i = .evex512) : isLegacy i = false := by
  cases hl : isLegacy i with
  | false => rfl
  | true =>
    obtain ⟨hclass, -, -⟩ := enableClass_of_isLegacy hl
    rw [hclass] at h
    rcases h with h | h <;> cases h

/-- Settles O25: each part is read off the effect, with the activity of a lane that of the writemask. -/
theorem evexWritesOnlyItsState : Obligations.EvexWritesOnlyItsState := by
  intro i s t hclass h
  obtain ⟨-, -, -, -, heff⟩ := exec_eq_next h
  rw [isLegacy_of_evex hclass] at heff
  have hupper : ∀ b, 64 * laneCount i ≤ b → b < maxvl s.cfg → (t.vec (destination i)).getLsbD b = false :=
    fun b hb => AddEffect.getLsbD_vec_of_zero heff (by rwa [activity_length])
  obtain ⟨⟨hlanes, -⟩, hmx, -, hframe⟩ := heff
  refine ⟨hframe, fun j hj => ?lanes, hupper, ?mxcsr⟩
  case lanes =>
    rw [← activity_getD s i hj]
    exact hlanes j (by rwa [activity_length])
  case mxcsr => rw [hmx, apply_ite Conds.bits, Conds.bits_empty]

/-! Every lane masked off (43_vaddpd_evex.md R194). -/

theorem activity_of_all_masked {i : Instr} {s : State}
    (h : ∀ j, j < laneCount i → Active s (writemask i) j = false) :
    activity s i = List.replicate (laneCount i) false := by
  refine List.eq_replicate_iff.mpr ⟨activity_length s i, fun b hb => ?_⟩
  obtain ⟨j, hj, rfl⟩ := List.mem_map.mp hb
  exact h j (List.mem_range.mp hj)

/-- Form F1 has no writemask, so that each of its lanes is active. -/
theorem isLegacy_of_all_masked {i : Instr} {s : State}
    (h : ∀ j, j < laneCount i → Active s (writemask i) j = false) : isLegacy i = false := by
  cases hl : isLegacy i with
  | false => rfl
  | true =>
    obtain ⟨-, hlanes, hmask⟩ := enableClass_of_isLegacy hl
    have h0 := h 0 (by rw [hlanes]; decide)
    simp [Active, hmask] at h0

/-- No byte of the operand is accessed. -/
theorem offsets_of_all_masked (bcast : Bool) (kl : Nat) : offsets bcast (List.replicate kl false) true = [] := by
  have helements : elements bcast (List.replicate kl false) true = [] := by
    cases bcast <;> simp [elements]
  rw [offsets, helements, List.flatMap_nil]

/-- An access to no byte passes every check. -/
theorem accessible_nil (s : State) (seg : Seg) (ea : Addr) : accessible s seg ea [] = true := by
  simp [accessible, crosses4G, segmentOk, pieces, refusedBytes]

/-- No lane, no condition. -/
theorem condsOf_of_all_masked (out : Nat → FaddOut) (kl : Nat) : condsOf out (List.replicate kl false) = {} := by
  have hactive : ((List.range (List.replicate kl false).length).filter
      fun j => (List.replicate kl false).getD j false) = [] := by
    simp
  rw [condsOf, preOf, postOf, hactive]
  rfl

/-- A bit of a register is a bit of one of its lanes. -/
theorem getLsbD_eq_getLsbD_lane (v : VecReg) (b : Nat) : v.getLsbD b = (lane v (b / 64)).getLsbD (b % 64) := by
  rw [getLsbD_lane _ _ _ (Nat.mod_lt _ (by decide)), Nat.div_add_mod]

/-- With every lane masked off a bit below the upper bits of the destination is kept, or zero under zeroing-masking. -/
theorem AddEffect.getLsbD_vec_of_all_masked {s t : State} {d : BitVec 5} {upper : Upper} {z : Bool} {out : Nat → FaddOut}
    {kl b : Nat} {c : Conds} {len : Nat} (h : AddEffect s t d upper z out (List.replicate kl false) c len)
    (hb : b < 64 * kl) : (t.vec d).getLsbD b = if z then false else (s.vec d).getLsbD b := by
  obtain ⟨⟨hlanes, -⟩, -, -, -⟩ := h
  have hlane := hlanes (b / 64) (by rw [List.length_replicate]; omega)
  rw [List.getD_eq_getElem?_getD, List.getElem?_getD_replicate_default_eq, if_neg Bool.false_ne_true] at hlane
  rw [getLsbD_eq_getLsbD_lane, hlane, getLsbD_eq_getLsbD_lane (s.vec d)]
  cases z with
  | true => exact BitVec.getLsbD_zero
  | false => rfl

/-- With no byte accessed the source can be read, where the masked-off bytes are not asked. -/
theorem sourceReady_of_all_masked {s : State} (src : Source) (kl : Nat) (h : s.cfg.faultSuppression = true) :
    SourceReady s false src (List.replicate kl false) := by
  cases src with
  | reg n => trivial
  | mem seg dflt ea bcast =>
    refine ⟨?_, nofun, .inl h⟩
    rw [offsets_of_all_masked]
    exact accessible_nil s seg ea

/-- With no byte accessed, but one that would be asked inaccessible, the read is refused (20_memory.md R66). -/
theorem readSource_refused_of_all_masked {s : State} {seg : Seg} (dflt : Seg) {ea : Addr} {bcast : Bool} {kl : Nat}
    (h : s.cfg.faultSuppression = false)
    (hacc : accessible s seg ea (offsets bcast (List.replicate kl false) false) = false) :
    readSource s false (.mem seg dflt ea bcast) (List.replicate kl false) = .refused .maskedElementInaccessible := by
  have hcheck : checkOperand s seg dflt ea false [] = .next () :=
    checkOperand_eq_next.mpr ⟨accessible_nil s seg ea, nofun⟩
  simp only [readSource, offsets_of_all_masked, hcheck, andThen_next, h, hacc]
  rfl

/-- Settles O38: with no lane active nothing is accessed and no condition arises, so that only the bytes of the masked-off
elements can stop the form. -/
theorem allMaskedOff : Obligations.AllMaskedOff := by
  intro i s hen hmasked hrip
  have hact := activity_of_all_masked hmasked
  have hl := isLegacy_of_all_masked hmasked
  refine ⟨fun hfs => ?completes, fun seg dflt ea bcast hfs hsrc hacc => ?refused⟩
  case completes =>
    have hconds : condsOf (sumOf s i) (activity s i) = {} := by rw [hact, condsOf_of_all_masked]
    obtain ⟨t, ht⟩ := exec_completes (i := i) hen (by rw [hact, hl]; exact sourceReady_of_all_masked _ _ hfs)
      (.inr (by rw [hconds]; rfl)) hrip
    obtain ⟨-, -, -, -, heff⟩ := exec_eq_next ht
    rw [hconds, ite_self, hact, hl] at heff
    have hlow := fun b => heff.getLsbD_vec_of_all_masked (b := b)
    have hhigh : ∀ b, 64 * laneCount i ≤ b → b < maxvl s.cfg → (t.vec (destination i)).getLsbD b = false :=
      fun b hb => AddEffect.getLsbD_vec_of_zero heff (by rwa [List.length_replicate])
    obtain ⟨-, hmx, hnext, hframe⟩ := heff
    exact ⟨t, ht, by rw [hmx, Conds.bits_empty, BitVec.or_zero], hnext, hframe, hlow, hhigh⟩
  case refused =>
    refine exec_of_read_refused hen ?_
    rw [hact] at hacc ⊢
    rw [hl, hsrc]
    exact readSource_refused_of_all_masked dflt hfs hacc

/-! Without writemask: form F4 and form F2, form F5 and form F3. -/

theorem State.zmm_eq_of_vec_eq {t u : State} (h : ∀ n, t.vec n = u.vec n) : t.zmm = u.zmm := by
  apply Vector.ext
  intro n hn
  have hvec := h (BitVec.ofNat 5 n)
  simpa [State.vec, Nat.mod_eq_of_lt hn] using hvec

/-- What an addition writes into its destination is determined by its sums, its active lanes and the old value. -/
theorem DestinationWritten.vec_eq {s t u : State} {d : BitVec 5} {upper : Upper} {z : Bool} {out : Nat → FaddOut}
    {act : List Bool} (ht : DestinationWritten s t d upper z out act) (hu : DestinationWritten s u d upper z out act) :
    t.vec d = u.vec d := by
  obtain ⟨htlanes, htupper⟩ := ht
  obtain ⟨hulanes, huupper⟩ := hu
  apply BitVec.eq_of_getLsbD_eq
  intro b hb
  rcases Nat.lt_or_ge b (64 * act.length) with hlow | hhigh
  · have hj : b / 64 < act.length := by omega
    rw [getLsbD_eq_getLsbD_lane, getLsbD_eq_getLsbD_lane (u.vec d), htlanes _ hj, hulanes _ hj]
  · rw [htupper b hhigh hb, huupper b hhigh hb]

/-- Two additions of the same sums into the same register, of any lengths, write the same vector registers and flags. -/
theorem AddEffect.zmm_mxcsr_eq {s t u : State} {d : BitVec 5} {upper : Upper} {z : Bool} {out : Nat → FaddOut}
    {act : List Bool} {c : Conds} {len len' : Nat} (ht : AddEffect s t d upper z out act c len)
    (hu : AddEffect s u d upper z out act c len') : t.zmm = u.zmm ∧ t.mxcsr = u.mxcsr := by
  obtain ⟨htdst, htmx, -, htvec, -⟩ := ht
  obtain ⟨hudst, humx, -, huvec, -⟩ := hu
  refine ⟨State.zmm_eq_of_vec_eq fun n => ?_, htmx.trans humx.symm⟩
  by_cases hn : n = d
  · rw [hn, htdst.vec_eq hudst]
  · rw [htvec n hn, huvec n hn]

theorem embeddedRounding_of_evexVl {i : Instr} (h : enableClass i = .evexVl) : embeddedRounding i = none := by
  cases i
  case vaddpdEvex512Er => cases h
  all_goals rfl

/-- Form F4 or F5 without writemask and a VEX form with as many lanes, the same destination and the same sums: they write the
same vector registers and flags. -/
theorem unmasked_evex_eq_vex {i j : Instr} {s t u : State} (hi : enableClass i = .evexVl) (hmask : writemask i = 0#3)
    (hz : zeroingOf i = false) (hv : enableClass j = .vex) (hkl : laneCount i = laneCount j)
    (hd : destination i = destination j) (hsum : sumOf s i = sumOf s j) (ht : exec i s = .next t) (hu : exec j s = .next u) :
    t.zmm = u.zmm ∧ t.mxcsr = u.mxcsr := by
  obtain ⟨-, -, -, -, hteff⟩ := exec_eq_next ht
  rw [embeddedRounding_of_evexVl hi, activity_of_no_writemask s hmask, isLegacy_of_evex (.inl hi), hz, hkl, hd, hsum] at hteff
  exact AddEffect.zmm_mxcsr_eq hteff (effect_of_exec_vex hv hu)

/-- With `V' = 0` the first source is the register that `vvvv` names in the VEX scheme (30_encoding.md R103, R113). -/
theorem zero_append_vvvv (vvvv : BitVec 4) : bit1 false ++ vvvv = vvvv.setWidth 5 := by
  revert vvvv
  decide

/-- Settles O45: below 16 the two schemes name the same first source, so that with the same second source the sums are the
same. -/
theorem unmaskedEvexIsVex : Obligations.UnmaskedEvexIsVex := by
  intro p p' r x b x' b' w vvvv reg rm rm' s t u e v
  have hsum {src src' : Source} (h : src = src') :
      laneOut s s.rc s.um (bit1 false ++ vvvv) src = laneOut s s.rc s.um (vvvv.setWidth 5) src' := by
    rw [h, zero_append_vvvv]
  exact ⟨fun hsrc => unmasked_evex_eq_vex rfl rfl rfl rfl rfl rfl (hsum hsrc),
    fun hsrc => unmasked_evex_eq_vex rfl rfl rfl rfl rfl rfl (hsum hsrc)⟩

end Sys2Proof.Machine
end

section
/-! A masked-off lane, or a bit from `VL` up, of a source register has no effect (43_vaddpd_evex.md R188, 42_vaddpd_vex.md R175):
each operation of an addition commutes with a write of a register that keeps the active lanes. -/

namespace Sys2Proof.Machine

/-- Sequencing commutes with a change of the state where both parts do; the second only on the value that the first answers. -/
theorem andThen_mapResult_of_next {α α' β β' : Type} {g : State → State} {h : α → α'} {h' : β → β'} {o : Result α}
    {f : α → Result β} {f' : α' → Result β'} (hf : ∀ a, o = .next a → f' (h a) = mapResult g h' (f a)) :
    andThen (mapResult g h o) f' = mapResult g h' (andThen o f) := by
  cases o with
  | next a => exact hf a rfl
  | fault f => rfl
  | refused r => rfl

/-- The write of one vector register, as a change of the registers, so that what holds of any such change holds of it. -/
def writeVec (n : BitVec 5) (v : VecReg) : State → State :=
  State.mapRegisters (fun z => z.set n.toNat v (by have := n.isLt; omega)) id id

section Write
variable (n : BitVec 5) (v : VecReg) (s : State)

theorem writeVec_eq_setVec : writeVec n v s = s.setVec n v := rfl

theorem raise_writeVec {α β : Type} (h : α → β) (e : Exn) :
    raise e (writeVec n v s) = mapResult (writeVec n v) h (raise e s) :=
  raise_mapRegisters _ id id s h e

theorem checkEnabled_writeVec (c : EnableClass) :
    checkEnabled c (writeVec n v s) = mapResult (writeVec n v) id (checkEnabled c s) := by
  have hp : premises (writeVec n v s) = premises s := rfl
  have hd : disabled c (writeVec n v s) = disabled c s := rfl
  have ht : (writeVec n v s).ts = s.ts := rfl
  unfold checkEnabled
  rw [hp, hd, ht]
  cases premises s with
  | some r => rfl
  | none => cases disabled c s <;> cases s.ts <;> rfl

/-- The source read has the same outcome, with the lanes that the source has after the write. -/
theorem readSource_writeVec (align : Bool) (src : Source) (act : List Bool) :
    readSource (writeVec n v s) align src act =
      mapResult (writeVec n v) (fun _ => (List.range act.length).map (sourceLane (writeVec n v s) src))
        (readSource s align src act) := by
  cases src with
  | reg m => rfl
  | mem seg dflt ea bcast =>
    simp only [readSource]
    rw [writeVec, checkOperand_mapRegisters, ← writeVec]
    refine andThen_mapResult fun _ => ?_
    have hf : (writeVec n v s).cfg.faultSuppression = s.cfg.faultSuppression := rfl
    have ha (offs : List Nat) : accessible (writeVec n v s) seg ea offs = accessible s seg ea offs := rfl
    rw [hf, ha]
    split <;> rfl

theorem packedAdd_writeVec (rm : Rounding) (sae : Bool) (pairs : List (Option (Double × Double))) :
    packedAdd (writeVec n v s) rm sae pairs =
      mapResult (writeVec n v) (Prod.map id (writeVec n v)) (packedAdd s rm sae pairs) := by
  have hl : laneSums (writeVec n v s) rm sae pairs = laneSums s rm sae pairs := rfl
  have hu (c : Conds) : c.unmasked (writeVec n v s) = c.unmasked s := rfl
  have hraise (cause seen : Conds) : raiseSimd cause seen (writeVec n v s) =
      mapResult (writeVec n v) (Prod.map id (writeVec n v)) (raiseSimd (α := List (Option Double) × State) cause seen s) :=
    raise_writeVec n v (simdFaultState cause seen s) _ _
  unfold packedAdd
  dsimp only
  rw [hl, hu, hu]
  split
  · rfl
  · split
    · exact hraise _ _
    · split
      · exact hraise _ _
      · rfl

variable {n}

/-- Writes of two registers commute. -/
theorem setVec_writeVec {d : BitVec 5} (hd : n ≠ d) (x : VecReg) :
    (writeVec n v s).setVec d x = writeVec n v (s.setVec d x) := by
  have hne : n.toNat ≠ d.toNat := fun h => hd (BitVec.eq_of_toNat_eq h)
  simp only [writeVec_eq_setVec, State.setVec, Vector.set_comm _ _ hne]

variable {v s}

/-- A register that is replaced in its inactive lanes only gives the same operands to every active lane, as either source. -/
theorem lanePairs_writeVec {act : List Bool} (hlanes : ∀ j, act.getD j false = true → lane v j = lane (s.vec n) j)
    (src1 : BitVec 5) (src2 : Source) :
    lanePairs (writeVec n v s) src1 act ((List.range act.length).map (sourceLane (writeVec n v s) src2)) =
      lanePairs s src1 act ((List.range act.length).map (sourceLane s src2)) := by
  have hreg (m : BitVec 5) {j : Nat} (hj : act.getD j false = true) :
      lane ((writeVec n v s).vec m) j = lane (s.vec m) j := by
    by_cases hm : m = n
    · rw [hm, writeVec_eq_setVec, State.vec_setVec_same, hlanes j hj]
    · rw [writeVec_eq_setVec, State.vec_setVec_ne s v hm]
  have hsrc {j : Nat} (hj : act.getD j false = true) :
      sourceLane (writeVec n v s) src2 j = sourceLane s src2 j := by
    cases src2 with
    | reg m => exact hreg m hj
    | mem seg dflt ea bcast => rfl
  refine List.map_congr_left fun j hj => ?_
  by_cases hact : act.getD j false = true
  · simp [hreg src1 hact, hsrc hact, List.getD, List.mem_range.mp hj]
  · rw [if_neg hact, if_neg hact]

/-- An addition into another register has the same outcome, with the replaced register in it. -/
theorem execAdd_writeVec {op : AddOp} (hd : n ≠ op.dst)
    (hlanes : ∀ j, (op.act s).getD j false = true → lane v j = lane (s.vec n) j) :
    execAdd op (writeVec n v s) = mapOutcome (writeVec n v) (execAdd op s) := by
  have hact : activeLanes (writeVec n v s) op.kl op.mask = op.act s := rfl
  have hrm : op.rounding (writeVec n v s) = op.rounding s := rfl
  have hold : (writeVec n v s).vec op.dst = s.vec op.dst := State.vec_setVec_ne s v hd.symm
  have hcfg : (writeVec n v s).cfg = s.cfg := rfl
  rw [← mapResult_self]
  unfold execAdd
  dsimp only
  rw [hact, checkEnabled_writeVec]
  refine andThen_mapResult fun _ => ?_
  rw [readSource_writeVec]
  refine andThen_mapResult_of_next fun bs hbs => ?_
  obtain ⟨-, rfl⟩ := readSource_eq_next.mp hbs
  rw [hrm, hold, hcfg, ← AddOp.act, lanePairs_writeVec hlanes, packedAdd_writeVec]
  refine andThen_mapResult fun r => ?_
  rw [Prod.map_fst, Prod.map_snd, id, setVec_writeVec v _ hd]
  exact advance_mapRegisters _ id id (r.2.setVec op.dst _) op.len

/-- Which addition an instruction performs does not depend on the vector registers. -/
theorem opOf_writeVec (i : Instr) : opOf (writeVec n v s) i = opOf s i := by
  cases i <;> rfl

end Write

/-- Settles O29: the lanes that an addition takes from a register are the active ones, and only its destination is written. -/
theorem maskedOffLanesDoNotMatter : Obligations.MaskedOffLanesDoNotMatter := by
  intro i s n v hd hlanes
  change exec i (writeVec n v s) = mapOutcome (writeVec n v) (exec i s)
  rw [exec_eq, exec_eq, opOf_writeVec]
  refine execAdd_writeVec hd fun j hj => ?_
  change (activity s i).getD j false = true at hj
  by_cases hlt : j < laneCount i
  · exact hlanes j hlt ((activity_getD s i hlt).symm.trans hj)
  · rw [List.getD_eq_default _ _ (by rw [activity_length]; omega)] at hj
    cases hj

end Sys2Proof.Machine
end

section
/-! A run (60_exceptions.md R221): what steps in a row keep, and the one flag update they amount to. -/

namespace Sys2Proof.Machine

/-- A relation that every state has to itself, and that a step may be put in front of, holds along every run. -/
theorem runSteps_induction {R : State → State → Prop} (hrefl : ∀ s, R s s)
    (hstep : ∀ {s t u}, step s = .next t → R t u → R s u) {n : Nat} {s t : State} (h : runSteps n s = .next t) : R s t := by
  induction n generalizing s with
  | zero =>
    obtain rfl := Host.Outcome.next.inj h
    exact hrefl _
  | succ n ih =>
    obtain ⟨u, hu, hrest⟩ := andThen_eq_next.mp h
    exact hstep hu (ih hrest)

/-- From `s` to `t` only vector registers, `RIP` and MXCSR change, and of MXCSR only flags of conditions are set. -/
def OnlyFlagsVectorsRip (s t : State) : Prop :=
  t = { s with zmm := t.zmm, rip := t.rip, mxcsr := t.mxcsr } ∧ ∃ c : Conds, t.mxcsr = s.mxcsr ||| c.bits

theorem OnlyFlagsVectorsRip.refl (s : State) : OnlyFlagsVectorsRip s s :=
  ⟨rfl, {}, by rw [Conds.bits_empty, BitVec.or_zero]⟩

theorem OnlyFlagsVectorsRip.trans {s t u : State} (h : OnlyFlagsVectorsRip s t) (h' : OnlyFlagsVectorsRip t u) :
    OnlyFlagsVectorsRip s u := by
  obtain ⟨ht, c, hc⟩ := h
  obtain ⟨hu, c', hc'⟩ := h'
  refine ⟨hu.trans ?_, c.union c', by rw [hc', hc, Conds.bits_union, BitVec.or_assoc]⟩
  exact congrArg (fun w : State => { w with zmm := u.zmm, rip := u.rip, mxcsr := u.mxcsr }) ht

/-- An addition that completes writes its destination, `RIP` and the flags. -/
theorem AddEffect.onlyFlagsVectorsRip {s t : State} {d : BitVec 5} {upper : Upper} {z : Bool} {out : Nat → FaddOut}
    {act : List Bool} {c : Conds} {len : Nat} (h : AddEffect s t d upper z out act c len) : OnlyFlagsVectorsRip s t := by
  obtain ⟨-, hmx, -, -, hk, hgpr, hseg, hfl, hcr0, hcr2, hcr4, hxcr0, hcpl, hmode, hmem, -, hcfg, hdraws⟩ := h
  refine ⟨?_, c, hmx⟩
  rw [← hk, ← hgpr, ← hseg, ← hfl, ← hcr0, ← hcr2, ← hcr4, ← hxcr0, ← hcpl, ← hmode, ← hmem, ← hcfg, ← hdraws]

theorem step_onlyFlagsVectorsRip {s t : State} (h : step s = .next t) : OnlyFlagsVectorsRip s t := by
  obtain rfl | ⟨i, hi⟩ := step_eq_next h
  · exact .refl t
  · obtain ⟨-, -, -, -, heffect⟩ := exec_eq_next hi
    exact heffect.onlyFlagsVectorsRip

theorem runSteps_onlyFlagsVectorsRip {n : Nat} {s t : State} (h : runSteps n s = .next t) : OnlyFlagsVectorsRip s t :=
  runSteps_induction (R := OnlyFlagsVectorsRip) .refl (fun hstep => (step_onlyFlagsVectorsRip hstep).trans) h

/-- Settles O15: each step changes vector registers, `RIP` and flags only, and so does a run. -/
theorem runKeepsEverythingElse : Obligations.RunKeepsEverythingElse := by
  intro n s t h
  obtain ⟨ht, c, hc⟩ := runSteps_onlyFlagsVectorsRip h
  have hother (b : Nat) (hb : b ∉ [0, 1, 3, 4, 5]) : t.mxcsr.getLsbD b = s.mxcsr.getLsbD b := by
    rw [hc, BitVec.getLsbD_or, c.getLsbD_bits_other hb, Bool.or_false]
  have hsticky (b : Nat) (hb : s.mxcsr.getLsbD b = true) : t.mxcsr.getLsbD b = true := by
    rw [hc, BitVec.getLsbD_or, hb, Bool.true_or]
  refine ⟨?_, ?_, ?_, ?_, ?_, ?_, ?_, ?_, ?_, ?_, ?_, ?_, fun a => ?_, hother, hsticky⟩
  all_goals rw [ht]
  rfl

end Sys2Proof.Machine
end

section
/-! The enable checks as the table of 60_exceptions.md R201 has them, and #NM (R202). -/

namespace Sys2Proof.Machine

/-! The columns of the table. -/

theorem disabled_sse {s : State} :
    disabled .sse s = true ↔ s.cfg.sse2 = false ∨ s.cr0.getLsbD 2 = true ∨ s.cr4.getLsbD 9 = false := by
  simp [disabled, State.em, State.osfxsr, or_assoc]

theorem disabled_vex {s : State} :
    disabled .vex s = true ↔ s.cfg.avx = false ∨ s.cr4.getLsbD 18 = false ∨ s.xcr0.extractLsb' 1 2 ≠ 3#2 := by
  simp [disabled, State.osxsave, State.avxState, or_assoc]

theorem disabled_evexVl {s : State} :
    disabled .evexVl s = true ↔ s.cfg.avx512f = false ∨ s.cfg.avx512vl = false ∨ s.cr4.getLsbD 18 = false ∨
      s.xcr0.extractLsb' 1 2 ≠ 3#2 ∨ s.xcr0.extractLsb' 5 3 ≠ 7#3 := by
  simp [disabled, State.osxsave, State.avxState, State.avx512State, or_assoc]

theorem disabled_evex512 {s : State} :
    disabled .evex512 s = true ↔ s.cfg.avx512f = false ∨ s.cr4.getLsbD 18 = false ∨
      s.xcr0.extractLsb' 1 2 ≠ 3#2 ∨ s.xcr0.extractLsb' 5 3 ≠ 7#3 := by
  simp [disabled, State.osxsave, State.avxState, State.avx512State, or_assoc]

/-! What an instruction answers to them. -/

theorem exec_of_disabled {i : Instr} {s : State} (hp : premises s = none) (h : disabled (enableClass i) s = true) :
    exec i s = .fault (.invalidOpcode s) :=
  exec_of_check_fault (checkEnabled_ud hp h)

/-- Settles O33: a cause in the column of the instruction's class disables it. -/
theorem disabledIsUndefined : Obligations.DisabledIsUndefined := by
  intro i s hp h
  refine exec_of_disabled hp ?_
  cases hc : enableClass i with
  | sse =>
    rw [hc] at h
    exact disabled_sse.mpr h
  | vex =>
    rw [hc] at h
    exact disabled_vex.mpr h
  | evexVl =>
    rw [hc] at h
    exact disabled_evexVl.mpr h
  | evex512 =>
    rw [hc] at h
    exact disabled_evex512.mpr h

/-- Settles O34: #NM is asked last of the enable checks; CR0.EM disables form F1 before it. -/
theorem taskSwitchedIsDeviceNotAvailable : Obligations.TaskSwitchedIsDeviceNotAvailable := by
  refine ⟨fun i s hp hd hts => exec_of_check_fault (checkEnabled_nm hp hd hts), fun i s hp hl hem _ => ?_⟩
  obtain ⟨hclass, -, -⟩ := enableClass_of_isLegacy hl
  exact exec_of_disabled hp (hclass ▸ disabled_sse.mpr (.inr (.inl hem)))

end Sys2Proof.Machine
end

section
/-! The faults of a step (60_exceptions.md R200 to R207, R213): each with the state at it, and the error code of a page fault. -/

namespace Sys2Proof.Machine

/-- The instruction at `RIP` is enabled, its source can be read, and a condition of its lanes is unmasked. -/
def UnmaskedAtRip (s : State) : Prop :=
  ∃ (i : Instr) (n : Nat), decode s.mode (fetchBytes s maxLength 0).1 = .ok i n ∧ Enabled (enableClass i) s ∧
    SourceReady s (isLegacy i) (secondSource s i) (activity s i) ∧ embeddedRounding i = none ∧
    ((condsOf (sumOf s i) (activity s i)).unmasked s).any = true

/-- The faults a step from `s` can end in, each with the state at it; `n` is the counter of draws. -/
inductive FaultFrom (s : State) : Fault → Prop where
  | undefined : FaultFrom s (.invalidOpcode s)
  | notAvailable : FaultFrom s (.deviceNotAvailable s)
  | stackSegment (n : Nat) : FaultFrom s (.stackSegment { s with draws := n })
  | generalProtection (n : Nat) : FaultFrom s (.generalProtection { s with draws := n })
  | pageFault {code : BitVec 32} {a : Addr} (n : Nat)
      (hcode : translate s.cfg a .fetch s.cpl = some code ∨ translate s.cfg a .dataRead s.cpl = some code) :
      FaultFrom s (.pageFault code a { s with cr2 := a, draws := n })
  | simd (cause seen : Conds) (hxm : s.osxmmexcpt = true) (h : UnmaskedAtRip s) :
      FaultFrom s (.simdFloatingPoint (simdFaultState cause seen s))
  | simdUndefined (cause seen : Conds) (hxm : s.osxmmexcpt = false) (h : UnmaskedAtRip s) :
      FaultFrom s (.invalidOpcode (simdFaultState cause seen s))

theorem FaultFrom.of_raiseSimd {s : State} {cause seen : Conds} {f : Fault}
    (hraise : (raiseSimd cause seen s : Result Unit) = .fault f) (h : UnmaskedAtRip s) : FaultFrom s f := by
  rw [raiseSimd_eq] at hraise
  cases hxm : s.osxmmexcpt with
  | true =>
    rw [hxm] at hraise
    cases hraise
    exact .simd cause seen hxm h
  | false =>
    rw [hxm] at hraise
    cases hraise
    exact .simdUndefined cause seen hxm h

/-- An unmasked condition of either stage is one of all the conditions (40_numerics_double_add.md R150). -/
theorem unmasked_condsOf_any {out : Nat → FaddOut} {act : List Bool} {s : State}
    (h : ((preOf out act).unmasked s).any = true ∨ ((postOf out act).unmasked s).any = true) :
    ((condsOf out act).unmasked s).any = true := by
  rwa [condsOf, union_unmasked, union_any, Bool.or_eq_true]

theorem faultFrom_of_exec {s : State} {i : Instr} {n : Nat} {f : Fault}
    (hdec : decode s.mode (fetchBytes s maxLength 0).1 = .ok i n) (h : exec i s = .fault f) : FaultFrom s f := by
  rcases exec_eq_fault h with hcheck | ⟨-, hread⟩ | ⟨hen, hsrc, her, cause, seen, hraise, hany, hstage⟩
  · rcases checkEnabled_eq_fault hcheck with rfl | rfl
    · exact .undefined
    · exact .notAvailable
  · rcases readSource_eq_fault hread with ⟨n, rfl | rfl⟩ | ⟨code, a, n, hcode, rfl⟩
    · exact .stackSegment n
    · exact .generalProtection n
    · exact .pageFault n (.inr hcode)
  · refine .of_raiseSimd hraise ⟨i, n, hdec, hen, hsrc, her, unmasked_condsOf_any ?_⟩
    rcases hstage with ⟨rfl, -⟩ | ⟨-, rfl, -⟩
    · exact .inl hany
    · exact .inr hany

theorem faultFrom_of_step {s : State} {f : Fault} (h : step s = .fault f) : FaultFrom s f := by
  rcases step_eq_fault h with ⟨i, n, hdec, hexec⟩ | rfl | rfl | ⟨j, code, hcode, rfl⟩
  · exact faultFrom_of_exec hdec hexec
  · exact .undefined
  · exact .generalProtection s.draws
  · exact .pageFault s.draws (.inl hcode)

/-! The flags at a SIMD floating-point fault. -/

theorem getLsbD_drawFlags_other (cause seen : Conds) (free : BitVec 32) {b : Nat} (hb : b ∉ [0, 1, 3, 4, 5]) :
    (drawFlags cause seen free).getLsbD b = false := by
  rw [drawFlags, BitVec.getLsbD_or, BitVec.getLsbD_and, cause.getLsbD_bits_other hb, seen.getLsbD_bits_other hb,
    Bool.and_false, Bool.or_false]

theorem simdFaultState_mxcsr_other (cause seen : Conds) (s : State) {b : Nat} (hb : b ∉ [0, 1, 3, 4, 5]) :
    (simdFaultState cause seen s).mxcsr.getLsbD b = s.mxcsr.getLsbD b := by
  rw [simdFaultState_mxcsr, BitVec.getLsbD_or, getLsbD_drawFlags_other _ _ _ hb, Bool.or_false]

theorem simdFaultState_mxcsr_sticky (cause seen : Conds) (s : State) {b : Nat} (hb : s.mxcsr.getLsbD b = true) :
    (simdFaultState cause seen s).mxcsr.getLsbD b = true := by
  rw [simdFaultState_mxcsr, BitVec.getLsbD_or, hb, Bool.true_or]

/-- Settles O40: read off the state at each fault a step can end in. -/
theorem faultsArePrecise : Obligations.FaultsArePrecise := by
  intro s f h
  cases faultFrom_of_step h with
  | undefined =>
    exact ⟨rfl, rfl, rfl, rfl, rfl, rfl, rfl, rfl, rfl, rfl, rfl, rfl, rfl, rfl, .inl rfl, fun _ _ => rfl, fun _ hb => hb⟩
  | notAvailable | stackSegment | generalProtection | pageFault =>
    exact ⟨rfl, rfl, rfl, rfl, rfl, rfl, rfl, rfl, rfl, rfl, rfl, rfl, rfl, rfl, rfl, fun _ _ => rfl, fun _ hb => hb⟩
  | simd cause seen hxm hsimd =>
    exact ⟨rfl, rfl, rfl, rfl, rfl, rfl, rfl, rfl, rfl, rfl, rfl, rfl, rfl, rfl, ⟨hxm, hsimd⟩,
      fun _ => simdFaultState_mxcsr_other cause seen s, fun _ => simdFaultState_mxcsr_sticky cause seen s⟩
  | simdUndefined cause seen hxm hsimd =>
    exact ⟨rfl, rfl, rfl, rfl, rfl, rfl, rfl, rfl, rfl, rfl, rfl, rfl, rfl, rfl, .inr ⟨hxm, hsimd⟩,
      fun _ => simdFaultState_mxcsr_other cause seen s, fun _ => simdFaultState_mxcsr_sticky cause seen s⟩

/-! The error code of a page fault. -/

/-- What the translation of an admitted configuration answers: W/R is 0, and U/S is 1 at level 3 only
(60_exceptions.md R205). -/
theorem translate_code {c : Cfg} (hwf : c.wf = true) {a : Addr} {kind : AccessKind} {cpl : BitVec 2} {code : BitVec 32}
    (h : translate c a kind cpl = some code) : code.getLsbD 1 = false ∧ (code.getLsbD 2 = true ↔ cpl = 3#2) := by
  obtain ⟨-, hcodes⟩ := Bool.and_eq_true_iff.mp hwf
  obtain ⟨e, he, rfl⟩ := Option.map_eq_some_iff.mp h
  have hok := List.all_eq_true.mp hcodes e (List.mem_of_find?_eq_some he)
  have hcpl : e.cpl = cpl := by
    have := List.find?_some he
    simp only [Bool.and_eq_true, beq_iff_eq] at this
    exact this.2
  simp only [PageFaultRange.codeOk, Bool.and_eq_true, Bool.not_eq_true', beq_iff_eq] at hok
  obtain ⟨⟨hwr, hus⟩, -⟩ := hok
  exact ⟨hwr, by rw [hus, hcpl, beq_iff_eq]⟩

/-- Settles O41: the code comes from the translation of an instruction byte or of an operand byte. -/
theorem pageFaultCodes : Obligations.PageFaultCodes := by
  intro s code a u hwf h
  cases faultFrom_of_step h with
  | pageFault n hcode => exact ⟨hcode, rfl, hcode.elim (translate_code hwf) (translate_code hwf)⟩

end Sys2Proof.Machine
end

section
/-! The privilege level is not read (60_exceptions.md R220): with no page fault in the configuration and alignment checking off
each operation of a step commutes with a change of the level. -/

namespace Sys2Proof.Machine

def State.withLevel (c : BitVec 2) (s : State) : State := { s with cpl := c }

theorem translate_of_no_pageFaults {c : Cfg} (h : c.pageFaults = []) (a : Addr) (kind : AccessKind) (cpl : BitVec 2) :
    translate c a kind cpl = none := by
  rw [translate, h]
  rfl

theorem refusedBytes_of_no_pageFaults {s : State} (h : s.cfg.pageFaults = []) (seg : Seg) (ea : Addr) (offs : List Nat) :
    refusedBytes s seg ea offs = [] := by
  simp [refusedBytes, translate_of_no_pageFaults h]

section Level
variable (c : BitVec 2) (s : State)

/-! Operations that do not look at the level. -/

theorem raise_withLevel {α β : Type} (h : α → β) (e : Exn) :
    raise e (s.withLevel c) = mapResult (State.withLevel c) h (raise e s) := by
  cases e <;> rfl

theorem raiseSimd_withLevel {α β : Type} (h : α → β) (cause seen : Conds) :
    raiseSimd cause seen (s.withLevel c) = mapResult (State.withLevel c) h (raiseSimd cause seen s) :=
  raise_withLevel c (simdFaultState cause seen s) h _

theorem segmentFault_withLevel (seg dflt : Seg) (m : Bool) :
    segmentFault (s.withLevel c) seg dflt m = mapResult (State.withLevel c) id (segmentFault s seg dflt m) := by
  have hr : reportsStack (s.withLevel c) seg dflt = reportsStack s seg dflt := rfl
  have hc : overrideContested (s.withLevel c) seg dflt = overrideContested s seg dflt := rfl
  unfold segmentFault
  rw [hr, hc]
  dsimp only
  split
  · exact raise_withLevel c { s with draws := s.draws + 1 } id _
  · cases overrideContested s seg dflt
    · exact raise_withLevel c s id _
    · exact raise_withLevel c { s with draws := s.draws + 1 } id _

theorem packedAdd_withLevel (rm : Rounding) (sae : Bool) (pairs : List (Option (Double × Double))) :
    packedAdd (s.withLevel c) rm sae pairs =
      mapResult (State.withLevel c) (Prod.map id (State.withLevel c)) (packedAdd s rm sae pairs) := by
  have hl : laneSums (s.withLevel c) rm sae pairs = laneSums s rm sae pairs := rfl
  have hu (d : Conds) : d.unmasked (s.withLevel c) = d.unmasked s := rfl
  unfold packedAdd
  dsimp only
  rw [hl, hu, hu]
  split
  · rfl
  · split
    · exact raiseSimd_withLevel c s _ _ _
    · split
      · exact raiseSimd_withLevel c s _ _ _
      · rfl

theorem advance_withLevel (len : Nat) :
    advance len (s.withLevel c) = mapResult (State.withLevel c) (State.withLevel c) (advance len s) := by
  have hr (a : Nat) : ripOk (s.withLevel c) a = ripOk s a := rfl
  have hp : (s.withLevel c).rip = s.rip := rfl
  unfold advance
  rw [hr, hp]
  split <;> rfl

/-! Operations that ask for the translation at the level. -/

section Paging
variable {s} (hpf : s.cfg.pageFaults = [])
include hpf

theorem checkOperand_withLevel (seg dflt : Seg) (ea : Addr) (align : Bool) (offs : List Nat) :
    checkOperand (s.withLevel c) seg dflt ea align offs =
      mapResult (State.withLevel c) id (checkOperand s seg dflt ea align offs) := by
  have hx : crosses4G (s.withLevel c) ea offs = crosses4G s ea offs := rfl
  have hs : segmentOk (s.withLevel c) seg ea offs = segmentOk s seg ea offs := rfl
  have ha : aligned16 (s.withLevel c) seg ea = aligned16 s seg ea := rfl
  have hpf' : (s.withLevel c).cfg.pageFaults = [] := hpf
  unfold checkOperand
  rw [hx, hs, ha, refusedBytes_of_no_pageFaults hpf, refusedBytes_of_no_pageFaults hpf']
  dsimp only
  split
  · rfl
  · split
    · exact segmentFault_withLevel c s seg dflt _
    · split
      · exact raise_withLevel c s id .gp
      · rfl

theorem accessible_withLevel (seg : Seg) (ea : Addr) (offs : List Nat) :
    accessible (s.withLevel c) seg ea offs = accessible s seg ea offs := by
  have hpf' : (s.withLevel c).cfg.pageFaults = [] := hpf
  unfold accessible
  rw [refusedBytes_of_no_pageFaults hpf, refusedBytes_of_no_pageFaults hpf']
  rfl

theorem readSource_withLevel (align : Bool) (src : Source) (act : List Bool) :
    readSource (s.withLevel c) align src act = mapResult (State.withLevel c) id (readSource s align src act) := by
  cases src with
  | reg n => rfl
  | mem seg dflt ea bcast =>
    have hf : (s.withLevel c).cfg.faultSuppression = s.cfg.faultSuppression := rfl
    simp only [readSource]
    rw [checkOperand_withLevel c hpf]
    refine andThen_mapResult fun _ => ?_
    rw [hf, accessible_withLevel c hpf]
    split <;> rfl

theorem fetchByte_withLevel (j : Nat) :
    fetchByte (s.withLevel c) j = mapResult (State.withLevel c) id (fetchByte s j) := by
  have hm : (s.withLevel c).mode = s.mode := rfl
  have hr : (s.withLevel c).rip = s.rip := rfl
  have hs : fetchSegmentOk (s.withLevel c) j = fetchSegmentOk s j := rfl
  have hpf' : (s.withLevel c).cfg.pageFaults = [] := hpf
  unfold fetchByte
  rw [hm, hr, hs, translate_of_no_pageFaults hpf, translate_of_no_pageFaults hpf']
  generalize (if s.mode = .mode64 then 2 ^ 64 else 2 ^ 32) = limit
  split
  · rfl
  · split
    · exact raise_withLevel c s id .gp
    · rfl

/-- The same bytes are fetched, and the fetch stops alike. -/
theorem fetchBytes_withLevel (n j : Nat) :
    (fetchBytes (s.withLevel c) n j).1 = (fetchBytes s n j).1 ∧
      (fetchBytes (s.withLevel c) n j).2 = mapOutcome (State.withLevel c) (fetchBytes s n j).2 := by
  induction n generalizing j with
  | zero => exact ⟨rfl, rfl⟩
  | succ n ih =>
    obtain ⟨hbytes, hstop⟩ := ih (j + 1)
    simp only [fetchBytes, fetchByte_withLevel c hpf]
    cases fetchByte s j with
    | next b => exact ⟨congrArg (b :: ·) hbytes, hstop⟩
    | fault f => exact ⟨rfl, rfl⟩
    | refused r => exact ⟨rfl, rfl⟩

end Paging

/-! Operations that ask whether alignment checking is on, and the step. -/

section Step
variable {s} (hac : (s.am && s.ac) = false)
include hac

theorem premises_withLevel : premises (s.withLevel c) = premises s := by
  have hcheck : s.alignCheck = false := by rw [State.alignCheck, hac, Bool.false_and]
  have hcheck' : (s.withLevel c).alignCheck = false := by
    rw [State.alignCheck, show ((s.withLevel c).am && (s.withLevel c).ac) = false from hac, Bool.false_and]
  unfold premises
  rw [hcheck, hcheck']
  rfl

theorem checkEnabled_withLevel (e : EnableClass) :
    checkEnabled e (s.withLevel c) = mapResult (State.withLevel c) id (checkEnabled e s) := by
  have hd : disabled e (s.withLevel c) = disabled e s := rfl
  have ht : (s.withLevel c).ts = s.ts := rfl
  unfold checkEnabled
  rw [premises_withLevel c hac, hd, ht]
  cases premises s with
  | some r => rfl
  | none => cases disabled e s <;> cases s.ts <;> rfl

variable (hpf : s.cfg.pageFaults = [])
include hpf

theorem execAdd_withLevel (op : AddOp) :
    execAdd op (s.withLevel c) = mapOutcome (State.withLevel c) (execAdd op s) := by
  have hact : activeLanes (s.withLevel c) op.kl op.mask = activeLanes s op.kl op.mask := rfl
  have hrm : op.rounding (s.withLevel c) = op.rounding s := rfl
  rw [← mapResult_self]
  unfold execAdd
  dsimp only
  rw [hact, checkEnabled_withLevel c hac]
  refine andThen_mapResult fun _ => ?_
  rw [readSource_withLevel c hpf]
  refine andThen_mapResult fun bs => ?_
  have hpairs : lanePairs (s.withLevel c) op.src1 (activeLanes s op.kl op.mask) bs =
      lanePairs s op.src1 (activeLanes s op.kl op.mask) bs := rfl
  rw [id, hpairs, hrm, packedAdd_withLevel]
  exact andThen_mapResult fun r => advance_withLevel c (r.2.setVec op.dst _) op.len

theorem exec_withLevel (i : Instr) : exec i (s.withLevel c) = mapOutcome (State.withLevel c) (exec i s) := by
  have hop : opOf (s.withLevel c) i = opOf s i := by cases i <;> rfl
  rw [exec_eq, exec_eq, hop]
  exact execAdd_withLevel c hac hpf (opOf s i)

theorem step_withLevel : step (s.withLevel c) = mapOutcome (State.withLevel c) (step s) := by
  have hprem := premises_withLevel c hac
  cases hp : premises s with
  | some r => rw [step_of_premises_some hp, step_of_premises_some (hprem.trans hp)]; rfl
  | none =>
    have hp' := hprem.trans hp
    by_cases he : s.rip = s.cfg.endRip
    · rw [step_of_endRip hp he, step_of_endRip hp' he]; rfl
    · obtain ⟨hbytes, hstop⟩ := fetchBytes_withLevel c hpf maxLength 0
      have hdec : decode (s.withLevel c).mode (fetchBytes (s.withLevel c) maxLength 0).1 =
          decode s.mode (fetchBytes s maxLength 0).1 := congrArg (decode s.mode) hbytes
      cases hd : decode s.mode (fetchBytes s maxLength 0).1 with
      | ok i n =>
        rw [step_of_instr hp he (fetchInstr_of_decode_ok hd),
          step_of_instr hp' he (fetchInstr_of_decode_ok (hdec.trans hd))]
        exact exec_withLevel c hac hpf i
      | ud =>
        rw [step_of_stop hp he (fetchInstr_of_decode_ud hd),
          step_of_stop hp' he (fetchInstr_of_decode_ud (hdec.trans hd))]
        rfl
      | refused r =>
        rw [step_of_stop hp he (fetchInstr_of_decode_refused hd),
          step_of_stop hp' he (fetchInstr_of_decode_refused (hdec.trans hd))]
        rfl
      | short =>
        rw [step_of_stop hp he (fetchInstr_of_decode_short hd),
          step_of_stop hp' he (fetchInstr_of_decode_short (hdec.trans hd)), hstop]

end Step

end Level

/-- Settles O42: the level is asked for by alignment checking and by the translation only, and neither depends on it here. -/
theorem privilegeDoesNotMatter : Obligations.PrivilegeDoesNotMatter := by
  intro s c hpf hac
  exact step_withLevel c hac hpf

end Sys2Proof.Machine
end
